-- ==== Sys2Proof/Word.lean ====
section
/-!
DEFINITION. The word types of the 8bitcpu CORE: bytes, instruction words, opcode numbers and the names
of the four general registers (spec/00_scope.md R6, R7; spec/10_state.md R10).
-/

namespace Sys2Proof

/-- A byte: a register, a data cell, a flags byte, an address of either memory (`XLEN = PC_BITS = 8`, R6). -/
abbrev Byte := BitVec 8

/-- One instruction word, one cell of program memory (`IW = 16`, R6, R41). -/
abbrev InstrWord := BitVec 16

/-- An opcode number (`OPC_BITS = 6`, R6, R42). -/
abbrev Opcode := BitVec 6

/-- The four general registers `x[0]` to `x[3]`, written `r0` to `r3` in assembly text (R10).
There is no fifth, and a register operand is always one of these four. -/
inductive Reg where
  | x0 | x1 | x2 | x3
deriving DecidableEq, Repr

end Sys2Proof
end

