-- ==== Sys2Proof/Config.lean ====
section
/-!
DEFINITION. The configuration record of spec/00_scope.md R6, plain data: what is fixed for a run and is not
state of the hardware; and the one free value of the model, the environment's choices of
spec/50_execution_cycle.md R99. The values the spec gives, `Config.spec`, stand in Decode.lean.
-/

namespace Sys2Proof

/-! ### The parameters of R6 with one admissible value, on which the types are built -/

/-- `NREG`, the number of general registers (R6): the constructors of `Reg`. -/
def NREG : Nat := 4

/-- `XLEN`, the width of a register, of a data cell and of the ALU (R6): the width of `Byte`. -/
def XLEN : Nat := 8

/-- `PC_BITS`, the width of the program pointer (R6): the width of `Byte`. -/
def PC_BITS : Nat := 8

/-- `PMEM_CELLS`, the instruction cells of program memory (R6). -/
def PMEM_CELLS : Nat := 256

/-- `DMEM_CELLS`, the byte cells of data memory (R6). -/
def DMEM_CELLS : Nat := 256

/-- `IW`, the width of one stored instruction word (R6): the width of `InstrWord`. -/
def IW : Nat := 16

/-- `OPC_BITS`, the width of the opcode field (R6): the width of `Opcode`. -/
def OPC_BITS : Nat := 6

/-- The 37 mnemonics the source names, in the row order of the opcode map (R47). LDPR is named and not
present (R86). -/
inductive Mnemonic where
  | noop | clc | cli | cln
  | not | shl | shr | ldfl | stfl | wr | rd | ldpr
  | str | ldr | cp | sub | add | and | or | xor
  | st | ld | li | subi | addi | andi | ori | xori
  | jmp | jiz | jnz | jic | jnc | jii | jni | call | ret
deriving DecidableEq, Repr

/-- Every mnemonic once, in the order of R47. -/
def Mnemonic.all : List Mnemonic :=
  [.noop, .clc, .cli, .cln,
   .not, .shl, .shr, .ldfl, .stfl, .wr, .rd, .ldpr,
   .str, .ldr, .cp, .sub, .add, .and, .or, .xor,
   .st, .ld, .li, .subi, .addi, .andi, .ori, .xori,
   .jmp, .jiz, .jnz, .jic, .jnc, .jii, .jni, .call, .ret]

/-- The place of a mnemonic in that order. -/
def Mnemonic.index : Mnemonic → Fin 37
  | .noop => 0
  | .clc => 1
  | .cli => 2
  | .cln => 3
  | .not => 4
  | .shl => 5
  | .shr => 6
  | .ldfl => 7
  | .stfl => 8
  | .wr => 9
  | .rd => 10
  | .ldpr => 11
  | .str => 12
  | .ldr => 13
  | .cp => 14
  | .sub => 15
  | .add => 16
  | .and => 17
  | .or => 18
  | .xor => 19
  | .st => 20
  | .ld => 21
  | .li => 22
  | .subi => 23
  | .addi => 24
  | .andi => 25
  | .ori => 26
  | .xori => 27
  | .jmp => 28
  | .jiz => 29
  | .jnz => 30
  | .jic => 31
  | .jnc => 32
  | .jii => 33
  | .jni => 34
  | .call => 35
  | .ret => 36

/-- The 36 mnemonics the hardware has (R47): all but LDPR. An opcode map is an injective map from these
(spec/92_eei_decisions.md D3). -/
def Mnemonic.hardware : List Mnemonic := Mnemonic.all.filter (· != .ldpr)

/-- `UNMAPPED_POLICY`: what a word with an opcode number outside the map does (R6, R49, R112). -/
inductive UnmappedPolicy where
  | fault | noop
deriving DecidableEq, Repr

/-- `LDR_ORIENTATION`: which register field of LDR is the address and which the destination (R6, R56). -/
inductive LdrOrientation where
  | addrReg1DestReg2 | destReg1AddrReg2
deriving DecidableEq, Repr

/-- `FLAG_UPDATE`: whether ADD and SUB assign their flag or only ever set it (R6, R15, R17). -/
inductive FlagUpdate where
  | assign | setOnly
deriving DecidableEq, Repr

/-- The configuration record: every parameter of the table R6. The first seven have one admissible value each,
which `Config.valid` asks for, and the types are built on it. -/
structure Config where
  /-- `NREG`. -/
  nreg : Nat := NREG
  /-- `XLEN`. -/
  xlen : Nat := XLEN
  /-- `PC_BITS`. -/
  pcBits : Nat := PC_BITS
  /-- `PMEM_CELLS`. -/
  pmemCells : Nat := PMEM_CELLS
  /-- `DMEM_CELLS`. -/
  dmemCells : Nat := DMEM_CELLS
  /-- `IW`. -/
  iw : Nat := IW
  /-- `OPC_BITS`. -/
  opcBits : Nat := OPC_BITS
  /-- `HAS_CALL_STACK`: CALL, RET and the call stack exist. -/
  hasCallStack : Bool
  /-- `STACK_DEPTH`: the capacity of the call stack in return addresses. -/
  stackDepth : Nat
  /-- `HAS_LDPR`: the instruction LDPR exists; `true` has no meaning from the spec (R86). -/
  hasLdpr : Bool
  /-- `OPCODE_MAP`: one opcode number per mnemonic, in the order of `Mnemonic.all`. LDPR's entry is the number
  set aside for it and is not looked at while `HAS_LDPR` is false. -/
  opcodeMap : Vector Opcode 37
  unmappedPolicy : UnmappedPolicy
  ldrOrientation : LdrOrientation
  flagUpdate : FlagUpdate
  /-- `RD_EOF_VALUE`: the byte RD delivers at the end of the input. -/
  rdEofValue : Byte
deriving DecidableEq, Repr

/-- The opcode number of a mnemonic. -/
def Config.opcodeOf (c : Config) (m : Mnemonic) : Opcode := c.opcodeMap[m.index]

/-- Whether the opcode map has a row for the mnemonic: LDPR's row only if `HAS_LDPR` (R48), the rows of
CALL and RET only if `HAS_CALL_STACK` (R6, spec/93_implementation_defined.md U17). -/
def Config.present (c : Config) (m : Mnemonic) : Bool :=
  (m != .ldpr || c.hasLdpr) && ((m != .call && m != .ret) || c.hasCallStack)

/-- The rows of the opcode map a decoder looks at. -/
def Config.rows (c : Config) : List Mnemonic := Mnemonic.all.filter c.present

/-- The seven parameters with one admissible value have it (R6). -/
def Config.fixedPart (c : Config) : Bool :=
  c.nreg == NREG && c.xlen == XLEN && c.pcBits == PC_BITS && c.pmemCells == PMEM_CELLS &&
    c.dmemCells == DMEM_CELLS && c.iw == IW && c.opcBits == OPC_BITS

/-- The configurations the spec gives a meaning (R6, R111): the fixed parameters at their value, a stack depth of
at least 1, no LDPR, and an opcode map that is injective on the 36 mnemonics, whether or not the call
stack is present (spec/92_eei_decisions.md D3). -/
def Config.valid (c : Config) : Bool :=
  c.fixedPart && decide (1 ≤ c.stackDepth) && !c.hasLdpr &&
    decide (Mnemonic.hardware.Pairwise fun m n => c.opcodeOf m ≠ c.opcodeOf n)

/-! ### The free value: the environment's choices (R99, R110, spec/92_eei_decisions.md O1 to O3) -/

/-- The turns whose order the spec leaves open: the core's own step and the steps of `irq`, `input` and
`output` (R93, R99). The host has none of them: it does nothing during a run (R102). -/
inductive FreeTurn where
  /-- The core takes its step. -/
  | core
  /-- The external interrupt is signalled. -/
  | irq
  /-- A byte arrives at the input. -/
  | inputByte (b : Byte)
  /-- The input ends. -/
  | inputEnd
  /-- The sink accepts bytes from now on. -/
  | sinkAccept
  /-- The sink refuses bytes from now on. -/
  | sinkStall
deriving DecidableEq, Repr, Inhabited

/-- FREE VALUE (DESIGN CHOICE of the form, notes/assumptions/5.md): the turn the environment chooses at each
place of the run, without end. It has no body, so nothing can be proved of it: a statement about a run
holds for every interleaving. -/
opaque Config.environment : Nat → FreeTurn

end Sys2Proof
end

