-- ==== Sys2Proof/Syntax.lean ====
section
/-!
DEFINITION. The instruction set: one constructor of `Instr` per row of spec/opcode_table.json, with the
fields its operand shape uses and no others (spec/30_encoding.md R44, R46).
-/

namespace Sys2Proof

/-- The 36 instructions of the hardware and the reserved name LDPR (R47). `r1` is the field `reg1`, `r2` the
field `reg2`, `data` the operand byte: an address, an operand value or a jump target (R45). -/
inductive Instr where
  /-- NOOP, shape none: 47_io_noop.md R92. -/
  | noop
  /-- CLC, shape none: 41_flag_clear.md R59. -/
  | clc
  /-- CLI, shape none: 41_flag_clear.md R60. -/
  | cli
  /-- CLN, shape none: 41_flag_clear.md R61. -/
  | cln
  /-- NOT, shape short: 43_logic_shift.md R73. -/
  | not (r1 : Reg)
  /-- SHL, shape short: 43_logic_shift.md R74. -/
  | shl (r1 : Reg)
  /-- SHR, shape short: 43_logic_shift.md R75. -/
  | shr (r1 : Reg)
  /-- LDFL, shape short: 45_flags_transfer.md R84. -/
  | ldfl (r1 : Reg)
  /-- STFL, shape short: 45_flags_transfer.md R85. -/
  | stfl (r1 : Reg)
  /-- WR, shape short: 47_io_noop.md R90. -/
  | wr (r1 : Reg)
  /-- RD, shape short: 47_io_noop.md R91. -/
  | rd (r1 : Reg)
  /-- LDPR, shape short: 45_flags_transfer.md R86. -/
  | ldpr (r1 : Reg)
  /-- STR, shape dual: 40_data_movement.md R54. -/
  | str (r1 r2 : Reg)
  /-- LDR, shape dual: 40_data_movement.md R56. -/
  | ldr (r1 r2 : Reg)
  /-- CP, shape dual: 40_data_movement.md R58. -/
  | cp (r1 r2 : Reg)
  /-- SUB, shape dual: 42_arithmetic.md R63. -/
  | sub (r1 r2 : Reg)
  /-- ADD, shape dual: 42_arithmetic.md R65. -/
  | add (r1 r2 : Reg)
  /-- AND, shape dual: 43_logic_shift.md R67. -/
  | and (r1 r2 : Reg)
  /-- OR, shape dual: 43_logic_shift.md R68. -/
  | or (r1 r2 : Reg)
  /-- XOR, shape dual: 43_logic_shift.md R69. -/
  | xor (r1 r2 : Reg)
  /-- ST, shape long: 40_data_movement.md R53. -/
  | st (r1 : Reg) (data : Byte)
  /-- LD, shape long: 40_data_movement.md R55. -/
  | ld (r1 : Reg) (data : Byte)
  /-- LI, shape long: 40_data_movement.md R57. -/
  | li (r1 : Reg) (data : Byte)
  /-- SUBI, shape long: 42_arithmetic.md R64. -/
  | subi (r1 : Reg) (data : Byte)
  /-- ADDI, shape long: 42_arithmetic.md R66. -/
  | addi (r1 : Reg) (data : Byte)
  /-- ANDI, shape long: 43_logic_shift.md R70. -/
  | andi (r1 : Reg) (data : Byte)
  /-- ORI, shape long: 43_logic_shift.md R71. -/
  | ori (r1 : Reg) (data : Byte)
  /-- XORI, shape long: 43_logic_shift.md R72. -/
  | xori (r1 : Reg) (data : Byte)
  /-- JMP, shape data-only: 44_jumps.md R77. -/
  | jmp (data : Byte)
  /-- JIZ, shape long: 44_jumps.md R78. -/
  | jiz (r1 : Reg) (data : Byte)
  /-- JNZ, shape long: 44_jumps.md R79. -/
  | jnz (r1 : Reg) (data : Byte)
  /-- JIC, shape data-only: 44_jumps.md R80. -/
  | jic (data : Byte)
  /-- JNC, shape data-only: 44_jumps.md R81. -/
  | jnc (data : Byte)
  /-- JII, shape data-only: 44_jumps.md R82. -/
  | jii (data : Byte)
  /-- JNI, shape data-only: 44_jumps.md R83. -/
  | jni (data : Byte)
  /-- CALL, shape data-only: 46_call_return.md R87. -/
  | call (data : Byte)
  /-- RET, shape none: 46_call_return.md R88. -/
  | ret
deriving DecidableEq, Repr

/-- The row of the opcode map an instruction belongs to. -/
def Instr.mnemonic : Instr → Mnemonic
  | .noop => .noop
  | .clc => .clc
  | .cli => .cli
  | .cln => .cln
  | .not _ => .not
  | .shl _ => .shl
  | .shr _ => .shr
  | .ldfl _ => .ldfl
  | .stfl _ => .stfl
  | .wr _ => .wr
  | .rd _ => .rd
  | .ldpr _ => .ldpr
  | .str _ _ => .str
  | .ldr _ _ => .ldr
  | .cp _ _ => .cp
  | .sub _ _ => .sub
  | .add _ _ => .add
  | .and _ _ => .and
  | .or _ _ => .or
  | .xor _ _ => .xor
  | .st _ _ => .st
  | .ld _ _ => .ld
  | .li _ _ => .li
  | .subi _ _ => .subi
  | .addi _ _ => .addi
  | .andi _ _ => .andi
  | .ori _ _ => .ori
  | .xori _ _ => .xori
  | .jmp _ => .jmp
  | .jiz _ _ => .jiz
  | .jnz _ _ => .jnz
  | .jic _ => .jic
  | .jnc _ => .jnc
  | .jii _ => .jii
  | .jni _ => .jni
  | .call _ => .call
  | .ret => .ret

end Sys2Proof
end

