-- ==== Sys2Proof/WellFormed.lean ====
section
/-!
DEFINITION. Which instructions a configuration has. Every field value is legal in every instruction
(spec/30_encoding.md R50), so the only check is that the opcode map has the instruction's row.
-/

namespace Sys2Proof

/-- An instruction is well formed in a configuration that has its row: not LDPR where `HAS_LDPR` is false
(R49, R86), not CALL or RET where there is no call stack (R6). -/
def Instr.wellFormed (c : Config) (i : Instr) : Bool := c.present i.mnemonic

end Sys2Proof
end

