-- ==== Sys2Proof/Decode.lean ====
section
/-!
DEFINITION. The instruction codec of spec/30_encoding.md: the field layout of the 16-bit word (R41 to R43),
the operand shapes (R44), the opcode map (R47), the decoder (R48, R49) and after it the encoder (R52).
Also `Config.spec`, the parameter values of spec/00_scope.md R6, so that a later repair can mend them.
-/

namespace Sys2Proof

/-! ### Operand shapes and the opcode map -/

/-- The five operand shapes (R44). -/
inductive Shape where
  | none | short | dual | long | dataOnly
deriving DecidableEq, Repr

/-- The one shape of each mnemonic (R44, R47). -/
def Mnemonic.shape : Mnemonic → Shape
  | .noop => .none
  | .clc => .none
  | .cli => .none
  | .cln => .none
  | .not => .short
  | .shl => .short
  | .shr => .short
  | .ldfl => .short
  | .stfl => .short
  | .wr => .short
  | .rd => .short
  | .ldpr => .short
  | .str => .dual
  | .ldr => .dual
  | .cp => .dual
  | .sub => .dual
  | .add => .dual
  | .and => .dual
  | .or => .dual
  | .xor => .dual
  | .st => .long
  | .ld => .long
  | .li => .long
  | .subi => .long
  | .addi => .long
  | .andi => .long
  | .ori => .long
  | .xori => .long
  | .jmp => .dataOnly
  | .jiz => .long
  | .jnz => .long
  | .jic => .dataOnly
  | .jnc => .dataOnly
  | .jii => .dataOnly
  | .jni => .dataOnly
  | .call => .dataOnly
  | .ret => .none

/-- The opcode map of R47, in the order of its rows. The numbers are the spec's own assignment
(spec/92_eei_decisions.md D3), written here in hexadecimal; LDPR's number is set aside and not decoded. -/
def specOpcodeMap : Vector Opcode 37 :=
  #v[
    0x00#6,  -- NOOP 0o00
    0x01#6,  -- CLC 0o01
    0x02#6,  -- CLI 0o02
    0x03#6,  -- CLN 0o03
    0x08#6,  -- NOT 0o10
    0x09#6,  -- SHL 0o11
    0x0A#6,  -- SHR 0o12
    0x0B#6,  -- LDFL 0o13
    0x0C#6,  -- STFL 0o14
    0x0D#6,  -- WR 0o15
    0x0E#6,  -- RD 0o16
    0x0F#6,  -- LDPR 0o17
    0x10#6,  -- STR 0o20
    0x11#6,  -- LDR 0o21
    0x12#6,  -- CP 0o22
    0x13#6,  -- SUB 0o23
    0x14#6,  -- ADD 0o24
    0x15#6,  -- AND 0o25
    0x16#6,  -- OR 0o26
    0x17#6,  -- XOR 0o27
    0x18#6,  -- ST 0o30
    0x19#6,  -- LD 0o31
    0x1A#6,  -- LI 0o32
    0x1B#6,  -- SUBI 0o33
    0x1C#6,  -- ADDI 0o34
    0x1D#6,  -- ANDI 0o35
    0x1E#6,  -- ORI 0o36
    0x1F#6,  -- XORI 0o37
    0x20#6,  -- JMP 0o40
    0x21#6,  -- JIZ 0o41
    0x22#6,  -- JNZ 0o42
    0x23#6,  -- JIC 0o43
    0x24#6,  -- JNC 0o44
    0x25#6,  -- JII 0o45
    0x26#6,  -- JNI 0o46
    0x27#6,  -- CALL 0o47
    0x28#6   -- RET 0o50
  ]

/-- The parameter values of spec/00_scope.md R6, the column "value"; the seven fixed ones are the record's
defaults. -/
def Config.spec : Config where
  hasCallStack := true
  stackDepth := 16
  hasLdpr := false
  opcodeMap := specOpcodeMap
  unmappedPolicy := .fault
  ldrOrientation := .addrReg1DestReg2
  flagUpdate := .assign
  rdEofValue := 0xFF#8

/-! ### Register numbers and the fields of the word -/

/-- The register a 2-bit field selects (R42, R43, R45). -/
def Reg.ofBits (b : BitVec 2) : Reg :=
  if b = 0#2 then .x0 else if b = 1#2 then .x1 else if b = 2#2 then .x2 else .x3

/-- The 2-bit number of a register. -/
def Reg.toBits : Reg → BitVec 2
  | .x0 => 0#2
  | .x1 => 1#2
  | .x2 => 2#2
  | .x3 => 3#2

/-- Bits 5:0, the opcode number (R42). -/
def opcodeField (w : InstrWord) : Opcode := w.extractLsb' 0 6

/-- Bits 7:6, `reg1` (R42). -/
def reg1Field (w : InstrWord) : Reg := Reg.ofBits (w.extractLsb' 6 2)

/-- Bits 15:8, the operand byte (R41, R43). -/
def operandField (w : InstrWord) : Byte := w.extractLsb' 8 8

/-- Bits 7:0, the head byte (R41). -/
def headByte (w : InstrWord) : Byte := w.extractLsb' 0 8

/-- `reg2`, bits 1:0 of the operand byte (R43). -/
def reg2Of (operand : Byte) : Reg := Reg.ofBits (operand.extractLsb' 0 2)

/-- The word with a given head byte and operand byte (R31, R41). -/
def wordOfBytes (head operand : Byte) : InstrWord := operand ++ head

/-! ### The decoder -/

/-- The decoder's operand result (R48). -/
inductive Operand where
  | none
  | reg2 (r : Reg)
  | data (d : Byte)
deriving DecidableEq, Repr

/-- The triple the decoder contract names (R48). `reg1` is carried also where the shape does not use it. -/
structure Decoded where
  mnemonic : Mnemonic
  reg1 : Reg
  operand : Operand
deriving DecidableEq, Repr

/-- Why a word does not decode (R49). -/
inductive DecodeError where
  /-- No row of the opcode map has this number; LDPR's number is one of these. -/
  | unmappedOpcode (opcode : Opcode)
deriving DecidableEq, Repr

/-- The row of the opcode map with a given number (R48). -/
def Config.mnemonicOf (c : Config) (o : Opcode) : Option Mnemonic :=
  c.rows.find? fun m => c.opcodeOf m == o

/-- How a shape reads the operand byte (R43, R44). -/
def Shape.operandOf (sh : Shape) (operand : Byte) : Operand :=
  match sh with
  | .none => .none
  | .short => .none
  | .dual => .reg2 (reg2Of operand)
  | .long => .data operand
  | .dataOnly => .data operand

/-- R48's decode function, as the triple it is written with. -/
def decodeTriple (c : Config) (w : InstrWord) : Except DecodeError Decoded :=
  match c.mnemonicOf (opcodeField w) with
  | none => .error (.unmappedOpcode (opcodeField w))
  | some m => .ok ⟨m, reg1Field w, m.shape.operandOf (operandField w)⟩

/-- The instruction of a row, with the fields its shape uses read from `reg1` and the operand byte and
every other bit ignored (R46). -/
def Mnemonic.instr (m : Mnemonic) (r1 : Reg) (operand : Byte) : Instr :=
  match m with
  | .noop => .noop
  | .clc => .clc
  | .cli => .cli
  | .cln => .cln
  | .not => .not r1
  | .shl => .shl r1
  | .shr => .shr r1
  | .ldfl => .ldfl r1
  | .stfl => .stfl r1
  | .wr => .wr r1
  | .rd => .rd r1
  | .ldpr => .ldpr r1
  | .str => .str r1 (reg2Of operand)
  | .ldr => .ldr r1 (reg2Of operand)
  | .cp => .cp r1 (reg2Of operand)
  | .sub => .sub r1 (reg2Of operand)
  | .add => .add r1 (reg2Of operand)
  | .and => .and r1 (reg2Of operand)
  | .or => .or r1 (reg2Of operand)
  | .xor => .xor r1 (reg2Of operand)
  | .st => .st r1 operand
  | .ld => .ld r1 operand
  | .li => .li r1 operand
  | .subi => .subi r1 operand
  | .addi => .addi r1 operand
  | .andi => .andi r1 operand
  | .ori => .ori r1 operand
  | .xori => .xori r1 operand
  | .jmp => .jmp operand
  | .jiz => .jiz r1 operand
  | .jnz => .jnz r1 operand
  | .jic => .jic operand
  | .jnc => .jnc operand
  | .jii => .jii operand
  | .jni => .jni operand
  | .call => .call operand
  | .ret => .ret

/-- The decoder for a configuration, total on all words (R48, R49): an instruction, or the error that names
the opcode number. -/
def decodeWith (c : Config) (w : InstrWord) : Except DecodeError Instr :=
  match c.mnemonicOf (opcodeField w) with
  | none => .error (.unmappedOpcode (opcodeField w))
  | some m => .ok (m.instr (reg1Field w) (operandField w))

/-- The decoder of the hardware the spec specifies. -/
def decode (w : InstrWord) : Except DecodeError Instr := decodeWith Config.spec w

/-- The instruction as an `Option`, without the error's name. -/
def decodeOption (w : InstrWord) : Option Instr :=
  match decode w with
  | .ok i => some i
  | .error _ => none

/-- The word whose low `nbits` bits (at most 16) are those of `w` and whose other bits are 0. -/
def tableWord (nbits w : Nat) : InstrWord := BitVec.ofNat 16 (w % 2 ^ min nbits 16)

/-- What the decoder gives for a row of spec/opcode_table.json (the host's fixed name). -/
def decodeTableWord (nbits w : Nat) : Option Instr := decodeOption (tableWord nbits w)

/-! ### The encoder -/

/-- The operand byte of R52 for an operand: the data byte, `0b000000 ++ reg2`, or 0. -/
def Operand.byte : Operand → Byte
  | .none => 0#8
  | .reg2 r => 0#6 ++ r.toBits
  | .data d => d

/-- The field layout of R41 to R43: operand byte, `reg1`, opcode, high bits first. -/
def assemble (o : Opcode) (r1 : Reg) (operand : Byte) : InstrWord := operand ++ (r1.toBits ++ o)

/-- R52's encode function on a triple, with the `reg1` it is given. -/
def encodeTriple (c : Config) (d : Decoded) : InstrWord :=
  assemble (c.opcodeOf d.mnemonic) d.reg1 d.operand.byte

/-- The `reg1` field of the canonical encoding: 0 where the shape does not use it (R46, R52). -/
def Instr.reg1 : Instr → Reg
  | .noop => .x0
  | .clc => .x0
  | .cli => .x0
  | .cln => .x0
  | .not r1 => r1
  | .shl r1 => r1
  | .shr r1 => r1
  | .ldfl r1 => r1
  | .stfl r1 => r1
  | .wr r1 => r1
  | .rd r1 => r1
  | .ldpr r1 => r1
  | .str r1 _ => r1
  | .ldr r1 _ => r1
  | .cp r1 _ => r1
  | .sub r1 _ => r1
  | .add r1 _ => r1
  | .and r1 _ => r1
  | .or r1 _ => r1
  | .xor r1 _ => r1
  | .st r1 _ => r1
  | .ld r1 _ => r1
  | .li r1 _ => r1
  | .subi r1 _ => r1
  | .addi r1 _ => r1
  | .andi r1 _ => r1
  | .ori r1 _ => r1
  | .xori r1 _ => r1
  | .jmp _ => .x0
  | .jiz r1 _ => r1
  | .jnz r1 _ => r1
  | .jic _ => .x0
  | .jnc _ => .x0
  | .jii _ => .x0
  | .jni _ => .x0
  | .call _ => .x0
  | .ret => .x0

/-- The operand of an instruction, by its shape (R44). -/
def Instr.operand : Instr → Operand
  | .noop => .none
  | .clc => .none
  | .cli => .none
  | .cln => .none
  | .not _ => .none
  | .shl _ => .none
  | .shr _ => .none
  | .ldfl _ => .none
  | .stfl _ => .none
  | .wr _ => .none
  | .rd _ => .none
  | .ldpr _ => .none
  | .str _ r2 => .reg2 r2
  | .ldr _ r2 => .reg2 r2
  | .cp _ r2 => .reg2 r2
  | .sub _ r2 => .reg2 r2
  | .add _ r2 => .reg2 r2
  | .and _ r2 => .reg2 r2
  | .or _ r2 => .reg2 r2
  | .xor _ r2 => .reg2 r2
  | .st _ d => .data d
  | .ld _ d => .data d
  | .li _ d => .data d
  | .subi _ d => .data d
  | .addi _ d => .data d
  | .andi _ d => .data d
  | .ori _ d => .data d
  | .xori _ d => .data d
  | .jmp d => .data d
  | .jiz _ d => .data d
  | .jnz _ d => .data d
  | .jic d => .data d
  | .jnc d => .data d
  | .jii d => .data d
  | .jni d => .data d
  | .call d => .data d
  | .ret => .none

/-- An instruction as the triple R48 and R52 write, with `reg1` 0 where the shape does not use it. -/
def Instr.triple (i : Instr) : Decoded := ⟨i.mnemonic, i.reg1, i.operand⟩

/-- The canonical encoding in a configuration, every ignored bit 0 (R46, R52). -/
def encodeWith (c : Config) (i : Instr) : InstrWord := encodeTriple c i.triple

/-- The word of a well-formed instruction. -/
def encode (i : Instr) : InstrWord := encodeWith Config.spec i

/-- The bits of the word that a shape uses (R43, R44, R46): the opcode always, `reg1` in shapes short, dual
and long, `reg2` in shape dual, the whole operand byte in shapes long and data-only. -/
def Shape.usedBits : Shape → InstrWord
  | .none => 0x003F#16
  | .short => 0x00FF#16
  | .dual => 0x03FF#16
  | .long => 0xFFFF#16
  | .dataOnly => 0xFF3F#16

end Sys2Proof
end

