-- ==== Sys2Proof/Machine/Flags.lean ====
section
/-!
DEFINITION. The flags byte and every flag computation of the spec (spec/10_state.md R14 to R20,
spec/42_arithmetic.md R62, spec/41_flag_clear.md).
-/

namespace Sys2Proof.Machine

/-- The named bits of `FLAGS` that some rule of the core reads or writes alone (R14). Bits 3, 4, 5 and 7 are
reserved storage and have no name here (R19). -/
inductive Flag where
  | carry | interrupt | negative | halt
deriving DecidableEq, Repr

/-- The bit position of a flag (R14). -/
def Flag.index : Flag → Nat
  | .carry => 0
  | .interrupt => 1
  | .negative => 2
  | .halt => 6

/-- The byte with only the flag's bit set. -/
def Flag.mask (k : Flag) : Byte := 1#8 <<< k.index

/-- The value of a flag in a flags byte (R8: `FLAGS.C`, `FLAGS.I`, `FLAGS.N`, `FLAGS.H`). -/
def flagBit (f : Byte) (k : Flag) : Bool := f.getLsbD k.index

/-- The flags byte with one flag set (R114: `FLAGS.I <- 1`). -/
def setFlag (f : Byte) (k : Flag) : Byte := f ||| k.mask

/-- The flags byte with one flag cleared (R59 to R61: `FLAGS and 0xFE`, `0xFD`, `0xFB`). -/
def clearFlag (f : Byte) (k : Flag) : Byte := f &&& ~~~k.mask

/-- What an arithmetic instruction does to its flag (R15, R17): it assigns it, or, under
`FLAG_UPDATE = set_only`, sets it when the condition holds and otherwise leaves it. -/
def updateFlag (u : FlagUpdate) (f : Byte) (k : Flag) (condition : Bool) : Byte :=
  if condition then setFlag f k
  else
    match u with
    | .assign => clearFlag f k
    | .setOnly => f

/-- The carry of an addition: the integer sum exceeds 255 (R62 (a)). -/
def carryOut (a b : Byte) : Bool := decide (a.toNat + b.toNat > 255)

/-- The sign of a subtraction: the integer difference is below zero (R62 (b)). -/
def differenceNegative (a b : Byte) : Bool := decide ((a.toNat : Int) - (b.toNat : Int) < 0)

end Sys2Proof.Machine
end

