-- ==== Sys2Proof/Machine/Alu.lean ====
section
/-!
DEFINITION. The ALU, an 8-bit function of two bytes without state and without a carry input
(spec/50_execution_cycle.md R107, spec/42_arithmetic.md R62, spec/43_logic_shift.md).
-/

namespace Sys2Proof.Machine

/-- The ALU functions (R105, R107). -/
inductive AluOp where
  | add | subAbs | and | or | xor | not | shl | shr | passB
deriving DecidableEq, Repr

/-- `trunc8(n)`, `n mod 256` (R7). -/
def trunc8 (n : Nat) : Byte := BitVec.ofNat 8 n

/-- The 8-bit result `y` of the ALU (R107). Addition keeps the low 8 bits of the exact sum; subtraction stores
the absolute value of the exact difference and never wraps (R62). -/
def alu (op : AluOp) (a b : Byte) : Byte :=
  match op with
  | .add => trunc8 (a.toNat + b.toNat)
  | .subAbs => trunc8 ((a.toNat : Int) - (b.toNat : Int)).natAbs
  | .and => a &&& b
  | .or => a ||| b
  | .xor => a ^^^ b
  | .not => a ^^^ 0xFF#8
  | .shl => trunc8 (2 * a.toNat)
  | .shr => trunc8 (a.toNat / 2)
  | .passB => b

end Sys2Proof.Machine
end

