-- ==== Sys2Proof/Machine/State.lean ====
section
/-!
DEFINITION. The state of the machine: the whole list at the head of spec/10_state.md, the two memories of
spec/20_memory.md, the level of the `reset` signal (spec/50_execution_cycle.md R108), and fields of the
model's own: the run's configuration (spec/00_scope.md R6) and the choices that R99 to R102 leave to the
environment. Also the reasons a step can stop.
-/

namespace Sys2Proof.Machine

/-- The four general registers (R10). -/
structure RegFile where
  x0 : Byte
  x1 : Byte
  x2 : Byte
  x3 : Byte
deriving DecidableEq, Repr

/-- A memory of 256 byte cells (R31, R32): address and byte pairs, addresses strictly rising, no entry equal
to the byte an unlisted address reads as (`Memory.wf` in Ops.lean). -/
abbrev Memory := List Host.Cell

/-- One turn of one of the five agents of R93. A turn of an agent that has no step passes without effect
(notes/assumptions/5.md). -/
inductive AgentTurn where
  /-- The core takes its step (R95). -/
  | core
  /-- The external interrupt is signalled (R114). -/
  | irq
  /-- The `input` agent appends a byte to `IN` (R100). -/
  | inputByte (b : Byte)
  /-- The `input` agent sets `IN_ENDED` (R100). -/
  | inputEnd
  /-- The `output` agent, the sink, accepts bytes from now on (R101). -/
  | sinkAccept
  /-- The sink refuses bytes from now on (R101). -/
  | sinkStall
  /-- The host applies reset, in any state, and holds it (R102, R126, R130 (1)). -/
  | hostReset
  /-- The host releases reset: that is the launch, and the new run's input comes with it (R102, R128,
  R130 (4)). -/
  | hostRelease (input : List Byte) (ended : Bool)
  /-- The host writes one program cell through its port (R102). -/
  | hostWriteProgram (a : Byte) (w : InstrWord)
  /-- The host writes one data cell through its port (R102). -/
  | hostWriteData (a : Byte) (v : Byte)
deriving DecidableEq, Repr

/-- The run status (R28), and beside it the time in which the host holds the core in reset, "or not have
started it" (R130 (1)), in which there is no run. -/
inductive Status where
  | inReset | running | halted | faulted
deriving DecidableEq, Repr

/-- The state of the machine. -/
structure State where
  /-- `x[0]` to `x[3]` (R10). -/
  x : RegFile
  /-- The program pointer (R12). -/
  pc : Byte
  /-- `FLAGS`, all 8 bits storage (R14, R19). -/
  flags : Byte
  /-- The live entries of the call stack, oldest first; `SP` is its length (R22, its list view). -/
  stack : List Byte
  /-- The latch `FAULT`: address and word of the undecodable instruction (R28, R112). -/
  fault : Option (Byte × InstrWord)
  /-- Bits 7:0 of every program-memory cell (R31, as two arrays of 256 bytes). -/
  pmemHead : Memory
  /-- Bits 15:8 of every program-memory cell (R31). -/
  pmemOpnd : Memory
  /-- Data memory (R32). -/
  dmem : Memory
  /-- `IN`, the input bytes not yet consumed, next one first (R27). -/
  inStream : List Byte
  /-- `IN_ENDED`: no further input byte will ever arrive (R27). -/
  inEnded : Bool
  /-- `OUT`, the bytes emitted so far, oldest first (R27). -/
  outStream : List Byte
  /-- The level of the `reset` signal: the host holds the core in reset (R108, R130). -/
  inReset : Bool
  /-- The model's own field: the configuration record of R6, "parameters of the step relation, fixed for a run"
  (R110). It stands here because `step` takes a state only; no turn changes it
  (notes/assumptions/21.md). -/
  config : Config
  /-- The model's own field: whether the output sink accepts a byte now (R90, R101). -/
  sinkReady : Bool
  /-- The model's own field: the turns that come before the environment's free choice, next one first, the
  host's among them (R99, R102; notes/assumptions/5.md). -/
  schedule : List AgentTurn
  /-- The model's own field: whether, after the schedule, the environment chooses every turn freely and without
  end (R99), or no agent but the core acts any more, the closed system of R100 and R101
  (notes/assumptions/5.md). -/
  freeTurns : Bool
  /-- The model's own field: the place of the next free choice, `Config.environment` at this number. -/
  turn : Nat
deriving DecidableEq, Repr

/-- Why the whole system makes no step: no run is under way and no turn of the host is scheduled that could
start one. Raised by `step` only, and by no instruction. All are safe: the spec gives no agent a step there
(R94, spec/92_eei_decisions.md D16), so nothing is left out. -/
inductive Fault where
  /-- The run has ended: `FLAGS.H` is 1 (R103). Raised at a halted core with nothing scheduled. Safe. -/
  | coreHalted
  /-- The latch `FAULT` is set (R112). Raised at a faulted core with nothing scheduled. Safe. -/
  | coreFaulted
  /-- The host holds the core in reset (R130). Raised there with nothing scheduled. Safe. -/
  | coreInReset
deriving DecidableEq, Repr

/-- What the model gives no meaning to. -/
inductive Refusal where
  /-- Raised by the dispatcher for an instruction without a meaning; no arm uses it now. Safe. -/
  | notModelled (mnemonic : String)
  /-- Raised by a turn in which the host writes a memory while the core runs: "this spec gives such a run no
  meaning" (R102), "should refuse" (R111). Safe. -/
  | hostWriteDuringRun
  /-- Raised by the launch functions, the host's load turns among them, and by the readers of image files, for an
  image larger than what it is for: "never truncate"
  (spec/93_implementation_defined.md U11). Safe. -/
  | imageTooLarge
  /-- Raised by the readers of image files for a program image whose last cell lacks its operand byte, and for a
  combined image of fewer than 768 bytes (R131; notes/assumptions/22.md). Safe. -/
  | imageIncomplete
  /-- Raised by `launch` and by the release of reset for a configuration the spec gives no meaning (R111).
  Safe. -/
  | badConfiguration
  /-- Raised by `launch` and by the release of reset where there is no call stack and program memory contains
  CALL or RET: "should refuse the launch" (R111). Safe. -/
  | noCallStack
deriving DecidableEq, Repr

/-- The three outcomes of a step or of an instruction. -/
abbrev Outcome := Host.Outcome State Fault Refusal

/-- The machine right after reset, nothing placed in it: every value of the table of R29, and reset released. The
memories are the all-zero images of spec/92_eei_decisions.md D21 (notes/assumptions/1.md, 2.md) and the
configuration is the spec's own. What R29 leaves to the environment is the model's choice: the closed empty
input (DESIGN CHOICE, notes/assumptions/3.md) and a sink that is ready (DESIGN CHOICE,
notes/assumptions/4.md). The placement of the `irq` steps of R114, before the first instruction too, is left
open as the spec leaves it (O1, D12): nothing is scheduled and every turn is `Config.environment`'s free
choice, counted from 0 (DESIGN CHOICE of the form, notes/assumptions/5.md). -/
def State.reset : State where
  x := ⟨0#8, 0#8, 0#8, 0#8⟩
  pc := 0#8
  flags := 0#8
  stack := []
  fault := none
  pmemHead := []
  pmemOpnd := []
  dmem := []
  inStream := []
  inEnded := true
  outStream := []
  inReset := false
  config := Config.spec
  sinkReady := true
  schedule := []
  freeTurns := true
  turn := 0

end Sys2Proof.Machine
end

