-- ==== Sys2Proof/Machine/Ops.lean ====
section
/-!
DEFINITION. The named operations over registers, memories, the call stack, the streams and the program
pointer, and the one exception: taking a DecodeError (spec/60_exceptions.md R112) with, beside it, the only
way out of it, the restart by the host's reset (R126, R130). There is no return from an exception (R119).
-/

namespace Sys2Proof.Machine

/-! ### General registers (R8, R10) -/

/-- `x[i]`. -/
def RegFile.get (f : RegFile) (r : Reg) : Byte :=
  match r with
  | .x0 => f.x0
  | .x1 => f.x1
  | .x2 => f.x2
  | .x3 => f.x3

/-- `x[i] <- v`. No register is hardwired and none aliases another (R10). -/
def RegFile.set (f : RegFile) (r : Reg) (v : Byte) : RegFile :=
  match r with
  | .x0 => { f with x0 := v }
  | .x1 => { f with x1 := v }
  | .x2 => { f with x2 := v }
  | .x3 => { f with x3 := v }

def State.setReg (s : State) (r : Reg) (v : Byte) : State := { s with x := s.x.set r v }

/-! ### Memories (R30 to R35) -/

/-- What a cell that nothing has written reads as: 0x00, in data memory "if no data file is supplied" (R29,
R132) and in both bytes of a program cell by spec/92_eei_decisions.md D21. -/
def blankByte : Byte := 0#8

/-- The byte at an address. Every address is valid (R32, R37). -/
def Memory.readAt : Memory → Nat → Byte
  | [], _ => blankByte
  | (k, v) :: rest, a => if k = a then v else Memory.readAt rest a

/-- The memory without an entry for an address. -/
def Memory.erase (m : Memory) (a : Nat) : Memory := m.filter fun c => c.1 != a

/-- A new entry put in its place by address. -/
def Memory.insert : Memory → Nat → Byte → Memory
  | [], a, v => [(a, v)]
  | (k, u) :: rest, a, v => if a < k then (a, v) :: (k, u) :: rest else (k, u) :: Memory.insert rest a v

/-- The memory after one byte is written: the old entry goes, a new one comes unless the byte is the blank
one, so that the canonical form is kept. -/
def Memory.writeAt (m : Memory) (a : Nat) (v : Byte) : Memory :=
  if v = blankByte then Memory.erase m a else Memory.insert (Memory.erase m a) a v

/-- The canonical form: addresses strictly rising and below 256, no blank byte listed. -/
abbrev Memory.wf (m : Memory) : Prop :=
  List.Pairwise (fun c d : Host.Cell => c.1 < d.1) m ∧ ∀ c ∈ m, c.1 < DMEM_CELLS ∧ c.2 ≠ blankByte

/-- `DMEM[a]`, `MemRead(a, 1)` (R8, R32). -/
def State.readData (s : State) (a : Byte) : Byte := Memory.readAt s.dmem a.toNat

/-- `DMEM[a] <- v`, `MemWrite(a, 1, v)` (R8, R32). -/
def State.writeData (s : State) (a v : Byte) : State :=
  { s with dmem := Memory.writeAt s.dmem a.toNat v }

/-- `PMEM[a]`, the whole 16-bit cell (R31). -/
def State.programWord (s : State) (a : Byte) : InstrWord :=
  wordOfBytes (Memory.readAt s.pmemHead a.toNat) (Memory.readAt s.pmemOpnd a.toNat)

/-- The host port of program memory: one cell written (R102). No instruction does this (R40). -/
def State.placeWord (s : State) (a : Byte) (w : InstrWord) : State :=
  { s with
    pmemHead := Memory.writeAt s.pmemHead a.toNat (headByte w)
    pmemOpnd := Memory.writeAt s.pmemOpnd a.toNat (operandField w) }

/-- The fetch: the one cell at the program pointer (R96). -/
def State.fetch (s : State) : InstrWord := s.programWord s.pc

/-! ### Program pointer (R13, R104) -/

/-- `pc <- t`. -/
def State.setPc (s : State) (t : Byte) : State := { s with pc := t }

/-- `pc <- trunc8(pc + 1)`. -/
def State.advance (s : State) : State := s.setPc (trunc8 (s.pc.toNat + 1))

/-- The pointer update of a jump (R76): the target where the condition holds, else the increment. -/
def State.jumpIf (s : State) (condition : Bool) (target : Byte) : State :=
  if condition then s.setPc target else s.advance

/-! ### Flags byte -/

/-- `FLAGS <- f`. -/
def State.setFlags (s : State) (f : Byte) : State := { s with flags := f }

/-- A named bit of `FLAGS`. -/
def State.flag (s : State) (k : Flag) : Bool := flagBit s.flags k

/-! ### Call stack (R22 to R26) -/

/-- The entries after a push (R24): appended while there is room, else all shifted down by one, so that the
oldest is lost, and the new one placed at the top. -/
def pushEntry (depth : Nat) (stack : List Byte) (a : Byte) : List Byte :=
  if stack.length < depth then stack ++ [a] else stack.drop 1 ++ [a]

/-- `push(a)` (R24). -/
def State.push (c : Config) (s : State) (a : Byte) : State :=
  { s with stack := pushEntry c.stackDepth s.stack a }

/-- The address `pop()` returns: the newest live entry, or none (R25). -/
def State.stackTop (s : State) : Option Byte := s.stack.getLast?

/-- The state after `pop()`: without its newest live entry, unchanged when there is none (R25). -/
def State.popped (s : State) : State := { s with stack := s.stack.dropLast }

/-! ### Streams (R27, R90, R91) -/

/-- `OUT <- OUT ++ [b]`. -/
def State.emit (s : State) (b : Byte) : State := { s with outStream := s.outStream ++ [b] }

/-- The stream condition of RD: a byte is available or the input has ended (R91). -/
def State.inputReady (s : State) : Bool := !s.inStream.isEmpty || s.inEnded

/-- The byte RD delivers when its condition holds: the next input byte, or the end-of-input value (R91). -/
def State.inputByte (c : Config) (s : State) : Byte :=
  match s.inStream with
  | b :: _ => b
  | [] => c.rdEofValue

/-- `IN` without its first byte; an empty `IN` stays empty (R91). -/
def State.consumeInput (s : State) : State := { s with inStream := s.inStream.tail }

/-! ### Run status, the exception, the restart -/

/-- The run status, read off the state (R28): none while the host holds the core in reset (R130). Where both
conditions of R28 hold, which no run reaches, it is `Halted` (notes/assumptions/16.md). -/
def State.status (s : State) : Status :=
  if s.inReset then .inReset else if s.flag .halt then .halted
  else if s.fault.isSome then .faulted else .running

/-- `raise DecodeError(pc, w)` (R112): the latch takes the address of the word and the word; nothing else
changes, the core does not vector anywhere, and its status becomes `Faulted`. -/
def State.raiseDecodeError (s : State) (w : InstrWord) : State := { s with fault := some (s.pc, w) }

/-- What a word with an unmapped opcode does (R49, R112): the DecodeError, or, under
`UNMAPPED_POLICY = noop`, the pointer's increment and nothing else. -/
def State.takeUnmapped (c : Config) (s : State) (w : InstrWord) : State :=
  match c.unmappedPolicy with
  | .fault => s.raiseDecodeError w
  | .noop => s.advance

/-- Reset applied (R29, R126, R128): the core's registers, latch and stack take their reset values, `OUT` is
emptied, both memories stay, and the core is held (R130 (1)). `IN` waits for the release
(notes/assumptions/17.md). -/
def State.applyReset (s : State) : State :=
  { s with
    x := ⟨0#8, 0#8, 0#8, 0#8⟩
    pc := 0#8
    flags := 0#8
    stack := []
    fault := none
    outStream := []
    inReset := true }

/-- Reset released (R130 (4)): the run begins, with its own input (R128, R132). -/
def State.release (s : State) (input : List Byte) (ended : Bool) : State :=
  { s with
    inStream := input
    inEnded := ended
    inReset := false }

/-- The external restart (R102, R126): reset applied and released, nothing loaded between. -/
def State.restart (s : State) (input : List Byte) (ended : Bool) : State :=
  s.applyReset.release input ended

end Sys2Proof.Machine
end

