-- ==== Sys2Proof/Machine/Operands.lean ====
section
/-!
DEFINITION. Every operand form of the instruction set (spec/30_encoding.md R45): a register, the immediate
byte as a value, as a data address, as a program address, and a register as a data address.
-/

namespace Sys2Proof.Machine

/-- A register operand: the register the 2-bit field names (R45). -/
def State.reg (s : State) (r : Reg) : Byte := s.x.get r

/-- The immediate as an operand value: never extended, shifted or scaled (R45). -/
def immediateValue (data : Byte) : Byte := data

/-- The immediate as a data-memory address: ST and LD (R32, R45). -/
def directAddress (data : Byte) : Byte := data

/-- A register's value as a data-memory address: STR and LDR (R32). -/
def State.indirectAddress (s : State) (r : Reg) : Byte := s.reg r

/-- The immediate as the new value of `pc`, absolute and not an offset (R45, R76). -/
def jumpTarget (data : Byte) : Byte := data

end Sys2Proof.Machine
end

