-- ==== Sys2Proof/Machine/Arithmetic.lean ====
section
/-!
DEFINITION. SUB, SUBI, ADD, ADDI (spec/42_arithmetic.md). Both operands are read before anything is written;
ADD and ADDI write `FLAGS.C` only, SUB and SUBI write `FLAGS.N` only, as `FLAG_UPDATE` says (R15, R17).
-/

namespace Sys2Proof.Machine

/-- `x[r1] <- trunc8(a + b)`, `FLAGS.C` from the carry, then the increment (R65, R66). -/
def State.addInto (c : Config) (s : State) (r1 : Reg) (b : Byte) : State :=
  ((s.setReg r1 (alu .add (s.reg r1) b)).setFlags
    (updateFlag c.flagUpdate s.flags .carry (carryOut (s.reg r1) b))).advance

/-- `x[r1] <- abs(a - b)`, `FLAGS.N` from the sign, then the increment (R63, R64). -/
def State.subInto (c : Config) (s : State) (r1 : Reg) (b : Byte) : State :=
  ((s.setReg r1 (alu .subAbs (s.reg r1) b)).setFlags
    (updateFlag c.flagUpdate s.flags .negative (differenceNegative (s.reg r1) b))).advance

/-- SUB (R63). -/
def execSub (r1 r2 : Reg) (s : State) : Outcome := .next (s.subInto s.config r1 (s.reg r2))

/-- SUBI (R64). -/
def execSubi (r1 : Reg) (data : Byte) (s : State) : Outcome :=
  .next (s.subInto s.config r1 (immediateValue data))

/-- ADD (R65). -/
def execAdd (r1 r2 : Reg) (s : State) : Outcome := .next (s.addInto s.config r1 (s.reg r2))

/-- ADDI (R66). -/
def execAddi (r1 : Reg) (data : Byte) (s : State) : Outcome :=
  .next (s.addInto s.config r1 (immediateValue data))

end Sys2Proof.Machine
end

