-- ==== Sys2Proof/Machine/CallReturn.lean ====
section
/-!
DEFINITION. CALL and RET (spec/46_call_return.md): CALL pushes its own address, and RET goes to the popped
address as it is, so that the CALL runs again (R89).
-/

namespace Sys2Proof.Machine

/-- The pointer update of a return: the popped address, or the increment when there was none (R88). -/
def State.returnTo (s : State) (popped : Option Byte) : State :=
  match popped with
  | some a => s.setPc a
  | none => s.advance

/-- CALL: `push(pc)`, then `pc <- imm`; a full stack evicts its oldest entry (R87, R24). -/
def execCall (data : Byte) (s : State) : Outcome :=
  .next ((s.push s.config s.pc).setPc (jumpTarget data))

/-- RET: pop, and jump if there was an entry; with an empty stack only the pointer advances (R88). -/
def execRet (s : State) : Outcome := .next (s.popped.returnTo s.stackTop)

end Sys2Proof.Machine
end

