-- ==== Sys2Proof/Machine/DataMovement.lean ====
section
/-!
DEFINITION. ST, STR, LD, LDR, LI, CP (spec/40_data_movement.md). No flag is read or written, and every one of
them ends with the pointer's increment.
-/

namespace Sys2Proof.Machine

/-- A store of one byte to data memory, then the increment (R53, R54). -/
def State.storeByte (s : State) (address value : Byte) : State := (s.writeData address value).advance

/-- A register write, then the increment (R55 to R58). -/
def State.loadReg (s : State) (r : Reg) (value : Byte) : State := (s.setReg r value).advance

/-- LDR under either value of `LDR_ORIENTATION` (R56): the address is read before the register is written. -/
def State.loadIndirect (c : Config) (s : State) (r1 r2 : Reg) : State :=
  match c.ldrOrientation with
  | .addrReg1DestReg2 => s.loadReg r2 (s.readData (s.indirectAddress r1))
  | .destReg1AddrReg2 => s.loadReg r1 (s.readData (s.indirectAddress r2))

/-- ST: `DMEM[imm] <- x[r1]` (R53). -/
def execSt (r1 : Reg) (data : Byte) (s : State) : Outcome :=
  .next (s.storeByte (directAddress data) (s.reg r1))

/-- STR: `DMEM[x[r1]] <- x[r2]` (R54). -/
def execStr (r1 r2 : Reg) (s : State) : Outcome :=
  .next (s.storeByte (s.indirectAddress r1) (s.reg r2))

/-- LD: `x[r1] <- DMEM[imm]` (R55). -/
def execLd (r1 : Reg) (data : Byte) (s : State) : Outcome :=
  .next (s.loadReg r1 (s.readData (directAddress data)))

/-- LDR: `x[r2] <- DMEM[x[r1]]` at the spec's orientation, the fields exchanged at the other (R56,
spec/92_eei_decisions.md D6). -/
def execLdr (r1 r2 : Reg) (s : State) : Outcome := .next (s.loadIndirect s.config r1 r2)

/-- LI: `x[r1] <- imm` (R57). -/
def execLi (r1 : Reg) (data : Byte) (s : State) : Outcome :=
  .next (s.loadReg r1 (immediateValue data))

/-- CP: `x[r1] <- x[r2]` (R58). -/
def execCp (r1 r2 : Reg) (s : State) : Outcome := .next (s.loadReg r1 (s.reg r2))

end Sys2Proof.Machine
end

