-- ==== Sys2Proof/Machine/FlagClear.lean ====
section
/-!
DEFINITION. CLC, CLI, CLN (spec/41_flag_clear.md): one flag cleared, no other bit of `FLAGS` touched.
-/

namespace Sys2Proof.Machine

/-- One flag cleared, then the increment. -/
def State.clearOne (s : State) (k : Flag) : State := (s.setFlags (clearFlag s.flags k)).advance

/-- CLC: `FLAGS.C <- 0` (R59). -/
def execClc (s : State) : Outcome := .next (s.clearOne .carry)

/-- CLI: `FLAGS.I <- 0`; it clears the pending record and masks nothing (R60, R116). -/
def execCli (s : State) : Outcome := .next (s.clearOne .interrupt)

/-- CLN: `FLAGS.N <- 0` (R61). -/
def execCln (s : State) : Outcome := .next (s.clearOne .negative)

end Sys2Proof.Machine
end

