-- ==== Sys2Proof/Machine/FlagsTransfer.lean ====
section
/-!
DEFINITION. LDFL, STFL and the reserved name LDPR (spec/45_flags_transfer.md).
-/

namespace Sys2Proof.Machine

/-- LDFL: `x[r1] <- FLAGS`, all 8 bits (R84). -/
def execLdfl (r1 : Reg) (s : State) : Outcome := .next (s.setReg r1 s.flags).advance

/-- STFL: `FLAGS <- x[r1]`, all 8 bits, and the pointer advances even when bit 6 halts the core (R85). -/
def execStfl (r1 : Reg) (s : State) : Outcome := .next (s.setFlags (s.reg r1)).advance

/-- LDPR: `raise DecodeError(pc, w)`, "as for any unmapped opcode" (R86). `w` is the word at the program
pointer; the register field plays no part. In a configuration with a meaning no word decodes to LDPR, so no
step calls this. -/
def execLdpr (_r1 : Reg) (s : State) : Outcome := .next (s.takeUnmapped s.config s.fetch)

end Sys2Proof.Machine
end

