-- ==== Sys2Proof/Machine/InputOutput.lean ====
section
/-!
DEFINITION. WR, RD and NOOP (spec/47_io_noop.md). A blocked WR or RD waits: "while blocked no state changes,
`pc` stays at the WR, and the instruction has not started" (R90), so its turn ends in the same state
(notes/assumptions/6.md).
-/

namespace Sys2Proof.Machine

/-- An instruction that happens only when its stream condition holds and otherwise waits (R90, R94). -/
def State.whenReady (s : State) (ready : Bool) (done : State) : Outcome :=
  if ready then .next done else .next s

/-- WR: `OUT <- OUT ++ [x[r1]]` once the sink accepts (R90). -/
def execWr (r1 : Reg) (s : State) : Outcome :=
  s.whenReady s.sinkReady (s.emit (s.reg r1)).advance

/-- RD: `x[r1]` takes the next input byte, or the end-of-input value once the input has ended (R91). -/
def execRd (r1 : Reg) (s : State) : Outcome :=
  s.whenReady s.inputReady (s.consumeInput.setReg r1 (s.inputByte s.config)).advance

/-- NOOP: the pointer advances, nothing else (R92). -/
def execNoop (s : State) : Outcome := .next s.advance

end Sys2Proof.Machine
end

