-- ==== Sys2Proof/Machine/Jumps.lean ====
section
/-!
DEFINITION. JMP, JIZ, JNZ, JIC, JNC, JII, JNI (spec/44_jumps.md): nothing but `pc` is written, and no flag is
changed by the jump that reads it (R76).
-/

namespace Sys2Proof.Machine

/-- JMP: `pc <- imm` (R77). -/
def execJmp (data : Byte) (s : State) : Outcome := .next (s.jumpIf true (jumpTarget data))

/-- JIZ: taken when all 8 bits of `x[r1]` are 0 (R78). -/
def execJiz (r1 : Reg) (data : Byte) (s : State) : Outcome :=
  .next (s.jumpIf (s.reg r1 == 0#8) (jumpTarget data))

/-- JNZ: the exact complement of JIZ (R79). -/
def execJnz (r1 : Reg) (data : Byte) (s : State) : Outcome :=
  .next (s.jumpIf (s.reg r1 != 0#8) (jumpTarget data))

/-- JIC: taken when `FLAGS.C = 1` (R80). -/
def execJic (data : Byte) (s : State) : Outcome := .next (s.jumpIf (s.flag .carry) (jumpTarget data))

/-- JNC: taken when `FLAGS.C = 0` (R81). -/
def execJnc (data : Byte) (s : State) : Outcome := .next (s.jumpIf (!s.flag .carry) (jumpTarget data))

/-- JII: taken when `FLAGS.I = 1`; the flag stays set (R82). -/
def execJii (data : Byte) (s : State) : Outcome :=
  .next (s.jumpIf (s.flag .interrupt) (jumpTarget data))

/-- JNI: taken when `FLAGS.I = 0` (R83). -/
def execJni (data : Byte) (s : State) : Outcome :=
  .next (s.jumpIf (!s.flag .interrupt) (jumpTarget data))

end Sys2Proof.Machine
end

