-- ==== Sys2Proof/Machine/LogicShift.lean ====
section
/-!
DEFINITION. AND, OR, XOR, ANDI, ORI, XORI, NOT, SHL, SHR (spec/43_logic_shift.md): the result goes to
`x[r1]` and no flag is read or written.
-/

namespace Sys2Proof.Machine

/-- `x[r1] <- alu(x[r1], b)` without flags, then the increment (R67 to R75). -/
def State.aluInto (s : State) (op : AluOp) (r1 : Reg) (b : Byte) : State :=
  (s.setReg r1 (alu op (s.reg r1) b)).advance

/-- AND (R67). -/
def execAnd (r1 r2 : Reg) (s : State) : Outcome := .next (s.aluInto .and r1 (s.reg r2))

/-- OR (R68). -/
def execOr (r1 r2 : Reg) (s : State) : Outcome := .next (s.aluInto .or r1 (s.reg r2))

/-- XOR (R69). -/
def execXor (r1 r2 : Reg) (s : State) : Outcome := .next (s.aluInto .xor r1 (s.reg r2))

/-- ANDI (R70). -/
def execAndi (r1 : Reg) (data : Byte) (s : State) : Outcome :=
  .next (s.aluInto .and r1 (immediateValue data))

/-- ORI (R71). -/
def execOri (r1 : Reg) (data : Byte) (s : State) : Outcome :=
  .next (s.aluInto .or r1 (immediateValue data))

/-- XORI (R72). -/
def execXori (r1 : Reg) (data : Byte) (s : State) : Outcome :=
  .next (s.aluInto .xor r1 (immediateValue data))

/-- NOT, a unary ALU function: its second operand is not used (R73, R107). -/
def execNot (r1 : Reg) (s : State) : Outcome := .next (s.aluInto .not r1 0#8)

/-- SHL, a unary ALU function: the bit shifted out is lost and does not go to `FLAGS.C` (R74). -/
def execShl (r1 : Reg) (s : State) : Outcome := .next (s.aluInto .shl r1 0#8)

/-- SHR, a unary ALU function: logical, the bit shifted out is lost (R75). -/
def execShr (r1 : Reg) (s : State) : Outcome := .next (s.aluInto .shr r1 0#8)

end Sys2Proof.Machine
end

