-- ==== Sys2Proof/Machine/Dispatch.lean ====
section
/-!
DEFINITION. The dispatcher: one arm per instruction, each the direct call of its meaning
(spec/50_execution_cycle.md R98, "one arm per mnemonic, no default arm").
-/

namespace Sys2Proof.Machine

def exec (i : Instr) (s : State) : Host.Outcome State Fault Refusal :=
  match i with
  | .noop => Sys2Proof.Machine.execNoop s
  | .clc => Sys2Proof.Machine.execClc s
  | .cli => Sys2Proof.Machine.execCli s
  | .cln => Sys2Proof.Machine.execCln s
  | .not r1 => Sys2Proof.Machine.execNot r1 s
  | .shl r1 => Sys2Proof.Machine.execShl r1 s
  | .shr r1 => Sys2Proof.Machine.execShr r1 s
  | .ldfl r1 => Sys2Proof.Machine.execLdfl r1 s
  | .stfl r1 => Sys2Proof.Machine.execStfl r1 s
  | .wr r1 => Sys2Proof.Machine.execWr r1 s
  | .rd r1 => Sys2Proof.Machine.execRd r1 s
  | .ldpr r1 => Sys2Proof.Machine.execLdpr r1 s
  | .str r1 r2 => Sys2Proof.Machine.execStr r1 r2 s
  | .ldr r1 r2 => Sys2Proof.Machine.execLdr r1 r2 s
  | .cp r1 r2 => Sys2Proof.Machine.execCp r1 r2 s
  | .sub r1 r2 => Sys2Proof.Machine.execSub r1 r2 s
  | .add r1 r2 => Sys2Proof.Machine.execAdd r1 r2 s
  | .and r1 r2 => Sys2Proof.Machine.execAnd r1 r2 s
  | .or r1 r2 => Sys2Proof.Machine.execOr r1 r2 s
  | .xor r1 r2 => Sys2Proof.Machine.execXor r1 r2 s
  | .st r1 data => Sys2Proof.Machine.execSt r1 data s
  | .ld r1 data => Sys2Proof.Machine.execLd r1 data s
  | .li r1 data => Sys2Proof.Machine.execLi r1 data s
  | .subi r1 data => Sys2Proof.Machine.execSubi r1 data s
  | .addi r1 data => Sys2Proof.Machine.execAddi r1 data s
  | .andi r1 data => Sys2Proof.Machine.execAndi r1 data s
  | .ori r1 data => Sys2Proof.Machine.execOri r1 data s
  | .xori r1 data => Sys2Proof.Machine.execXori r1 data s
  | .jmp data => Sys2Proof.Machine.execJmp data s
  | .jiz r1 data => Sys2Proof.Machine.execJiz r1 data s
  | .jnz r1 data => Sys2Proof.Machine.execJnz r1 data s
  | .jic data => Sys2Proof.Machine.execJic data s
  | .jnc data => Sys2Proof.Machine.execJnc data s
  | .jii data => Sys2Proof.Machine.execJii data s
  | .jni data => Sys2Proof.Machine.execJni data s
  | .call data => Sys2Proof.Machine.execCall data s
  | .ret => Sys2Proof.Machine.execRet s

end Sys2Proof.Machine
end

