-- ==== Sys2Proof/Machine/Agents.lean ====
section
/-!
DEFINITION. The five agents of spec/50_execution_cycle.md R93 and their steps: the core's fetch, decode,
execute (R95), the interrupt signal (R114), the input and output agents (R100, R101) and the host's reset,
release and memory writes (R102, R126, R130).
-/

namespace Sys2Proof.Machine

/-! ### The core (R94, R95) -/

/-- A `Running` core's step at the run's configuration: fetch, decode, execute with the pointer update; an
undecodable word raises the DecodeError and executes nothing (R95). The halt check is the status of the
state it gives (R103). -/
def State.cycle (s : State) : Outcome :=
  match decodeWith s.config s.fetch with
  | .ok i => exec i s
  | .error _ => .next (s.takeUnmapped s.config s.fetch)

/-! ### The agents of the environment -/

/-- `irq_step` (R114): `FLAGS.I <- 1` and nothing else. -/
def State.irqStep (s : State) : State := s.setFlags (setFlag s.flags .interrupt)

/-- The input agent appends one byte, unless the input has ended (R100). -/
def State.inputAppend (s : State) (b : Byte) : State :=
  if s.inEnded then s else { s with inStream := s.inStream ++ [b] }

/-- The input agent ends the input; after that it does nothing more (R100). -/
def State.inputFinish (s : State) : State := { s with inEnded := true }

/-- The sink starts or stops accepting bytes (R101). -/
def State.setSink (s : State) (ready : Bool) : State := { s with sinkReady := ready }

/-- A step of `irq`, `input` or `output`, which have none outside a run
(spec/92_eei_decisions.md D16; notes/assumptions/14.md). -/
def State.whileRunning (s t : State) : Outcome :=
  if s.status = .running then .next t else .next s

/-! ### The host -/

/-- A host write through the second port of a memory, outside a run only, so also while the core is held in
reset: during a run the spec gives it no meaning (R102, spec/92_eei_decisions.md D13). -/
def State.outsideRun (s t : State) : Outcome :=
  if s.status = .running then .refused .hostWriteDuringRun else .next t

/-- Whether a word has CALL's or RET's number in the opcode map. -/
def usesCallStack (c : Config) (w : InstrWord) : Bool :=
  opcodeField w == c.opcodeOf .call || opcodeField w == c.opcodeOf .ret

/-- Whether any cell of program memory contains CALL or RET. -/
def State.programUsesCallStack (s : State) : Bool :=
  (List.range PMEM_CELLS).any fun a => usesCallStack s.config (s.programWord (BitVec.ofNat 8 a))

/-- Why a launch is refused (R111): a configuration without a meaning, or no call stack and a program that
contains CALL or RET. -/
def State.launchRefusal (s : State) : Option Refusal :=
  if s.config.valid = false then some .badConfiguration
  else if s.config.hasCallStack = false ∧ s.programUsesCallStack = true then some .noCallStack
  else none

/-- The host releases reset, or the launch is refused; a core that is not held has nothing to be released
from. -/
def State.hostRelease (s : State) (input : List Byte) (ended : Bool) : Outcome :=
  if s.inReset then
    match s.launchRefusal with
    | some r => .refused r
    | none => .next (s.release input ended)
  else .next s

/-- One turn of one agent (R93, R99). A turn of the core that has no step passes. -/
def takeTurn (t : AgentTurn) (s : State) : Outcome :=
  match t with
  | .core => if s.status = .running then s.cycle else .next s
  | .irq => s.whileRunning s.irqStep
  | .inputByte b => s.whileRunning (s.inputAppend b)
  | .inputEnd => s.whileRunning s.inputFinish
  | .sinkAccept => s.whileRunning (s.setSink true)
  | .sinkStall => s.whileRunning (s.setSink false)
  | .hostReset => .next s.applyReset
  | .hostRelease input ended => s.hostRelease input ended
  | .hostWriteProgram a w => s.outsideRun (s.placeWord a w)
  | .hostWriteData a v => s.outsideRun (s.writeData a v)

end Sys2Proof.Machine
end

