-- ==== Sys2Proof/Machine/Launch.lean ====
section
/-!
DEFINITION. The host's launch (spec/70_reset_and_hazards.md R130 to R132): the images of the two memories, from
cells or from files, the launch state they give, and the same load as turns of the host.
-/

namespace Sys2Proof.Machine

/-! ### Loading cells -/

/-- The words of an image stored from an address on, one cell each. -/
def State.loadProgram (s : State) : Nat → List InstrWord → State
  | _, [] => s
  | a, w :: rest => (s.placeWord (BitVec.ofNat 8 a) w).loadProgram (a + 1) rest

/-- The bytes of a data image stored from an address on. -/
def State.loadData (s : State) : Nat → List Byte → State
  | _, [] => s
  | a, v :: rest => (s.writeData (BitVec.ofNat 8 a) v).loadData (a + 1) rest

/-! ### Image files (R131, spec/92_eei_decisions.md D15) -/

/-- The words a list of bytes spells, head byte first, or none if the last cell lacks its operand byte. -/
def wordsOfBytes : List Byte → Option (List InstrWord)
  | [] => some []
  | [_] => none
  | head :: operand :: rest => (wordsOfBytes rest).map (wordOfBytes head operand :: ·)

/-- A program image of at most 512 bytes as its words: cell `a` is bytes `2a` and `2a + 1`. An oversized image
fails, never truncated, and so does one that stops inside a cell (notes/assumptions/22.md). -/
def wordsOfImage (image : List Byte) : Except Refusal (List InstrWord) :=
  if 2 * PMEM_CELLS < image.length then .error .imageTooLarge
  else
    match wordsOfBytes image with
    | some ws => .ok ws
    | none => .error .imageIncomplete

/-- A combined image of 768 bytes as program words and data bytes: 512 program bytes, then the 256 data bytes in
address order. An image of another length fails (notes/assumptions/22.md). -/
def splitImage (image : List Byte) : Except Refusal (List InstrWord × List Byte) :=
  if 2 * PMEM_CELLS + DMEM_CELLS < image.length then .error .imageTooLarge
  else if image.length < 2 * PMEM_CELLS + DMEM_CELLS then .error .imageIncomplete
  else (wordsOfImage (image.take (2 * PMEM_CELLS))).map fun ws => (ws, image.drop (2 * PMEM_CELLS))

/-! ### The launch (R130, R132) -/

/-- Both images fit their memory. One that does not fails the load, whichever way it comes: "never truncate"
(spec/93_implementation_defined.md U11, R130). -/
abbrev ImagesFit (program : List InstrWord) (data : List Byte) : Prop :=
  program.length ≤ PMEM_CELLS ∧ data.length ≤ DMEM_CELLS

/-- The launch state (R132): the reset state with the configuration, both memory images, the input and the sink
as the environment has them, in the order of R130. Cells an image does not cover are 0 (DESIGN CHOICE,
spec/92_eei_decisions.md D21, notes/assumptions/18.md). An image that does not fit (U11), a configuration
without a meaning, and a program with CALL or RET where there is no call stack (R111) are refused. The
environment's other choices stay open as in `State.reset`: nothing is scheduled, and every turn from the
one before the first instruction on is free, the `irq` steps of R114 among them (O1, D12; DESIGN CHOICE
of the form, notes/assumptions/5.md). -/
def launch (c : Config) (program : List InstrWord) (data : List Byte)
    (input : List Byte) (ended : Bool) (sink : Bool) : Except Refusal State :=
  if c.valid = false then .error .badConfiguration
  else if ¬ ImagesFit program data then .error .imageTooLarge
  else
    let held := { State.reset with config := c, sinkReady := sink }.applyReset
    let loaded := (held.loadProgram 0 program).loadData 0 data
    match loaded.launchRefusal with
    | some r => .error r
    | none => .ok (loaded.release input ended)

/-- The launch from two separate files, the data file optional: data memory all 0 without one (R130, R131). -/
def launchFiles (c : Config) (programFile : List Byte) (dataFile : Option (List Byte))
    (input : List Byte) (ended : Bool) (sink : Bool) : Except Refusal State :=
  match wordsOfImage programFile with
  | .error r => .error r
  | .ok ws => launch c ws (dataFile.getD []) input ended sink

/-- The launch from one combined file (R131). -/
def launchCombined (c : Config) (image : List Byte)
    (input : List Byte) (ended : Bool) (sink : Bool) : Except Refusal State :=
  match splitImage image with
  | .error r => .error r
  | .ok (ws, data) => launch c ws data input ended sink

/-- The turns by which the host writes all 256 program cells, 0x0000 where the image has no word; for an image
that fits, as `loadTurns` has it. -/
def programTurns (program : List InstrWord) : List AgentTurn :=
  (List.range PMEM_CELLS).map fun a => .hostWriteProgram (BitVec.ofNat 8 a) (program.getD a 0#16)

/-- The turns by which the host writes all 256 data cells, 0 where the image has no byte; for an image that
fits, as `loadTurns` has it. -/
def dataTurns (data : List Byte) : List AgentTurn :=
  (List.range DMEM_CELLS).map fun a => .hostWriteData (BitVec.ofNat 8 a) (data.getD a 0#8)

/-- What the host does, in the order of R130: hold the core in reset, write all 256 program cells, write all 256
data cells, release reset. The load of an image that does not fit fails before any of it (U11): there are
no turns, so no release, and no core runs on a partly loaded image (notes/assumptions/18.md). -/
def loadTurns (program : List InstrWord) (data : List Byte) (input : List Byte) (ended : Bool) :
    Except Refusal (List AgentTurn) :=
  if ImagesFit program data then
    .ok (.hostReset :: (programTurns program ++ dataTurns data ++ [.hostRelease input ended]))
  else .error .imageTooLarge

end Sys2Proof.Machine
end

