-- ==== Sys2Proof/Machine/Step.lean ====
section
/-!
DEFINITION. One step of the whole system: the agent whose turn it is takes its step
(spec/50_execution_cycle.md R99). The scheduled turns come first; after them the environment chooses, turn by
turn and without end, or, in a closed system, every turn is the core's.
-/

namespace Sys2Proof.Machine

/-- A free choice as a turn of its agent. -/
def turnOfFree (f : FreeTurn) : AgentTurn :=
  match f with
  | .core => .core
  | .irq => .irq
  | .inputByte b => .inputByte b
  | .inputEnd => .inputEnd
  | .sinkAccept => .sinkAccept
  | .sinkStall => .sinkStall

/-- Whose turn it is (R99): the first of the schedule, or the environment's free choice, or, in a closed system,
the core. -/
def State.nextTurn (s : State) : AgentTurn :=
  match s.schedule with
  | t :: _ => t
  | [] => if s.freeTurns then turnOfFree (Config.environment s.turn) else .core

/-- The state without the turn that is being taken: it leaves the schedule, or the next free choice comes up. -/
def State.turnTaken (s : State) : State :=
  match s.schedule with
  | _ :: rest => { s with schedule := rest }
  | [] => if s.freeTurns then { s with turn := s.turn + 1 } else s

/-- Why the system makes no step: no run is under way and the host has nothing scheduled (R94, R103, R130). -/
def State.stopReason (s : State) : Option Fault :=
  match s.schedule with
  | _ :: _ => none
  | [] =>
    match s.status with
    | .running => none
    | .halted => some .coreHalted
    | .faulted => some .coreFaulted
    | .inReset => some .coreInReset

/-- The step: the next turn is taken by its agent. -/
def step (s : State) : Host.Outcome State Fault Refusal :=
  match s.stopReason with
  | some r => .fault r
  | none => takeTurn s.nextTurn s.turnTaken

/-- The state with an instruction stored in the cell at the program pointer and the next turn the core's: nothing
scheduled and a closed system (the host's fixed name; notes/assumptions/9.md). -/
def State.withFetchWord (s : State) (nbits w : Nat) : State :=
  { s.placeWord s.pc (tableWord nbits w) with schedule := [], freeTurns := false }

end Sys2Proof.Machine
end

