-- ==== Sys2Proof/Machine/Control.lean ====
section
/-!
DEFINITION. The decoder's control bundle and the datapath it drives (spec/50_execution_cycle.md R105 to
R107): a second description of every instruction, one row of signals per mnemonic instead of one rule.
"If the two ever disagree the instruction rules win": `exec` does not use it; that the two agree is a
statement. It takes the configuration as an argument, so it also says what the alternative
parameter values of R6 do.
-/

namespace Sys2Proof.Machine

/-- The second ALU operand (R105). -/
inductive OpB where
  | off | reg2 | imm
deriving DecidableEq, Repr

/-- Which field names the register written (R105). -/
inductive WReg where
  | off | r1 | r2
deriving DecidableEq, Repr

/-- What is written to it (R105). -/
inductive WSrc where
  | off | alu | mem | flags | input
deriving DecidableEq, Repr

/-- The data-memory access (R105). -/
inductive MemOp where
  | off | rd | wr
deriving DecidableEq, Repr

/-- Its address; `reg2` is used by LDR's alternative orientation only (R105, R106). -/
inductive MAddr where
  | off | imm | reg1 | reg2
deriving DecidableEq, Repr

/-- The byte stored (R105). -/
inductive MData where
  | off | reg1 | reg2
deriving DecidableEq, Repr

/-- The flags write (R105). -/
inductive FlagOp where
  | off | clrC | clrI | clrN | asgC | asgN | load
deriving DecidableEq, Repr

/-- When `pc` is overwritten (R105). -/
inductive Cond where
  | never | always | z | nz | c | nc | i | ni | popped
deriving DecidableEq, Repr

/-- The new `pc` when the condition holds (R105). -/
inductive Tgt where
  | off | imm | stack
deriving DecidableEq, Repr

/-- The call-stack operation (R105). -/
inductive StkOp where
  | off | push | pop
deriving DecidableEq, Repr

/-- The stream operation (R105). -/
inductive IoOp where
  | off | wr | rd
deriving DecidableEq, Repr

/-- The control bundle (R105); a field at its default is inactive, the dash of R106. -/
structure Control where
  rdA : Bool := false
  rdB : Bool := false
  opB : OpB := .off
  alu : Option AluOp := none
  wreg : WReg := .off
  wsrc : WSrc := .off
  mem : MemOp := .off
  maddr : MAddr := .off
  mdata : MData := .off
  flag : FlagOp := .off
  cond : Cond := .never
  tgt : Tgt := .off
  stk : StkOp := .off
  io : IoOp := .off
deriving DecidableEq, Repr

/-- The row shape of the unary ALU instructions. -/
def Control.unary (op : AluOp) : Control := { rdA := true, alu := some op, wreg := .r1, wsrc := .alu }

/-- The row shape of the ALU instructions whose second operand is `x[reg2]`. -/
def Control.binary (op : AluOp) (flag : FlagOp) : Control :=
  { rdA := true, rdB := true, opB := .reg2, alu := some op, wreg := .r1, wsrc := .alu, flag := flag }

/-- The row shape of the ALU instructions whose second operand is `data`. -/
def Control.immediate (op : AluOp) (flag : FlagOp) : Control :=
  { rdA := true, opB := .imm, alu := some op, wreg := .r1, wsrc := .alu, flag := flag }

/-- The row shape of the jumps to `data`. -/
def Control.jump (rdA : Bool) (cond : Cond) : Control := { rdA := rdA, cond := cond, tgt := .imm }

/-- The row of LDR under either orientation (R106, the sentence after the table). -/
def Control.ldr : LdrOrientation → Control
  | .addrReg1DestReg2 => { rdA := true, wreg := .r2, wsrc := .mem, mem := .rd, maddr := .reg1 }
  | .destReg1AddrReg2 => { rdB := true, wreg := .r1, wsrc := .mem, mem := .rd, maddr := .reg2 }

/-- The control table (R106). LDPR has no row. -/
def controlRow (c : Config) (m : Mnemonic) : Option Control :=
  match m with
  | .noop => some {}
  | .clc => some { flag := .clrC }
  | .cli => some { flag := .clrI }
  | .cln => some { flag := .clrN }
  | .not => some (.unary .not)
  | .shl => some (.unary .shl)
  | .shr => some (.unary .shr)
  | .ldfl => some { wreg := .r1, wsrc := .flags }
  | .stfl => some { rdA := true, flag := .load }
  | .wr => some { rdA := true, io := .wr }
  | .rd => some { wreg := .r1, wsrc := .input, io := .rd }
  | .ldpr => none
  | .str => some { rdA := true, rdB := true, mem := .wr, maddr := .reg1, mdata := .reg2 }
  | .ldr => some (.ldr c.ldrOrientation)
  | .cp => some { rdB := true, opB := .reg2, alu := some .passB, wreg := .r1, wsrc := .alu }
  | .sub => some (.binary .subAbs .asgN)
  | .add => some (.binary .add .asgC)
  | .and => some (.binary .and .off)
  | .or => some (.binary .or .off)
  | .xor => some (.binary .xor .off)
  | .st => some { rdA := true, mem := .wr, maddr := .imm, mdata := .reg1 }
  | .ld => some { wreg := .r1, wsrc := .mem, mem := .rd, maddr := .imm }
  | .li => some { opB := .imm, alu := some .passB, wreg := .r1, wsrc := .alu }
  | .subi => some (.immediate .subAbs .asgN)
  | .addi => some (.immediate .add .asgC)
  | .andi => some (.immediate .and .off)
  | .ori => some (.immediate .or .off)
  | .xori => some (.immediate .xor .off)
  | .jmp => some (.jump false .always)
  | .jiz => some (.jump true .z)
  | .jnz => some (.jump true .nz)
  | .jic => some (.jump false .c)
  | .jnc => some (.jump false .nc)
  | .jii => some (.jump false .i)
  | .jni => some (.jump false .ni)
  | .call => some { cond := .always, tgt := .imm, stk := .push }
  | .ret => some { cond := .popped, tgt := .stack, stk := .pop }

/-! ### The datapath

Every block reads the state at the start of the step (R98). A read port that its signal does not enable
gives 0, and a block whose signal is inactive is not used, so that a wrong signal shows in the result. -/

/-- What the register file's read ports and the operand byte give the other blocks. -/
structure Bus where
  a : Byte
  b : Byte
  data : Byte
deriving DecidableEq, Repr

/-- The two read ports and the operand byte. -/
def Control.bus (k : Control) (s : State) (r1 r2 : Reg) (data : Byte) : Bus where
  a := if k.rdA then s.reg r1 else 0#8
  b := if k.rdB then s.reg r2 else 0#8
  data := data

/-- The second ALU operand. -/
def Control.operandB (k : Control) (u : Bus) : Byte :=
  match k.opB with
  | .off => 0#8
  | .reg2 => u.b
  | .imm => u.data

/-- The ALU's result `y` (R107). -/
def Control.aluOut (k : Control) (u : Bus) : Byte :=
  match k.alu with
  | none => 0#8
  | some op => Sys2Proof.Machine.alu op u.a (k.operandB u)

/-- The address of the data-memory access. -/
def Control.address (k : Control) (u : Bus) : Byte :=
  match k.maddr with
  | .off => 0#8
  | .imm => u.data
  | .reg1 => u.a
  | .reg2 => u.b

/-- The byte the data-memory port returns; without a read it returns 0. -/
def Control.memOut (k : Control) (s : State) (u : Bus) : Byte :=
  match k.mem with
  | .rd => s.readData (k.address u)
  | .wr => 0#8
  | .off => 0#8

/-- The value on the register file's write port. -/
def Control.writeValue (c : Config) (k : Control) (s : State) (u : Bus) : Byte :=
  match k.wsrc with
  | .off => 0#8
  | .alu => k.aluOut u
  | .mem => k.memOut s u
  | .flags => s.flags
  | .input => s.inputByte c

/-- The register file after the step. -/
def Control.nextRegs (c : Config) (k : Control) (s : State) (u : Bus) (r1 r2 : Reg) : RegFile :=
  match k.wreg with
  | .off => s.x
  | .r1 => s.x.set r1 (k.writeValue c s u)
  | .r2 => s.x.set r2 (k.writeValue c s u)

/-- Data memory after the step. -/
def Control.nextDmem (k : Control) (s : State) (u : Bus) : Memory :=
  match k.mem, k.mdata with
  | .wr, .reg1 => Memory.writeAt s.dmem (k.address u).toNat u.a
  | .wr, .reg2 => Memory.writeAt s.dmem (k.address u).toNat u.b
  | _, _ => s.dmem

/-- The flags byte after the step; the ALU's carry and sign reach it only through `ASG_C` and `ASG_N`. -/
def Control.nextFlags (c : Config) (k : Control) (s : State) (u : Bus) : Byte :=
  match k.flag with
  | .off => s.flags
  | .clrC => clearFlag s.flags .carry
  | .clrI => clearFlag s.flags .interrupt
  | .clrN => clearFlag s.flags .negative
  | .asgC => updateFlag c.flagUpdate s.flags .carry (carryOut u.a (k.operandB u))
  | .asgN => updateFlag c.flagUpdate s.flags .negative (differenceNegative u.a (k.operandB u))
  | .load => u.a

/-- Whether `pc` is overwritten. -/
def Control.taken (k : Control) (s : State) (u : Bus) : Bool :=
  match k.cond with
  | .never => false
  | .always => true
  | .z => u.a == 0#8
  | .nz => u.a != 0#8
  | .c => s.flag .carry
  | .nc => !s.flag .carry
  | .i => s.flag .interrupt
  | .ni => !s.flag .interrupt
  | .popped => s.stackTop.isSome

/-- The program pointer after the step. -/
def Control.nextPc (k : Control) (s : State) (u : Bus) : Byte :=
  if k.taken s u then
    match k.tgt with
    | .off => 0#8
    | .imm => u.data
    | .stack => s.stackTop.getD 0#8
  else trunc8 (s.pc.toNat + 1)

/-- The call stack after the step; a push takes the current `pc`. -/
def Control.nextStack (c : Config) (k : Control) (s : State) : List Byte :=
  match k.stk with
  | .off => s.stack
  | .push => pushEntry c.stackDepth s.stack s.pc
  | .pop => s.stack.dropLast

/-- Whether the stream condition of the step holds (R94). -/
def Control.enabled (k : Control) (s : State) : Bool :=
  match k.io with
  | .off => true
  | .wr => s.sinkReady
  | .rd => s.inputReady

/-- The state after a step that happens. -/
def Control.drive (c : Config) (k : Control) (s : State) (r1 r2 : Reg) (data : Byte) : State :=
  let u := k.bus s r1 r2 data
  { s with
    x := k.nextRegs c s u r1 r2
    pc := k.nextPc s u
    flags := k.nextFlags c s u
    stack := k.nextStack c s
    dmem := k.nextDmem s u
    inStream := if k.io = .rd then s.inStream.tail else s.inStream
    outStream := if k.io = .wr then s.outStream ++ [u.a] else s.outStream }

/-- An instruction performed by the bundle: its row drives the blocks with the fields of its canonical word;
a mnemonic without a row is an unmapped opcode. -/
def execByControl (c : Config) (i : Instr) (s : State) : Outcome :=
  match controlRow c i.mnemonic with
  | none => .next (s.takeUnmapped c s.fetch)
  | some k =>
    if k.enabled s then .next (k.drive c s i.reg1 (reg2Of i.operand.byte) i.operand.byte) else .next s

end Sys2Proof.Machine
end

