-- ==== Sys2Proof/Machine/Runs.lean ====
section
/-!
DEFINITION. Runs, the finite and the infinite ones, as spec/50_execution_cycle.md R99 and R109 speak of them: "every
interleaving of atomic agent steps from the launch state". `step` follows one stream of turns, the free
value `Config.environment`; here the stream is any.
-/

namespace Sys2Proof.Machine

/-- A run along a stream of turns: each state comes from the one before by the stream's next turn (R99). A turn of
an agent that has no step passes, so a run that has ended stays as it is. -/
def IsRun (turns : Nat → AgentTurn) (states : Nat → State) : Prop :=
  ∀ n, takeTurn (turns n) (states n) = .next (states (n + 1))

/-- The stream of the free choices from a place on. -/
def freeStream (choices : Nat → FreeTurn) (n : Nat) : AgentTurn := turnOfFree (choices n)

/-- The first turns of a stream, as a schedule. -/
def firstTurns (turns : Nat → AgentTurn) (n : Nat) : List AgentTurn := (List.range n).map turns

end Sys2Proof.Machine
end

