-- ==== Sys2Proof/Safety.lean ====
section
/-!
DEFINITION. The terms statements about the machine use: what an instruction leaves unchanged, the tables of
the spec that say which instruction touches what, the invariant every step keeps, and states that
agree but for the interrupt flag. Nothing here is used by the machine.
-/

namespace Sys2Proof.Safety

open Sys2Proof.Machine

/-! ### What is left unchanged, read through the model's own reads -/

/-- Every general register but one reads as before. -/
def SameRegsBut (r : Reg) (s t : State) : Prop := ∀ q, q ≠ r → t.reg q = s.reg q

/-- Every general register reads as before. -/
def SameRegs (s t : State) : Prop := ∀ q, t.reg q = s.reg q

/-- Every bit of `FLAGS` but one named flag is as before, the reserved bits among them. -/
def SameFlagsBut (k : Flag) (s t : State) : Prop :=
  ∀ i, i < 8 → i ≠ k.index → t.flags.getLsbD i = s.flags.getLsbD i

/-- Every byte of data memory reads as before. -/
def SameData (s t : State) : Prop := ∀ a, t.readData a = s.readData a

/-- Every byte of data memory but the one at an address reads as before. -/
def SameDataBut (a : Byte) (s t : State) : Prop := ∀ b, b ≠ a → t.readData b = s.readData b

/-- Every cell of program memory reads as before. -/
def SameProgram (s t : State) : Prop := ∀ a, t.programWord a = s.programWord a

/-- The three stream fields are as before. -/
def SameStreams (s t : State) : Prop :=
  t.inStream = s.inStream ∧ t.inEnded = s.inEnded ∧ t.outStream = s.outStream

/-- The fault latch, the reset line, the configuration and the environment's fields are as before. -/
def SameOutside (s t : State) : Prop :=
  t.fault = s.fault ∧ t.inReset = s.inReset ∧ t.config = s.config ∧ t.sinkReady = s.sinkReady ∧
    t.schedule = s.schedule ∧ t.freeTurns = s.freeTurns ∧ t.turn = s.turn

/-- Program memory, call stack, streams, fault latch and everything outside the core are as before. -/
def SameElsewhere (s t : State) : Prop :=
  SameProgram s t ∧ t.stack = s.stack ∧ SameStreams s t ∧ SameOutside s t

/-- Nothing but general registers, flags and program pointer may have changed. -/
def OnlyRegsFlagsPc (s t : State) : Prop := SameData s t ∧ SameElsewhere s t

/-- The program pointer is the old one plus 1, modulo 256 (R13). -/
def PcAdvanced (s t : State) : Prop := t.pc.toNat = (s.pc.toNat + 1) % 256

/-! ### The spec's tables of who touches what -/

/-- The register field of LDR that holds the address (R56). -/
def ldrAddressField (o : LdrOrientation) (r1 r2 : Reg) : Reg :=
  match o with
  | .addrReg1DestReg2 => r1
  | .destReg1AddrReg2 => r2

/-- The register field of LDR that takes the byte (R56). -/
def ldrDestField (o : LdrOrientation) (r1 r2 : Reg) : Reg :=
  match o with
  | .addrReg1DestReg2 => r2
  | .destReg1AddrReg2 => r1

/-- The column "write" of R11, LDR's row by the configuration's orientation. -/
def regWritten (c : Config) : Instr → Option Reg
  | .noop => none
  | .clc => none
  | .cli => none
  | .cln => none
  | .not r1 => some r1
  | .shl r1 => some r1
  | .shr r1 => some r1
  | .ldfl r1 => some r1
  | .stfl _ => none
  | .wr _ => none
  | .rd r1 => some r1
  | .ldpr _ => none
  | .str _ _ => none
  | .ldr r1 r2 => some (ldrDestField c.ldrOrientation r1 r2)
  | .cp r1 _ => some r1
  | .sub r1 _ => some r1
  | .add r1 _ => some r1
  | .and r1 _ => some r1
  | .or r1 _ => some r1
  | .xor r1 _ => some r1
  | .st _ _ => none
  | .ld r1 _ => some r1
  | .li r1 _ => some r1
  | .subi r1 _ => some r1
  | .addi r1 _ => some r1
  | .andi r1 _ => some r1
  | .ori r1 _ => some r1
  | .xori r1 _ => some r1
  | .jmp _ => none
  | .jiz _ _ => none
  | .jnz _ _ => none
  | .jic _ => none
  | .jnc _ => none
  | .jii _ => none
  | .jni _ => none
  | .call _ => none
  | .ret => none

/-- The column "read" of R11, LDR's row by the configuration's orientation. -/
def regsRead (c : Config) : Instr → List Reg
  | .noop => []
  | .clc => []
  | .cli => []
  | .cln => []
  | .not r1 => [r1]
  | .shl r1 => [r1]
  | .shr r1 => [r1]
  | .ldfl _ => []
  | .stfl r1 => [r1]
  | .wr r1 => [r1]
  | .rd _ => []
  | .ldpr _ => []
  | .str r1 r2 => [r1, r2]
  | .ldr r1 r2 => [ldrAddressField c.ldrOrientation r1 r2]
  | .cp _ r2 => [r2]
  | .sub r1 r2 => [r1, r2]
  | .add r1 r2 => [r1, r2]
  | .and r1 r2 => [r1, r2]
  | .or r1 r2 => [r1, r2]
  | .xor r1 r2 => [r1, r2]
  | .st r1 _ => [r1]
  | .ld _ _ => []
  | .li _ _ => []
  | .subi r1 _ => [r1]
  | .addi r1 _ => [r1]
  | .andi r1 _ => [r1]
  | .ori r1 _ => [r1]
  | .xori r1 _ => [r1]
  | .jmp _ => []
  | .jiz r1 _ => [r1]
  | .jnz r1 _ => [r1]
  | .jic _ => []
  | .jnc _ => []
  | .jii _ => []
  | .jni _ => []
  | .call _ => []
  | .ret => []

/-- The bits of `FLAGS` an instruction writes (R20). -/
def flagsWritten : Instr → Byte
  | .noop => 0x00#8
  | .clc => 0x01#8
  | .cli => 0x02#8
  | .cln => 0x04#8
  | .not _ => 0x00#8
  | .shl _ => 0x00#8
  | .shr _ => 0x00#8
  | .ldfl _ => 0x00#8
  | .stfl _ => 0xFF#8
  | .wr _ => 0x00#8
  | .rd _ => 0x00#8
  | .ldpr _ => 0x00#8
  | .str _ _ => 0x00#8
  | .ldr _ _ => 0x00#8
  | .cp _ _ => 0x00#8
  | .sub _ _ => 0x04#8
  | .add _ _ => 0x01#8
  | .and _ _ => 0x00#8
  | .or _ _ => 0x00#8
  | .xor _ _ => 0x00#8
  | .st _ _ => 0x00#8
  | .ld _ _ => 0x00#8
  | .li _ _ => 0x00#8
  | .subi _ _ => 0x04#8
  | .addi _ _ => 0x01#8
  | .andi _ _ => 0x00#8
  | .ori _ _ => 0x00#8
  | .xori _ _ => 0x00#8
  | .jmp _ => 0x00#8
  | .jiz _ _ => 0x00#8
  | .jnz _ _ => 0x00#8
  | .jic _ => 0x00#8
  | .jnc _ => 0x00#8
  | .jii _ => 0x00#8
  | .jni _ => 0x00#8
  | .call _ => 0x00#8
  | .ret => 0x00#8

/-- The data-memory address an instruction stores to: ST and STR only (R32). -/
def storeAddress (s : State) : Instr → Option Byte
  | .noop => none
  | .clc => none
  | .cli => none
  | .cln => none
  | .not _ => none
  | .shl _ => none
  | .shr _ => none
  | .ldfl _ => none
  | .stfl _ => none
  | .wr _ => none
  | .rd _ => none
  | .ldpr _ => none
  | .str r1 _ => some (s.indirectAddress r1)
  | .ldr _ _ => none
  | .cp _ _ => none
  | .sub _ _ => none
  | .add _ _ => none
  | .and _ _ => none
  | .or _ _ => none
  | .xor _ _ => none
  | .st _ data => some (directAddress data)
  | .ld _ _ => none
  | .li _ _ => none
  | .subi _ _ => none
  | .addi _ _ => none
  | .andi _ _ => none
  | .ori _ _ => none
  | .xori _ _ => none
  | .jmp _ => none
  | .jiz _ _ => none
  | .jnz _ _ => none
  | .jic _ => none
  | .jnc _ => none
  | .jii _ => none
  | .jni _ => none
  | .call _ => none
  | .ret => none

/-- Where an instruction jumps, on the state at the start of the step (R104); none where it does not. -/
def jumpsTo (s : State) : Instr → Option Byte
  | .noop => none
  | .clc => none
  | .cli => none
  | .cln => none
  | .not _ => none
  | .shl _ => none
  | .shr _ => none
  | .ldfl _ => none
  | .stfl _ => none
  | .wr _ => none
  | .rd _ => none
  | .ldpr _ => none
  | .str _ _ => none
  | .ldr _ _ => none
  | .cp _ _ => none
  | .sub _ _ => none
  | .add _ _ => none
  | .and _ _ => none
  | .or _ _ => none
  | .xor _ _ => none
  | .st _ _ => none
  | .ld _ _ => none
  | .li _ _ => none
  | .subi _ _ => none
  | .addi _ _ => none
  | .andi _ _ => none
  | .ori _ _ => none
  | .xori _ _ => none
  | .jmp data => some data
  | .jiz r1 data => if s.reg r1 = 0#8 then some data else none
  | .jnz r1 data => if s.reg r1 = 0#8 then none else some data
  | .jic data => if s.flags.getLsbD 0 then some data else none
  | .jnc data => if s.flags.getLsbD 0 then none else some data
  | .jii data => if s.flags.getLsbD 1 then some data else none
  | .jni data => if s.flags.getLsbD 1 then none else some data
  | .call data => some data
  | .ret => s.stack.getLast?

/-- Whether an instruction is blocked on its stream (R90, R91, R94). -/
def blocked (s : State) : Instr → Bool
  | .noop => false
  | .clc => false
  | .cli => false
  | .cln => false
  | .not _ => false
  | .shl _ => false
  | .shr _ => false
  | .ldfl _ => false
  | .stfl _ => false
  | .wr _ => !s.sinkReady
  | .rd _ => s.inStream.isEmpty && !s.inEnded
  | .ldpr _ => false
  | .str _ _ => false
  | .ldr _ _ => false
  | .cp _ _ => false
  | .sub _ _ => false
  | .add _ _ => false
  | .and _ _ => false
  | .or _ _ => false
  | .xor _ _ => false
  | .st _ _ => false
  | .ld _ _ => false
  | .li _ _ => false
  | .subi _ _ => false
  | .addi _ _ => false
  | .andi _ _ => false
  | .ori _ _ => false
  | .xori _ _ => false
  | .jmp _ => false
  | .jiz _ _ => false
  | .jnz _ _ => false
  | .jic _ => false
  | .jnc _ => false
  | .jii _ => false
  | .jni _ => false
  | .call _ => false
  | .ret => false

/-- The operands that are legal for a shape (R44): none, a register number, or a data byte. -/
def legalOperand : Shape → Operand → Bool
  | .none, .none => true
  | .short, .none => true
  | .dual, .reg2 _ => true
  | .long, .data _ => true
  | .dataOnly, .data _ => true
  | _, _ => false

/-- One instruction executed a number of times in a row, stopping where it does not answer a next state. -/
def execTimes (i : Instr) : Nat → State → Outcome
  | 0, s => .next s
  | n + 1, s =>
    match exec i s with
    | .next t => execTimes i n t
    | .fault r => .fault r
    | .refused r => .refused r

/-! ### Invariants and related states -/

/-- The registers, pointer, flags, stack, latch and `OUT` have the values of R29. -/
def AtResetValues (s : State) : Prop :=
  (∀ r, s.reg r = 0#8) ∧ s.pc = 0#8 ∧ s.flags = 0#8 ∧ s.stack = [] ∧ s.fault = none ∧ s.outStream = []

/-- What holds of the machine at reset and after every step: the configuration has a meaning (R111), the memories
keep their canonical form, the call stack its bound (R23), a set latch is precise: `pc` still points at the
word, the word does not decode, and the core is not halted (R112); and a core held in reset has the reset
values (R29, R130). -/
structure MachineInv (s : State) : Prop where
  config : s.config.valid = true
  head : Memory.wf s.pmemHead
  opnd : Memory.wf s.pmemOpnd
  data : Memory.wf s.dmem
  stack : s.stack.length ≤ s.config.stackDepth
  latch : ∀ a w, s.fault = some (a, w) →
    s.pc = a ∧ (∃ e, decodeWith s.config w = .error e) ∧ s.flag .halt = false
  held : s.inReset = true → AtResetValues s

/-- Two states that agree but for some bits of `FLAGS`: the bits of the mask. -/
def SameButFlagBits (mask : Byte) (s t : State) : Prop :=
  t.flags &&& ~~~mask = s.flags &&& ~~~mask ∧ t = { s with flags := t.flags }

/-- Bit 1, the interrupt flag (R16). -/
def interruptBits : Byte := 0x02#8

/-- Bits 3, 4, 5 and 7, the reserved bits (R19). -/
def reservedBits : Byte := 0xB8#8

/-- The instructions that read the interrupt flag (R16). -/
def readsInterrupt : Instr → Bool
  | .noop => false
  | .clc => false
  | .cli => false
  | .cln => false
  | .not _ => false
  | .shl _ => false
  | .shr _ => false
  | .ldfl _ => true
  | .stfl _ => false
  | .wr _ => false
  | .rd _ => false
  | .ldpr _ => false
  | .str _ _ => false
  | .ldr _ _ => false
  | .cp _ _ => false
  | .sub _ _ => false
  | .add _ _ => false
  | .and _ _ => false
  | .or _ _ => false
  | .xor _ _ => false
  | .st _ _ => false
  | .ld _ _ => false
  | .li _ _ => false
  | .subi _ _ => false
  | .addi _ _ => false
  | .andi _ _ => false
  | .ori _ _ => false
  | .xori _ _ => false
  | .jmp _ => false
  | .jiz _ _ => false
  | .jnz _ _ => false
  | .jic _ => false
  | .jnc _ => false
  | .jii _ => true
  | .jni _ => true
  | .call _ => false
  | .ret => false

/-- A turn by which the host puts a new word into program memory. -/
def AgentTurn.writesProgram : AgentTurn → Bool
  | .core => false
  | .irq => false
  | .inputByte _ => false
  | .inputEnd => false
  | .sinkAccept => false
  | .sinkStall => false
  | .hostReset => false
  | .hostRelease _ _ => false
  | .hostWriteProgram _ _ => true
  | .hostWriteData _ _ => false

/-- Whether the coming turn is the host applying reset. -/
def resetNext (s : State) : Bool := s.nextTurn == .hostReset

/-- Whether the coming turn is the host releasing reset. -/
def releaseNext (s : State) : Bool :=
  match s.nextTurn with
  | .core => false
  | .irq => false
  | .inputByte _ => false
  | .inputEnd => false
  | .sinkAccept => false
  | .sinkStall => false
  | .hostReset => false
  | .hostRelease _ _ => true
  | .hostWriteProgram _ _ => false
  | .hostWriteData _ _ => false

/-- The instruction a core turn runs now: the core is running, the turn is its own, and the word at the program
pointer decodes. -/
def runsNow (s : State) : Option Instr :=
  if s.status = .running ∧ s.nextTurn = .core then
    match decodeWith s.config s.fetch with
    | .ok i => some i
    | .error _ => none
  else none

end Sys2Proof.Safety
end

