-- ==== Sys2Proof/Certificates/Slice0/Obligations.lean ====
section
/-!
DEFINITION. The statements for the provers, in four groups: the codec; what each instruction does and leaves
unchanged; whole-machine rules over all instructions; invariants, runs and equivalences. They hold for every
configuration a state can carry, so at every value of the parameters of R6. A statement that rests on a
decision of spec/92_eei_decisions.md, or on a choice of the model, names it.
-/

open Sys2Proof Sys2Proof.Machine Sys2Proof.Safety

/-! ### The codec (spec/30_encoding.md) -/

/-- R52, for every opcode map the spec admits: decoding an encoded triple gives the triple back, `reg1`
included where no semantics uses it; the word has the fields R52 lists; the word of a decoded instruction is
the decoded word exactly when the ignored bits were 0; the four worked encodings. -/
def Obligations.CodecTripleRoundTrip : Prop :=
  (∀ c : Config, c.valid = true → ∀ m r1 op, c.present m = true → legalOperand m.shape op = true →
    decodeTriple c (encodeTriple c ⟨m, r1, op⟩) = .ok ⟨m, r1, op⟩ ∧
    opcodeField (encodeTriple c ⟨m, r1, op⟩) = c.opcodeOf m ∧
    reg1Field (encodeTriple c ⟨m, r1, op⟩) = r1 ∧
    operandField (encodeTriple c ⟨m, r1, op⟩) =
      (match op with
        | .none => 0#8
        | .reg2 r => r.toBits.setWidth 8
        | .data d => d)) ∧
  (∀ c i, (i.mnemonic.shape = .none ∨ i.mnemonic.shape = .dataOnly) →
    reg1Field (encodeWith c i) = .x0) ∧
  (∀ c w i, decodeWith c w = .ok i →
    (encodeWith c i = w ↔ w &&& ~~~i.mnemonic.shape.usedBits = 0#16)) ∧
  encode (.li .x0 5#8) = 0x051A#16 ∧ encode (.wr .x0) = 0x000D#16 ∧
  encode (.sub .x2 .x1) = 0x0193#16 ∧ encode (.jmp 0x80#8) = 0x8020#16

/-- Decode and encode agree on every well-formed instruction, for every opcode map the spec admits
(spec/92_eei_decisions.md D3: "No proof may depend on the numbers"). -/
def Obligations.InstructionRoundTrip : Prop :=
  ∀ c : Config, c.valid = true → ∀ i : Instr, i.wellFormed c = true →
    decodeWith c (encodeWith c i) = .ok i

/-- The bits a shape does not use never matter, and the ones it uses always do (spec/92_eei_decisions.md D17
for the bits the source does not speak of). -/
def Obligations.OnlyUsedBitsMatter : Prop :=
  ∀ (c : Config) (w w' : InstrWord) (i : Instr), decodeWith c w = .ok i →
    (decodeWith c w' = .ok i ↔
      w' &&& i.mnemonic.shape.usedBits = w &&& i.mnemonic.shape.usedBits)

/-- The decoder's instruction is the instruction of the triple the decoder contract names: the same mnemonic,
the same operand, and the same `reg1` where the shape uses it. -/
def Obligations.DecoderFollowsTriple : Prop :=
  ∀ (c : Config) (w : InstrWord) (i : Instr),
    decodeWith c w = .ok i ↔
      ∃ d, decodeTriple c w = .ok d ∧ d.mnemonic = i.mnemonic ∧ d.operand = i.operand ∧
        (i.mnemonic.shape = .none ∨ i.mnemonic.shape = .dataOnly ∨ d.reg1 = i.reg1)

/-- The decoder vectors of spec/95_test_vectors.md 2.1 and S8 (numbers of spec/92_eei_decisions.md D3). -/
def Obligations.WordsDecodeAsWritten : Prop :=
  decode 0xFFC0#16 = .ok .noop ∧ decode 0x0002#16 = .ok .cli ∧ decode 0x05DA#16 = .ok (.li .x3 5#8) ∧
  decode 0xFD93#16 = .ok (.sub .x2 .x1) ∧ decode 0x80E0#16 = .ok (.jmp 0x80#8) ∧
  decode 0x00E8#16 = .ok .ret ∧ decode 0x00CA#16 = .ok (.shr .x3) ∧
  decode 0x0197#16 = .ok (.xor .x2 .x1) ∧ decode 0xA55D#16 = .ok (.andi .x1 0xA5#8) ∧
  decode 0xFE24#16 = .ok (.jnc 0xFE#8) ∧ decode 0x1229#16 = .error (.unmappedOpcode 0x29#6)

/-- Exactly the 28 opcode numbers 4 to 7, 15 and 41 to 63 do not decode, and the error names the number (the
numbers are the spec's own assignment, spec/92_eei_decisions.md D3; LDPR's is among them by D5). -/
def Obligations.UnmappedOpcodesAreRefused : Prop :=
  ∀ w : InstrWord,
    let n := (opcodeField w).toNat
    if (4 ≤ n ∧ n ≤ 7) ∨ n = 15 ∨ 41 ≤ n then decode w = .error (.unmappedOpcode (opcodeField w))
    else ∃ i, decode w = .ok i

/-! ### What each instruction does, and its frame -/

/-- ST and STR (spec/40_data_movement.md R53, R54) complete in every state: the byte at the computed address
becomes the stored register's value, every other byte of data memory, every register, every flag and all else
stays, `pc` advances. -/
def Obligations.StoresWriteOneByte : Prop :=
  (∀ r1 data s, ∃ t, exec (.st r1 data) s = .next t ∧
    t.readData (directAddress data) = s.reg r1 ∧ SameDataBut (directAddress data) s t ∧
    SameRegs s t ∧ t.flags = s.flags ∧ PcAdvanced s t ∧ SameElsewhere s t) ∧
  (∀ r1 r2 s, ∃ t, exec (.str r1 r2) s = .next t ∧
    t.readData (s.indirectAddress r1) = s.reg r2 ∧ SameDataBut (s.indirectAddress r1) s t ∧
    SameRegs s t ∧ t.flags = s.flags ∧ PcAdvanced s t ∧ SameElsewhere s t)

/-- LD (R55) completes in every state: `x[r1]` becomes the byte at `data`, nothing else changes but `pc`. -/
def Obligations.LdLoadsDirect : Prop :=
  ∀ r1 data s, ∃ t, exec (.ld r1 data) s = .next t ∧ t.reg r1 = s.readData data ∧
    SameRegsBut r1 s t ∧ t.flags = s.flags ∧ PcAdvanced s t ∧ OnlyRegsFlagsPc s t

/-- LDR (R56) completes in every state: `x[r2]` becomes the byte at address `x[r1]`, or, under the other
orientation, `x[r1]` the byte at address `x[r2]`. Which of the two is the hardware's is the spec's own choice
(spec/92_eei_decisions.md D6, notes/assumptions/10.md). -/
def Obligations.LdrLoadsIndirect : Prop :=
  ∀ r1 r2 s, ∃ t, exec (.ldr r1 r2) s = .next t ∧
    (match s.config.ldrOrientation with
      | .addrReg1DestReg2 => t.reg r2 = s.readData (s.reg r1) ∧ SameRegsBut r2 s t
      | .destReg1AddrReg2 => t.reg r1 = s.readData (s.reg r2) ∧ SameRegsBut r1 s t) ∧
    t.flags = s.flags ∧ PcAdvanced s t ∧ OnlyRegsFlagsPc s t

/-- LI and CP (R57, R58) complete in every state: `x[r1]` becomes the immediate, or the value of `x[r2]` (CP's
direction is spec/92_eei_decisions.md D6, second part). -/
def Obligations.LiAndCpWriteRegister : Prop :=
  (∀ r1 data s, ∃ t, exec (.li r1 data) s = .next t ∧ t.reg r1 = data ∧
    SameRegsBut r1 s t ∧ t.flags = s.flags ∧ PcAdvanced s t ∧ OnlyRegsFlagsPc s t) ∧
  (∀ r1 r2 s, ∃ t, exec (.cp r1 r2) s = .next t ∧ t.reg r1 = s.reg r2 ∧
    SameRegsBut r1 s t ∧ t.flags = s.flags ∧ PcAdvanced s t ∧ OnlyRegsFlagsPc s t)

/-- CLC, CLI, CLN (spec/41_flag_clear.md R59 to R61) complete in every state: the one flag is 0 after, the
other seven bits of `FLAGS`, every register and all else stay, `pc` advances. -/
def Obligations.FlagClearsClearOneBit : Prop :=
  ∀ s i k, (i, k) ∈ [(Instr.clc, Flag.carry), (Instr.cli, Flag.interrupt), (Instr.cln, Flag.negative)] →
    ∃ t, exec i s = .next t ∧ t.flags.getLsbD k.index = false ∧ SameFlagsBut k s t ∧
      SameRegs s t ∧ PcAdvanced s t ∧ OnlyRegsFlagsPc s t

/-- ADD and ADDI (spec/42_arithmetic.md R65, R66) complete in every state: the sum modulo 256, the carry bit
assigned (cleared when the sum fits: spec/92_eei_decisions.md D7) or, under `set_only`, left set, no other
flag and no other register changed. -/
def Obligations.AddWrapsAndAssignsCarry : Prop :=
  ∀ s r1 i b, ((∃ r2, i = Instr.add r1 r2 ∧ b = s.reg r2) ∨ i = Instr.addi r1 b) →
    ∃ t, exec i s = .next t ∧
      (t.reg r1).toNat = ((s.reg r1).toNat + b.toNat) % 256 ∧
      t.flags.getLsbD 0 = (decide (255 < (s.reg r1).toNat + b.toNat) ||
        (s.config.flagUpdate == .setOnly && s.flags.getLsbD 0)) ∧ SameFlagsBut .carry s t ∧
      SameRegsBut r1 s t ∧ PcAdvanced s t ∧ OnlyRegsFlagsPc s t

/-- SUB and SUBI (R63, R64) complete in every state: the absolute difference, never wrapped, and the negative
bit assigned (cleared when the difference is not negative: spec/92_eei_decisions.md D7) or, under `set_only`,
left set; sign and result together are the sign and magnitude of the exact difference. -/
def Obligations.SubStoresMagnitudeAndSign : Prop :=
  ∀ s r1 i b, ((∃ r2, i = Instr.sub r1 r2 ∧ b = s.reg r2) ∨ i = Instr.subi r1 b) →
    ∃ t, exec i s = .next t ∧
      t.flags.getLsbD 2 = (decide ((s.reg r1).toNat < b.toNat) ||
        (s.config.flagUpdate == .setOnly && s.flags.getLsbD 2)) ∧
      (if (s.reg r1).toNat < b.toNat then -((t.reg r1).toNat : Int) else ((t.reg r1).toNat : Int)) =
        (s.reg r1).toNat - b.toNat ∧
      SameFlagsBut .negative s t ∧ SameRegsBut r1 s t ∧ PcAdvanced s t ∧ OnlyRegsFlagsPc s t

/-- AND, OR, XOR (spec/43_logic_shift.md R67 to R69) complete in every state: each of the 8 bit positions on
its own, no flag changed. -/
def Obligations.BitwiseRegisterForms : Prop :=
  ∀ s r1 r2 i f, (i, f) ∈ [(Instr.and r1 r2, and), (Instr.or r1 r2, or), (Instr.xor r1 r2, xor)] →
    ∃ t, exec i s = .next t ∧
      (∀ n, n < 8 → (t.reg r1).getLsbD n = f ((s.reg r1).getLsbD n) ((s.reg r2).getLsbD n)) ∧
      SameRegsBut r1 s t ∧ t.flags = s.flags ∧ PcAdvanced s t ∧ OnlyRegsFlagsPc s t

/-- ANDI, ORI, XORI (R70 to R72) complete in every state: each of the 8 bit positions on its own, no flag
changed. -/
def Obligations.BitwiseImmediateForms : Prop :=
  ∀ s r1 d i f, (i, f) ∈ [(Instr.andi r1 d, and), (Instr.ori r1 d, or), (Instr.xori r1 d, xor)] →
    ∃ t, exec i s = .next t ∧
      (∀ n, n < 8 → (t.reg r1).getLsbD n = f ((s.reg r1).getLsbD n) (d.getLsbD n)) ∧
      SameRegsBut r1 s t ∧ t.flags = s.flags ∧ PcAdvanced s t ∧ OnlyRegsFlagsPc s t

/-- NOT, SHL, SHR (R73 to R75) complete in every state: `255 - x`, `2 * x` modulo 256, `x / 2`; the bit
shifted out is lost and no flag changes. -/
def Obligations.UnaryForms : Prop :=
  ∀ s r1 i f, (i, f) ∈ [(Instr.not r1, fun n => 255 - n), (Instr.shl r1, fun n => 2 * n % 256),
      (Instr.shr r1, fun n : Nat => n / 2)] →
    ∃ t, exec i s = .next t ∧ (t.reg r1).toNat = f (s.reg r1).toNat ∧
      SameRegsBut r1 s t ∧ t.flags = s.flags ∧ PcAdvanced s t ∧ OnlyRegsFlagsPc s t

/-- R76 with the conditions of the seven jumps: a taken jump sets `pc` to `imm`, one not taken adds 1 to it,
and no other part of the state changes. -/
def Obligations.JumpsWriteOnlyThePointer : Prop :=
  ∀ (s : State) (r1 : Reg) (imm : Byte),
    exec (.jmp imm) s = .next { s with pc := imm } ∧
    exec (.jiz r1 imm) s = .next { s with pc := if s.reg r1 = 0#8 then imm else s.pc + 1#8 } ∧
    exec (.jnz r1 imm) s = .next { s with pc := if s.reg r1 ≠ 0#8 then imm else s.pc + 1#8 } ∧
    exec (.jic imm) s = .next { s with pc := if s.flags.getLsbD 0 = true then imm else s.pc + 1#8 } ∧
    exec (.jnc imm) s = .next { s with pc := if s.flags.getLsbD 0 = false then imm else s.pc + 1#8 } ∧
    exec (.jii imm) s = .next { s with pc := if s.flags.getLsbD 1 = true then imm else s.pc + 1#8 } ∧
    exec (.jni imm) s = .next { s with pc := if s.flags.getLsbD 1 = false then imm else s.pc + 1#8 }

/-- LDFL (spec/45_flags_transfer.md R84) completes in every state: all 8 bits of `FLAGS` go to `x[r1]`,
`FLAGS` stays. -/
def Obligations.LdflCopiesFlags : Prop :=
  ∀ r1 s, ∃ t, exec (.ldfl r1) s = .next t ∧ t.reg r1 = s.flags ∧ t.flags = s.flags ∧
    SameRegsBut r1 s t ∧ PcAdvanced s t ∧ OnlyRegsFlagsPc s t

/-- STFL (R85) completes in every state: all 8 bits of `x[r1]` go to `FLAGS` and `pc` advances, nothing else
changes; a core that is not held in reset is halted after it exactly when bit 6 was set. -/
def Obligations.StflLoadsFlagsAndHalts : Prop :=
  ∀ r1 s, ∃ t, exec (.stfl r1) s = .next t ∧ t = { s with flags := s.reg r1, pc := s.pc + 1#8 } ∧
    (s.inReset = false → (t.status = .halted ↔ (s.reg r1).getLsbD 6 = true))

/-- LDPR's own effect (R86) is that of an unmapped opcode: the latch takes the address and the word at `pc` and
nothing else changes, or, under the policy `noop`, `pc` advances; and in a configuration with a meaning no word
decodes to it (spec/92_eei_decisions.md D4, D5, notes/assumptions/8.md). -/
def Obligations.LdprRaisesDecodeError : Prop :=
  (∀ r1 s, exec (.ldpr r1) s = .next
    (match s.config.unmappedPolicy with
      | .fault => { s with fault := some (s.pc, s.programWord s.pc) }
      | .noop => { s with pc := s.pc + 1#8 })) ∧
  ∀ (c : Config) w r1, c.valid = true → decodeWith c w ≠ .ok (.ldpr r1)

/-- CALL (spec/46_call_return.md R87) completes in every state: its own address is pushed, `pc` becomes `imm`,
nothing else changes; with as many live entries as the depth the oldest is lost. -/
def Obligations.CallPushesOwnAddress : Prop :=
  ∀ (imm : Byte) (s : State),
    (s.stack.length < s.config.stackDepth →
      exec (.call imm) s = .next { s with stack := s.stack ++ [s.pc], pc := imm }) ∧
    (s.config.stackDepth ≤ s.stack.length →
      exec (.call imm) s = .next { s with stack := s.stack.tail ++ [s.pc], pc := imm })

/-- RET (R88) completes in every state: with a live entry `pc` becomes the newest one, which is removed; with
an empty stack only `pc` advances. -/
def Obligations.RetGoesToPoppedAddress : Prop :=
  (∀ (s : State) (rest : List Byte) (a : Byte), s.stack = rest ++ [a] →
    exec .ret s = .next { s with stack := rest, pc := a }) ∧
  ∀ s : State, s.stack = [] → exec .ret s = .next { s with pc := s.pc + 1#8 }

/-- WR (spec/47_io_noop.md R90) completes whenever the sink accepts: the register's byte is appended to `OUT`
and `pc` advances, nothing else changes. While the sink does not accept nothing changes at all (that a blocked
turn ends in the same state is the model's choice, notes/assumptions/6.md). -/
def Obligations.WrAppendsOneByte : Prop :=
  ∀ (r1 : Reg) (s : State),
    (s.sinkReady = true →
      exec (.wr r1) s = .next { s with outStream := s.outStream ++ [s.reg r1], pc := s.pc + 1#8 }) ∧
    (s.sinkReady = false → exec (.wr r1) s = .next s)

/-- RD (R91) completes when a byte is available, taking it from `IN`, and at the end of the input, delivering
the value of `RD_EOF_VALUE`, which the spec sets to 0xFF (spec/92_eei_decisions.md D10); otherwise nothing
changes (the model's choice, notes/assumptions/6.md). -/
def Obligations.RdTakesOneByte : Prop :=
  Config.spec.rdEofValue = 0xFF#8 ∧
  ∀ (r1 : Reg) (s : State),
    (∀ b rest, s.inStream = b :: rest → ∃ t, exec (.rd r1) s = .next t ∧ t.reg r1 = b ∧
      SameRegsBut r1 s t ∧ t = { s with x := t.x, inStream := rest, pc := s.pc + 1#8 }) ∧
    (s.inStream = [] → s.inEnded = true → ∃ t, exec (.rd r1) s = .next t ∧
      t.reg r1 = s.config.rdEofValue ∧ SameRegsBut r1 s t ∧ t = { s with x := t.x, pc := s.pc + 1#8 }) ∧
    (s.inStream = [] → s.inEnded = false → exec (.rd r1) s = .next s)

/-- NOOP (R92) completes in every state: `pc` advances, nothing else changes. -/
def Obligations.NoopAdvancesOnly : Prop :=
  ∀ s : State, exec .noop s = .next { s with pc := s.pc + 1#8 }

/-! ### The call stack (spec/10_state.md R22 to R26) -/

/-- R24, for every depth of at least 1: with room the address is appended; on a full stack every entry moves
down by one, the oldest is lost, the new one is at the top and the count stays; only the stack changes;
pushing any addresses on an empty stack keeps exactly the newest, as many as the depth. -/
def Obligations.PushEvictsTheOldest : Prop :=
  ∀ c : Config, 1 ≤ c.stackDepth →
    (∀ (s : State) (a : Byte), s.stack.length < c.stackDepth →
      s.push c a = { s with stack := s.stack ++ [a] }) ∧
    (∀ (s : State) (a : Byte), s.stack.length = c.stackDepth →
      (s.push c a).stack.length = c.stackDepth ∧
      (∀ i, i + 1 < c.stackDepth → (s.push c a).stack[i]? = s.stack[i + 1]?) ∧
      (s.push c a).stack[c.stackDepth - 1]? = some a ∧
      s.push c a = { s with stack := (s.stack ++ [a]).drop 1 }) ∧
    ∀ (s : State) (as : List Byte), s.stack = [] →
      (as.foldl (fun u a => u.push c a) s) = { s with stack := as.drop (as.length - c.stackDepth) }

/-- R25: a pop returns the newest live entry and leaves the others; on an empty stack it returns none and
changes nothing. -/
def Obligations.PopTakesTheNewest : Prop :=
  (∀ (s : State) (rest : List Byte) (a : Byte), s.stack = rest ++ [a] →
    s.stackTop = some a ∧ s.popped = { s with stack := rest }) ∧
  ∀ s : State, s.stack = [] → s.stackTop = none ∧ s.popped = s

/-- R23: reset establishes the bound of the stack, push and pop keep it for every depth of at least 1, and so
does every step of the machine, whichever agent takes it. -/
def Obligations.StackStaysBounded : Prop :=
  State.reset.stack.length = 0 ∧
  (∀ (c : Config) (s : State) (a : Byte), 1 ≤ c.stackDepth → s.stack.length ≤ c.stackDepth →
    (s.push c a).stack.length ≤ c.stackDepth ∧ s.popped.stack.length ≤ c.stackDepth) ∧
  ∀ s t : State, 1 ≤ s.config.stackDepth → s.stack.length ≤ s.config.stackDepth → step s = .next t →
    t.config = s.config ∧ t.stack.length ≤ t.config.stackDepth

/-- A CALL and a RET with nothing between (R89) restore the state before the CALL, so that the CALL runs
again; on a full stack they restore it but for the evicted oldest entry. -/
def Obligations.RetRunsTheCallAgain : Prop :=
  ∀ (imm : Byte) (s : State),
    (s.stack.length < s.config.stackDepth →
      ∃ t, exec (.call imm) s = .next t ∧ exec .ret t = .next s) ∧
    (s.config.stackDepth ≤ s.stack.length →
      ∃ t, exec (.call imm) s = .next t ∧ exec .ret t = .next { s with stack := s.stack.tail })

/-! ### Whole-machine rules -/

/-- Every instruction answers a next state in every state, changes no program cell, and changes no byte of data
memory but the one at the address ST or STR computes. R98 says it of the instructions that execute. Two next
states are the model's own: the unchanged state of a WR or RD that is blocked, to which the spec gives no step
(R94, R95; DESIGN CHOICE, notes/assumptions/6.md), and the DecodeError of LDPR, which is no instruction of the
hardware (DEDUCED, notes/assumptions/8.md). -/
def Obligations.InstructionsNeverStop : Prop :=
  ∀ i s, ∃ t, exec i s = .next t ∧ (blocked s i = true → t = s) ∧ SameProgram s t ∧
    ∀ b, storeAddress s i ≠ some b → t.readData b = s.readData b

/-- R13: an instruction that runs either jumps, and then `pc` is the target, or does not, and then `pc` is the
old one plus 1 modulo 256; only the nine listed instructions ever jump; 256 NOOPs in a row change nothing.
LDPR is no instruction of the hardware (R86) and is left out. -/
def Obligations.PointerAdvancesOrJumps : Prop :=
  (∀ i s t, exec i s = .next t → blocked s i = false → i.mnemonic ≠ .ldpr →
    match jumpsTo s i with
    | some target => t.pc = target
    | none => t.pc.toNat = (s.pc.toNat + 1) % 256) ∧
  (∀ i s a, jumpsTo s i = some a →
    i.mnemonic ∈ [Mnemonic.jmp, .jiz, .jnz, .jic, .jnc, .jii, .jni, .call, .ret]) ∧
  ∀ s, execTimes .noop 256 s = .next s

/-- R104's table at a core turn, in a configuration with a meaning: the jump's target, the increment, or, after a
DecodeError, the same pointer (under the policy `noop` an unmapped word is no DecodeError and advances it). -/
def Obligations.PointerUpdateTable : Prop :=
  ∀ s : State, s.config.valid = true → s.status = .running → s.nextTurn = .core →
    (∀ i, decodeWith s.config s.fetch = .ok i → blocked s i = false →
      ∃ t, step s = .next t ∧ t.pc = (jumpsTo s i).getD (s.pc + 1#8)) ∧
    (∀ e, decodeWith s.config s.fetch = .error e → ∃ t, step s = .next t ∧
      t.pc = (match s.config.unmappedPolicy with
        | .fault => s.pc
        | .noop => s.pc + 1#8))

/-- The table of R11, which instruction reads and writes which general register (LDR by the orientation of the
configuration): a register outside the column "write" keeps its value, and the value of a register outside the
column "read" has no influence on any other part of the result, nor, where the instruction runs and writes that
register, on what it writes there. -/
def Obligations.RegistersTouchedByTable : Prop :=
  (∀ i s t, exec i s = .next t → ∀ q, regWritten s.config i ≠ some q → t.reg q = s.reg q) ∧
  ∀ i (s : State) q v, q ∉ regsRead s.config i →
    ∃ t t', exec i s = .next t ∧ exec i (s.setReg q v) = .next t' ∧
      t = { t' with x := t.x } ∧ SameRegsBut q t t' ∧
      (blocked s i = false → regWritten s.config i = some q → t.reg q = t'.reg q)

/-- The complete list of R20, who writes `FLAGS`: every bit an instruction is not listed with stays, whatever
the instruction (spec/92_eei_decisions.md D8 for the instructions the source names no flag for). -/
def Obligations.FlagsTouchedByTable : Prop :=
  ∀ i s t, exec i s = .next t → t.flags &&& ~~~flagsWritten i = s.flags &&& ~~~flagsWritten i

/-- The halt bit (R18): apart from the host's reset, it changes only when the core runs STFL, to bit 6 of its
register. In a halted core no agent but the host changes anything: not the core (R18), and not `irq` or `input`
either, which is the spec's own decision (spec/92_eei_decisions.md D16; DEDUCED, notes/assumptions/14.md). A
halted core takes no step; that its turn is answered with the reason `coreHalted` when nothing is scheduled is
the model's choice (DESIGN CHOICE, notes/assumptions/7.md). -/
def Obligations.HaltBitRule : Prop :=
  (∀ s t, step s = .next t → resetNext s = false → t.flag .halt ≠ s.flag .halt →
    ∃ r, runsNow s = some (.stfl r) ∧ t.flag .halt = (s.reg r).getLsbD 6) ∧
  (∀ s t, step s = .next t → resetNext s = false → s.status = .halted →
    SameRegs s t ∧ t.pc = s.pc ∧ t.flags = s.flags ∧ t.stack = s.stack ∧ t.fault = s.fault ∧
    SameStreams s t) ∧
  ∀ s : State, s.status = .halted → s.schedule = [] → step s = .fault .coreHalted

/-- R19: the reserved bits are 0 after reset, only STFL writes them, with its register's bits, the interrupt
keeps them, and nothing but LDFL depends on them: two states that differ in reserved bits only go to two
states that differ in reserved bits only. -/
def Obligations.ReservedBitsAreInert : Prop :=
  State.reset.flags &&& reservedBits = 0#8 ∧
  (∀ (s : State) input ended, (s.restart input ended).flags &&& reservedBits = 0#8) ∧
  (∀ i s t, exec i s = .next t → t.flags &&& reservedBits =
    (match i with
      | .stfl r => s.reg r
      | _ => s.flags) &&& reservedBits) ∧
  (∀ s : State, s.irqStep.flags &&& reservedBits = s.flags &&& reservedBits) ∧
  ∀ i s s' t, SameButFlagBits reservedBits s s' → (∀ r, i ≠ .ldfl r) → exec i s = .next t →
    ∃ t', exec i s' = .next t' ∧ SameButFlagBits reservedBits t t'

/-- The interrupt flag (R16, R109) reaches nothing but JII, JNI and LDFL: on two states that agree but for it,
every other instruction gives two states that agree but for it. -/
def Obligations.InterruptFlagReachesThreeInstructions : Prop :=
  ∀ i s s' t, SameButFlagBits interruptBits s s' → readsInterrupt i = false → exec i s = .next t →
    ∃ t', exec i s' = .next t' ∧ SameButFlagBits interruptBits t t'

/-- Flags survive the way through two registers (spec/95_test_vectors.md S3): LDFL, CP and STFL in a row leave
all 8 bits as they were. -/
def Obligations.FlagsSurviveLdflCpStfl : Prop :=
  ∀ r1 r2 s, ∃ t1 t2 t3, exec (.ldfl r1) s = .next t1 ∧ exec (.cp r2 r1) t1 = .next t2 ∧
    exec (.stfl r2) t2 = .next t3 ∧ t3.flags = s.flags ∧ t3.pc = s.pc + 3#8 ∧
    (∀ q, q ≠ r1 → q ≠ r2 → t3.reg q = s.reg q) ∧ OnlyRegsFlagsPc s t3

/-- A load returns the most recent store (R38 (b)) to its address, or what was there before: STR then LD, and
ST then LDR (under either orientation, spec/92_eei_decisions.md D6), at any two addresses. -/
def Obligations.LoadSeesTheLastStore : Prop :=
  (∀ s r1 r2 q data, ∃ t u, exec (.str r1 r2) s = .next t ∧ exec (.ld q data) t = .next u ∧
    u.reg q = if data = s.reg r1 then s.reg r2 else s.readData data) ∧
  ∀ s r1 r2 q data, ∃ t u, exec (.st r1 data) s = .next t ∧ exec (.ldr r2 q) t = .next u ∧
    u.reg (ldrDestField s.config.ldrOrientation r2 q) =
      if s.reg (ldrAddressField s.config.ldrOrientation r2 q) = data then s.reg r1
      else s.readData (s.reg (ldrAddressField s.config.ldrOrientation r2 q))

/-! ### The core's turn and the other agents (spec/50_execution_cycle.md, spec/60_exceptions.md) -/

/-- At a turn of a running core whose word decodes, the step is `exec` of the decoded instruction, which is
well formed: in a closed system on the state as it is, at a scheduled turn on the state without that turn, and
where the environment chooses freely, if its choice is the core, on the state with the next choice up. The
schedule and the free choices are the model's fields (notes/assumptions/5.md). -/
def Obligations.StepRunsTheDecodedInstruction : Prop :=
  ∀ (s : State) i, s.status = .running → decodeWith s.config s.fetch = .ok i →
    i.wellFormed s.config = true ∧
    (s.schedule = [] → s.freeTurns = false → step s = exec i s) ∧
    (∀ rest, s.schedule = .core :: rest → step s = exec i { s with schedule := rest }) ∧
    (s.schedule = [] → s.freeTurns = true →
      step s = if Config.environment s.turn = .core then exec i { s with turn := s.turn + 1 }
        else takeTurn (turnOfFree (Config.environment s.turn)) { s with turn := s.turn + 1 })

/-- A word placed at the program pointer is what the next step of a running core runs, and no other program
cell changes; at the spec's configuration it is the instruction the table word decodes to. -/
def Obligations.PlacedWordRunsNext : Prop :=
  (∀ (s : State) nbits w i, s.status = .running → decodeWith s.config (tableWord nbits w) = .ok i →
    step (s.withFetchWord nbits w) = exec i (s.withFetchWord nbits w) ∧
    ∀ a, a ≠ s.pc → (s.withFetchWord nbits w).programWord a = s.programWord a) ∧
  ∀ nbits w i, decodeTableWord nbits w = some i ↔ decodeWith Config.spec (tableWord nbits w) = .ok i

/-- An undecodable word stops a running core: the latch takes its address and the word, nothing else changes,
and the core takes no further step; under the policy `noop` the word only advances the pointer
(spec/92_eei_decisions.md D4). How a core without a step answers is the model's choice: a further turn of it
passes (DESIGN CHOICE, notes/assumptions/5.md), and with nothing scheduled the answer is the reason
`coreFaulted` (DESIGN CHOICE, notes/assumptions/7.md). -/
def Obligations.UndecodableWordFaults : Prop :=
  ∀ (s : State) e, s.nextTurn = .core → s.status = .running → decodeWith s.config s.fetch = .error e →
    (s.config.unmappedPolicy = .fault → ∃ t, step s = .next t ∧
      t = { s.turnTaken with fault := some (s.pc, s.fetch) } ∧
      takeTurn .core t = .next t ∧ (t.schedule = [] → step t = .fault .coreFaulted)) ∧
    (s.config.unmappedPolicy = .noop → step s = .next { s.turnTaken with pc := s.pc + 1#8 })

/-- What becomes of the core's turn. A running core answers a next state; for a blocked WR or RD, to which the
spec gives no step (R94), that is the state with the turn taken and nothing else changed, the model's choice
(DESIGN CHOICE, notes/assumptions/6.md). A core that is halted, faulted or held in reset has no step: with nothing scheduled
the answer is the reason, the model's choice (DESIGN CHOICE, notes/assumptions/7.md), and a scheduled turn of
the core passes, also the model's choice (DESIGN CHOICE, notes/assumptions/5.md). -/
def Obligations.EndedCoreHasNoStep : Prop :=
  (∀ s : State, s.status = .running → s.nextTurn = .core → ∃ t, step s = .next t) ∧
  (∀ (s : State) i, s.status = .running → s.nextTurn = .core → decodeWith s.config s.fetch = .ok i →
    blocked s i = true → step s = .next s.turnTaken) ∧
  (∀ s : State, s.schedule = [] → s.inReset = false → s.flags.getLsbD 6 = true →
    step s = .fault .coreHalted) ∧
  (∀ s : State, s.schedule = [] → s.inReset = false → s.flags.getLsbD 6 = false → s.fault ≠ none →
    step s = .fault .coreFaulted) ∧
  (∀ s : State, s.schedule = [] → s.inReset = true → step s = .fault .coreInReset) ∧
  ∀ (s : State) rest, s.schedule = .core :: rest → s.status ≠ .running → step s = .next { s with schedule := rest }

/-- The steps of `irq`, `input` and `output`: the interrupt sets bit 1 and nothing else; a byte goes to the
end of `IN` unless the input has ended; ending it is final; the sink changes its readiness
(spec/92_eei_decisions.md D11, D12). None of them acts on a core that is not running: on a halted or faulted
one by the spec's decision D16, on one held in reset because there is no run then, the model's inference
(DEDUCED, notes/assumptions/14.md). That such a turn passes, and that with nothing scheduled a running system
that is not closed takes the turn the environment chooses (O1 to O3), is the model's form (DESIGN CHOICE,
notes/assumptions/5.md). -/
def Obligations.EnvironmentTurns : Prop :=
  (∀ (s : State) rest, s.status = .running → s.schedule = .irq :: rest →
    step s = .next { s with schedule := rest, flags := s.flags ||| 0x02#8 }) ∧
  (∀ (s : State) rest b, s.status = .running → s.schedule = .inputByte b :: rest →
    step s = .next { s with
      schedule := rest, inStream := if s.inEnded then s.inStream else s.inStream ++ [b] }) ∧
  (∀ (s : State) rest, s.status = .running → s.schedule = .inputEnd :: rest →
    step s = .next { s with schedule := rest, inEnded := true }) ∧
  (∀ (s : State) rest ready, s.status = .running →
    s.schedule = (if ready then .sinkAccept else .sinkStall) :: rest →
    step s = .next { s with schedule := rest, sinkReady := ready }) ∧
  (∀ (s : State) rest a, s.status ≠ .running → s.schedule = a :: rest →
    (a = .irq ∨ (∃ b, a = .inputByte b) ∨ a = .inputEnd ∨ a = .sinkAccept ∨ a = .sinkStall) →
    step s = .next { s with schedule := rest }) ∧
  ∀ s : State, s.schedule = [] → s.freeTurns = true → s.status = .running →
    step s = takeTurn (turnOfFree (Config.environment s.turn)) { s with turn := s.turn + 1 }

/-- The host's turns. Reset, in any state, gives every register, the pointer, `FLAGS`, the stack, the latch and
`OUT` their reset values, keeps both memories and holds the core. A release starts the run of a held core with
the new run's input, is refused where the spec refuses the launch (R111), and does nothing to a core that is
not held. A write through a host port is done outside a run and refused during one. (spec/92_eei_decisions.md
D13, D14; notes/assumptions/13.md, 17.md.) -/
def Obligations.HostTurns : Prop :=
  (∀ (s : State) rest, s.schedule = .hostReset :: rest → ∃ t, step s = .next t ∧
    AtResetValues t ∧ t.status = .inReset ∧ SameData s t ∧ SameProgram s t ∧
    t = { s with schedule := rest, x := t.x, pc := t.pc, flags := t.flags, stack := t.stack,
                 fault := t.fault, outStream := t.outStream, inReset := t.inReset }) ∧
  (∀ (s : State) rest input ended, s.schedule = .hostRelease input ended :: rest →
    (s.inReset = false → step s = .next { s with schedule := rest }) ∧
    (s.inReset = true → s.config.valid = false → step s = .refused .badConfiguration) ∧
    (s.inReset = true → s.config.valid = true → s.config.hasCallStack = false →
      (∃ a, opcodeField (s.programWord a) = s.config.opcodeOf .call ∨
        opcodeField (s.programWord a) = s.config.opcodeOf .ret) → step s = .refused .noCallStack) ∧
    (s.inReset = true → s.config.valid = true →
      (s.config.hasCallStack = true ∨ ∀ a, opcodeField (s.programWord a) ≠ s.config.opcodeOf .call ∧
        opcodeField (s.programWord a) ≠ s.config.opcodeOf .ret) → ∃ t, step s = .next t ∧
      t = { s with schedule := rest, inStream := input, inEnded := ended, inReset := false } ∧
      (AtResetValues s → t.status = .running))) ∧
  (∀ (s : State) rest a w, s.schedule = .hostWriteProgram a w :: rest →
    if s.status = .running then step s = .refused .hostWriteDuringRun
    else ∃ t, step s = .next t ∧ t.programWord a = w ∧
      (∀ b, b ≠ a → t.programWord b = s.programWord b) ∧
      t = { s with schedule := rest, pmemHead := t.pmemHead, pmemOpnd := t.pmemOpnd }) ∧
  ∀ (s : State) rest a v, s.schedule = .hostWriteData a v :: rest →
    if s.status = .running then step s = .refused .hostWriteDuringRun
    else ∃ t, step s = .next t ∧ t.readData a = v ∧ SameDataBut a s t ∧
      t = { s with schedule := rest, dmem := t.dmem }

/-- Only the host takes the machine out of `Halted` or `Faulted`, by its reset, which holds the core; and only
its release starts a run. -/
def Obligations.OnlyResetLeavesTheEnd : Prop :=
  ∀ s t, step s = .next t →
    (s.status = .halted ∨ s.status = .faulted →
      if resetNext s = true then t.status = .inReset else t.status = s.status) ∧
    (s.status ≠ .running → t.status = .running → s.status = .inReset ∧ releaseNext s = true)

/-- But for a reset, `OUT` only grows, one byte at a time, when the core runs WR, by the byte of its register.
-/
def Obligations.OutputIsWhatWrEmitted : Prop :=
  ∀ s t, step s = .next t → resetNext s = false →
    t.outStream = s.outStream ∨
      ∃ r, runsNow s = some (.wr r) ∧ s.sinkReady = true ∧ t.outStream = s.outStream ++ [s.reg r]

/-- But for a release, which brings a new run's input, `IN` loses only its first byte, when the core runs RD,
which gets it, and gains only a byte at its end, from the input agent before the input has ended; the end mark
is never taken back. -/
def Obligations.InputIsConsumedInOrder : Prop :=
  ∀ s t, step s = .next t → releaseNext s = false →
    (s.inEnded = true → t.inEnded = true) ∧
    (t.inStream = s.inStream ∨
      (∃ r b, runsNow s = some (.rd r) ∧ s.inStream = b :: t.inStream ∧ t.reg r = b) ∨
      ∃ b, s.nextTurn = .inputByte b ∧ s.inEnded = false ∧ t.inStream = s.inStream ++ [b])

/-! ### Reset, launch and the memories -/

/-- The values the spec gives for the machine after reset: registers, pointer, flags and stack 0 or empty, the
latch clear, `OUT` empty, the core running, and data memory all 0 as when no data file is supplied. -/
def Obligations.ResetValues : Prop :=
  (∀ r, State.reset.reg r = 0#8) ∧ State.reset.pc = 0#8 ∧ State.reset.flags = 0#8 ∧
  State.reset.stack = [] ∧ State.reset.fault = none ∧ State.reset.outStream = [] ∧
  State.reset.status = .running ∧ ∀ a, State.reset.readData a = 0#8

/-- The launch state holds the images, cell for cell, with 0 in the cells they do not cover
(spec/92_eei_decisions.md D21; DESIGN CHOICE, notes/assumptions/18.md), the configuration it is launched with,
everything else as reset leaves it and the launch's own input. Refused are an image that does not fit (U11), a
configuration without a meaning, and a program that contains CALL or RET where there is no call stack (R111). -/
def Obligations.LaunchHoldsTheImages : Prop :=
  ∀ c program data input ended sink,
    (c.valid = true → program.length ≤ 256 → data.length ≤ 256 →
      (c.hasCallStack = true ∨ ∀ a : Byte,
        opcodeField (program.getD a.toNat 0#16) ≠ c.opcodeOf .call ∧
        opcodeField (program.getD a.toNat 0#16) ≠ c.opcodeOf .ret) →
      ∃ s, launch c program data input ended sink = .ok s ∧
        (∀ a, s.programWord a = program.getD a.toNat 0#16) ∧ (∀ a, s.readData a = data.getD a.toNat 0#8) ∧
        s = { State.reset with
          pmemHead := s.pmemHead, pmemOpnd := s.pmemOpnd, dmem := s.dmem, config := c,
          inStream := input, inEnded := ended, sinkReady := sink }) ∧
    (c.valid = true → (256 < program.length ∨ 256 < data.length) →
      launch c program data input ended sink = .error .imageTooLarge) ∧
    (c.valid = true → program.length ≤ 256 → data.length ≤ 256 → c.hasCallStack = false →
      (∃ a : Byte, opcodeField (program.getD a.toNat 0#16) = c.opcodeOf .call ∨
        opcodeField (program.getD a.toNat 0#16) = c.opcodeOf .ret) →
      launch c program data input ended sink = .error .noCallStack) ∧
    (c.valid = false → launch c program data input ended sink = .error .badConfiguration)

/-- The launch as the host performs it, in the order of R130. Images that fit have turns: from every state that
meets the invariant, mid-run included, they hold the core in reset, write all 256 program cells, write all 256
data cells and release reset, and lead to the launch state of those images, or are refused as that launch is.
Images that do not fit have none, as they have no launch (U11, R130): the core never runs on part of one. A
cell no image covers is written with 0 (spec/92_eei_decisions.md D21; DESIGN CHOICE, notes/assumptions/18.md). -/
def Obligations.HostLoadGivesTheLaunch : Prop :=
  ∀ program data input ended,
    (program.length ≤ 256 → data.length ≤ 256 →
      ∃ turns, loadTurns program data input ended = .ok turns ∧ turns.length = 514 ∧
        ∀ (s : State) rest, MachineInv s → s.schedule = turns ++ rest →
          match launch s.config program data input ended s.sinkReady with
          | .ok l => Sys2Proof.core.run 514 s =
              .next { l with schedule := rest, freeTurns := s.freeTurns, turn := s.turn }
          | .error r => Sys2Proof.core.run 514 s = .refused r) ∧
    ((256 < program.length ∨ 256 < data.length) →
      loadTurns program data input ended = .error .imageTooLarge ∧
      ∀ (s : State), MachineInv s →
        launch s.config program data input ended s.sinkReady = .error .imageTooLarge)

/-- A program file gives back the words it was written from, head byte first, operand byte second, and a combined
file of 768 bytes the words and the 256 data bytes after them (spec/92_eei_decisions.md D15). A file that is
too long fails and is never truncated (U11); one that is too short, or stops inside a cell, fails too, which is
the model's choice (DESIGN CHOICE, notes/assumptions/22.md). -/
def Obligations.ImageBytesGiveTheWords : Prop :=
  (∀ ws : List InstrWord, ws.length ≤ 256 →
    wordsOfImage (ws.flatMap fun w => [headByte w, operandField w]) = .ok ws) ∧
  (∀ (ws : List InstrWord) (data : List Byte), ws.length = 256 → data.length = 256 →
    splitImage ((ws.flatMap fun w => [headByte w, operandField w]) ++ data) = .ok (ws, data)) ∧
  ∀ image : List Byte,
    (512 < image.length → wordsOfImage image = .error .imageTooLarge) ∧
    (image.length ≤ 512 → image.length % 2 = 1 → wordsOfImage image = .error .imageIncomplete) ∧
    (∀ ws, wordsOfImage image = .ok ws → image = ws.flatMap fun w => [headByte w, operandField w]) ∧
    (768 < image.length → splitImage image = .error .imageTooLarge) ∧
    (image.length < 768 → splitImage image = .error .imageIncomplete)

/-- Two memories in canonical form that read alike at every address are the same list (the form is the
model's, notes/assumptions/12.md). -/
def Obligations.CanonicalMemoriesAreEqual : Prop :=
  ∀ m m' : Memory, Memory.wf m → Memory.wf m' →
    (∀ a : Byte, Memory.readAt m a.toNat = Memory.readAt m' a.toNat) → m = m'

/-- The parameter values of R6, most of which are the spec's own decisions (D1 to D10,
notes/assumptions/10.md), and what the other values do: a flag that is only ever set, LDR with its fields
exchanged, an unmapped word that acts as NOOP, any end-of-input byte (spec/92_eei_decisions.md D4, D6, D7,
D10). -/
def Obligations.AlternativeParameters : Prop :=
  (State.reset.config.valid = true ∧ State.reset.config =
    { nreg := 4, xlen := 8, pcBits := 8, pmemCells := 256, dmemCells := 256, iw := 16, opcBits := 6,
      hasCallStack := true, stackDepth := 16, hasLdpr := false, opcodeMap := specOpcodeMap,
      unmappedPolicy := .fault, ldrOrientation := .addrReg1DestReg2, flagUpdate := .assign,
      rdEofValue := 0xFF#8 }) ∧
  ∀ (c : Config) (s : State) (r1 r2 : Reg) (b : Byte) (w : InstrWord),
    (c.flagUpdate = .setOnly →
      (s.addInto c r1 b).flags.getLsbD 0 =
        (s.flags.getLsbD 0 || decide (255 < (s.reg r1).toNat + b.toNat)) ∧
      (s.subInto c r1 b).flags.getLsbD 2 =
        (s.flags.getLsbD 2 || decide ((s.reg r1).toNat < b.toNat))) ∧
    (c.ldrOrientation = .destReg1AddrReg2 →
      (s.loadIndirect c r1 r2).reg r1 = s.readData (s.reg r2) ∧
      SameRegsBut r1 s (s.loadIndirect c r1 r2)) ∧
    (c.unmappedPolicy = .noop → s.takeUnmapped c w = { s with pc := s.pc + 1#8 }) ∧
    (s.inStream = [] → s.inputByte c = c.rdEofValue)

/-! ### Invariants, runs and equivalences -/

/-- Every step, whichever agent takes it, keeps the invariant: a configuration with a meaning, canonical memories,
a bounded stack, a precise fault latch, and the reset values in a core held in reset. -/
def Obligations.EveryStepKeepsTheInvariant : Prop :=
  ∀ s t, MachineInv s → step s = .next t → MachineInv t

/-- The reset state meets the invariant. -/
def Obligations.ResetMeetsTheInvariant : Prop := MachineInv State.reset

/-- R40: whatever a run does, program memory is the one it was launched with, as long as no turn of the host
writes it; and the configuration is fixed in every run (R110). -/
def Obligations.ProgramMemoryIsConstant : Prop :=
  ∀ n (s t : State), Sys2Proof.core.run n s = .next t →
    ((∀ u ∈ s.schedule, AgentTurn.writesProgram u = false) → SameProgram s t) ∧ t.config = s.config

/-- Every interleaving is a run, and exactly one (R99, R109): every endless stream of turns of the core, the
interrupt, the input and the output has exactly one run along it from every state; the machine with the first
turns of the stream scheduled goes through that run; and left to the environment's free choices it goes, as
long as the core is running, through the run of their stream (the schedule and the count of choices are the
model's fields, notes/assumptions/5.md). -/
def Obligations.EveryInterleavingIsARun : Prop :=
  (∀ (choices : Nat → FreeTurn) (s : State),
    ∃! states : Nat → State, states 0 = s ∧ IsRun (freeStream choices) states) ∧
  (∀ (choices : Nat → FreeTurn) (states : Nat → State) n, IsRun (freeStream choices) states →
    Sys2Proof.core.run n
      { states 0 with schedule := firstTurns (freeStream choices) n ++ (states 0).schedule } =
        .next (states n)) ∧
  ∀ (states : Nat → State) n, (states 0).schedule = [] → (states 0).freeTurns = true →
    IsRun (freeStream fun k => Config.environment ((states 0).turn + k)) states →
    (∀ k, k < n → (states k).status = .running) →
    Sys2Proof.core.run n (states 0) = .next { states n with turn := (states 0).turn + n }

/-- A run whose instructions never read the interrupt flag has one result whatever that flag was, under every
schedule and every choice of the environment: it goes through states that agree but for the flag, stops for
the same reason, and if it halts the states are equal in every bit, since the halting STFL overwrites the flag. -/
def Obligations.RunsIgnoreTheInterruptFlag : Prop :=
  ∀ n s s', SameButFlagBits interruptBits s s' →
    (∀ k, k < n → ∀ u i, Sys2Proof.core.run k s = .next u → runsNow u = some i →
      readsInterrupt i = false) →
    (∀ r, Sys2Proof.core.run n s = .fault r → Sys2Proof.core.run n s' = .fault r) ∧
    (∀ r, Sys2Proof.core.run n s = .refused r → Sys2Proof.core.run n s' = .refused r) ∧
    ∀ t, Sys2Proof.core.run n s = .next t → ∃ t', Sys2Proof.core.run n s' = .next t' ∧
      SameButFlagBits interruptBits t t' ∧
      (s.status = .running → t.flag .halt = true → t' = t)

/-- The control table (R105 to R107) drives the datapath to exactly what the instruction rules say, for every
instruction, in every state and at every configuration (LDPR, without a row, as an unmapped opcode). -/
def Obligations.ControlBundleAgreesWithRules : Prop :=
  ∀ i s, exec i s = execByControl s.config i s
end

