-- ==== Sys2Proof/Laws/Alu.lean ====
section
/-!
SUPPORT. What each ALU function computes, in numbers or in bits.
-/

namespace Sys2Proof.Machine

@[simp] theorem toNat_trunc8 (n : Nat) : (trunc8 n).toNat = n % 256 := by
  simp [trunc8]

theorem toNat_alu_add (a b : Byte) : (alu .add a b).toNat = (a.toNat + b.toNat) % 256 := by
  simp [alu]

/-- The absolute difference always fits: it is never cut. -/
theorem toNat_alu_subAbs (a b : Byte) :
    (alu .subAbs a b).toNat = ((a.toNat : Int) - (b.toNat : Int)).natAbs := by
  have ha := a.isLt; have hb := b.isLt
  simp only [alu, toNat_trunc8]
  omega

theorem toNat_alu_not (a b : Byte) : (alu .not a b).toNat = 255 - a.toNat := by
  have h : a ^^^ 0xFF#8 = ~~~a := by
    apply BitVec.eq_of_getLsbD_eq
    intro i hi
    interval_cases i <;> simp
  simp only [alu, h, BitVec.toNat_not]

theorem toNat_alu_shl (a b : Byte) : (alu .shl a b).toNat = 2 * a.toNat % 256 := by
  simp [alu]

theorem toNat_alu_shr (a b : Byte) : (alu .shr a b).toNat = a.toNat / 2 := by
  have ha := a.isLt
  simp only [alu, toNat_trunc8]
  omega

theorem getLsbD_alu_and (a b : Byte) (i : Nat) :
    (alu .and a b).getLsbD i = (a.getLsbD i && b.getLsbD i) := by simp [alu]

theorem getLsbD_alu_or (a b : Byte) (i : Nat) :
    (alu .or a b).getLsbD i = (a.getLsbD i || b.getLsbD i) := by simp [alu]

theorem getLsbD_alu_xor (a b : Byte) (i : Nat) :
    (alu .xor a b).getLsbD i = (a.getLsbD i ^^ b.getLsbD i) := by simp [alu]

/-- The sign of a difference is the comparison of its operands. -/
theorem differenceNegative_eq (a b : Byte) : differenceNegative a b = decide (a.toNat < b.toNat) := by
  simp only [differenceNegative, decide_eq_decide]
  omega

end Sys2Proof.Machine
end

