-- ==== Sys2Proof/Laws/State.lean ====
section
/-!
SUPPORT. One lemma per field per update of the state, true by unfolding the update once, so that no later
proof unfolds a record update.
-/

namespace Sys2Proof.Machine

/-! ### setReg -/

@[simp] theorem State.setReg_x (s : State) (r : Reg) (v : Byte) : (s.setReg r v).x = s.x.set r v := rfl
@[simp] theorem State.setReg_pc (s : State) (r : Reg) (v : Byte) : (s.setReg r v).pc = s.pc := rfl
@[simp] theorem State.setReg_flags (s : State) (r : Reg) (v : Byte) : (s.setReg r v).flags = s.flags := rfl
@[simp] theorem State.setReg_stack (s : State) (r : Reg) (v : Byte) : (s.setReg r v).stack = s.stack := rfl
@[simp] theorem State.setReg_fault (s : State) (r : Reg) (v : Byte) : (s.setReg r v).fault = s.fault := rfl
@[simp] theorem State.setReg_pmemHead (s : State) (r : Reg) (v : Byte) : (s.setReg r v).pmemHead = s.pmemHead := rfl
@[simp] theorem State.setReg_pmemOpnd (s : State) (r : Reg) (v : Byte) : (s.setReg r v).pmemOpnd = s.pmemOpnd := rfl
@[simp] theorem State.setReg_dmem (s : State) (r : Reg) (v : Byte) : (s.setReg r v).dmem = s.dmem := rfl
@[simp] theorem State.setReg_inStream (s : State) (r : Reg) (v : Byte) : (s.setReg r v).inStream = s.inStream := rfl
@[simp] theorem State.setReg_inEnded (s : State) (r : Reg) (v : Byte) : (s.setReg r v).inEnded = s.inEnded := rfl
@[simp] theorem State.setReg_outStream (s : State) (r : Reg) (v : Byte) : (s.setReg r v).outStream = s.outStream := rfl
@[simp] theorem State.setReg_sinkReady (s : State) (r : Reg) (v : Byte) : (s.setReg r v).sinkReady = s.sinkReady := rfl
@[simp] theorem State.setReg_inReset (s : State) (r : Reg) (v : Byte) : (s.setReg r v).inReset = s.inReset := rfl
@[simp] theorem State.setReg_config (s : State) (r : Reg) (v : Byte) : (s.setReg r v).config = s.config := rfl
@[simp] theorem State.setReg_schedule (s : State) (r : Reg) (v : Byte) : (s.setReg r v).schedule = s.schedule := rfl
@[simp] theorem State.setReg_freeTurns (s : State) (r : Reg) (v : Byte) : (s.setReg r v).freeTurns = s.freeTurns := rfl
@[simp] theorem State.setReg_turn (s : State) (r : Reg) (v : Byte) : (s.setReg r v).turn = s.turn := rfl

/-! ### writeData -/

@[simp] theorem State.writeData_x (s : State) (a v : Byte) : (s.writeData a v).x = s.x := rfl
@[simp] theorem State.writeData_pc (s : State) (a v : Byte) : (s.writeData a v).pc = s.pc := rfl
@[simp] theorem State.writeData_flags (s : State) (a v : Byte) : (s.writeData a v).flags = s.flags := rfl
@[simp] theorem State.writeData_stack (s : State) (a v : Byte) : (s.writeData a v).stack = s.stack := rfl
@[simp] theorem State.writeData_fault (s : State) (a v : Byte) : (s.writeData a v).fault = s.fault := rfl
@[simp] theorem State.writeData_pmemHead (s : State) (a v : Byte) : (s.writeData a v).pmemHead = s.pmemHead := rfl
@[simp] theorem State.writeData_pmemOpnd (s : State) (a v : Byte) : (s.writeData a v).pmemOpnd = s.pmemOpnd := rfl
@[simp] theorem State.writeData_dmem (s : State) (a v : Byte) : (s.writeData a v).dmem = Memory.writeAt s.dmem a.toNat v := rfl
@[simp] theorem State.writeData_inStream (s : State) (a v : Byte) : (s.writeData a v).inStream = s.inStream := rfl
@[simp] theorem State.writeData_inEnded (s : State) (a v : Byte) : (s.writeData a v).inEnded = s.inEnded := rfl
@[simp] theorem State.writeData_outStream (s : State) (a v : Byte) : (s.writeData a v).outStream = s.outStream := rfl
@[simp] theorem State.writeData_sinkReady (s : State) (a v : Byte) : (s.writeData a v).sinkReady = s.sinkReady := rfl
@[simp] theorem State.writeData_inReset (s : State) (a v : Byte) : (s.writeData a v).inReset = s.inReset := rfl
@[simp] theorem State.writeData_config (s : State) (a v : Byte) : (s.writeData a v).config = s.config := rfl
@[simp] theorem State.writeData_schedule (s : State) (a v : Byte) : (s.writeData a v).schedule = s.schedule := rfl
@[simp] theorem State.writeData_freeTurns (s : State) (a v : Byte) : (s.writeData a v).freeTurns = s.freeTurns := rfl
@[simp] theorem State.writeData_turn (s : State) (a v : Byte) : (s.writeData a v).turn = s.turn := rfl

/-! ### placeWord -/

@[simp] theorem State.placeWord_x (s : State) (a : Byte) (w : InstrWord) : (s.placeWord a w).x = s.x := rfl
@[simp] theorem State.placeWord_pc (s : State) (a : Byte) (w : InstrWord) : (s.placeWord a w).pc = s.pc := rfl
@[simp] theorem State.placeWord_flags (s : State) (a : Byte) (w : InstrWord) : (s.placeWord a w).flags = s.flags := rfl
@[simp] theorem State.placeWord_stack (s : State) (a : Byte) (w : InstrWord) : (s.placeWord a w).stack = s.stack := rfl
@[simp] theorem State.placeWord_fault (s : State) (a : Byte) (w : InstrWord) : (s.placeWord a w).fault = s.fault := rfl
@[simp] theorem State.placeWord_pmemHead (s : State) (a : Byte) (w : InstrWord) : (s.placeWord a w).pmemHead = Memory.writeAt s.pmemHead a.toNat (headByte w) := rfl
@[simp] theorem State.placeWord_pmemOpnd (s : State) (a : Byte) (w : InstrWord) : (s.placeWord a w).pmemOpnd = Memory.writeAt s.pmemOpnd a.toNat (operandField w) := rfl
@[simp] theorem State.placeWord_dmem (s : State) (a : Byte) (w : InstrWord) : (s.placeWord a w).dmem = s.dmem := rfl
@[simp] theorem State.placeWord_inStream (s : State) (a : Byte) (w : InstrWord) : (s.placeWord a w).inStream = s.inStream := rfl
@[simp] theorem State.placeWord_inEnded (s : State) (a : Byte) (w : InstrWord) : (s.placeWord a w).inEnded = s.inEnded := rfl
@[simp] theorem State.placeWord_outStream (s : State) (a : Byte) (w : InstrWord) : (s.placeWord a w).outStream = s.outStream := rfl
@[simp] theorem State.placeWord_sinkReady (s : State) (a : Byte) (w : InstrWord) : (s.placeWord a w).sinkReady = s.sinkReady := rfl
@[simp] theorem State.placeWord_inReset (s : State) (a : Byte) (w : InstrWord) : (s.placeWord a w).inReset = s.inReset := rfl
@[simp] theorem State.placeWord_config (s : State) (a : Byte) (w : InstrWord) : (s.placeWord a w).config = s.config := rfl
@[simp] theorem State.placeWord_schedule (s : State) (a : Byte) (w : InstrWord) : (s.placeWord a w).schedule = s.schedule := rfl
@[simp] theorem State.placeWord_freeTurns (s : State) (a : Byte) (w : InstrWord) : (s.placeWord a w).freeTurns = s.freeTurns := rfl
@[simp] theorem State.placeWord_turn (s : State) (a : Byte) (w : InstrWord) : (s.placeWord a w).turn = s.turn := rfl

/-! ### setPc -/

@[simp] theorem State.setPc_x (s : State) (t : Byte) : (s.setPc t).x = s.x := rfl
@[simp] theorem State.setPc_pc (s : State) (t : Byte) : (s.setPc t).pc = t := rfl
@[simp] theorem State.setPc_flags (s : State) (t : Byte) : (s.setPc t).flags = s.flags := rfl
@[simp] theorem State.setPc_stack (s : State) (t : Byte) : (s.setPc t).stack = s.stack := rfl
@[simp] theorem State.setPc_fault (s : State) (t : Byte) : (s.setPc t).fault = s.fault := rfl
@[simp] theorem State.setPc_pmemHead (s : State) (t : Byte) : (s.setPc t).pmemHead = s.pmemHead := rfl
@[simp] theorem State.setPc_pmemOpnd (s : State) (t : Byte) : (s.setPc t).pmemOpnd = s.pmemOpnd := rfl
@[simp] theorem State.setPc_dmem (s : State) (t : Byte) : (s.setPc t).dmem = s.dmem := rfl
@[simp] theorem State.setPc_inStream (s : State) (t : Byte) : (s.setPc t).inStream = s.inStream := rfl
@[simp] theorem State.setPc_inEnded (s : State) (t : Byte) : (s.setPc t).inEnded = s.inEnded := rfl
@[simp] theorem State.setPc_outStream (s : State) (t : Byte) : (s.setPc t).outStream = s.outStream := rfl
@[simp] theorem State.setPc_sinkReady (s : State) (t : Byte) : (s.setPc t).sinkReady = s.sinkReady := rfl
@[simp] theorem State.setPc_inReset (s : State) (t : Byte) : (s.setPc t).inReset = s.inReset := rfl
@[simp] theorem State.setPc_config (s : State) (t : Byte) : (s.setPc t).config = s.config := rfl
@[simp] theorem State.setPc_schedule (s : State) (t : Byte) : (s.setPc t).schedule = s.schedule := rfl
@[simp] theorem State.setPc_freeTurns (s : State) (t : Byte) : (s.setPc t).freeTurns = s.freeTurns := rfl
@[simp] theorem State.setPc_turn (s : State) (t : Byte) : (s.setPc t).turn = s.turn := rfl

/-! ### advance -/

@[simp] theorem State.advance_x (s : State) : s.advance.x = s.x := rfl
@[simp] theorem State.advance_flags (s : State) : s.advance.flags = s.flags := rfl
@[simp] theorem State.advance_stack (s : State) : s.advance.stack = s.stack := rfl
@[simp] theorem State.advance_fault (s : State) : s.advance.fault = s.fault := rfl
@[simp] theorem State.advance_pmemHead (s : State) : s.advance.pmemHead = s.pmemHead := rfl
@[simp] theorem State.advance_pmemOpnd (s : State) : s.advance.pmemOpnd = s.pmemOpnd := rfl
@[simp] theorem State.advance_dmem (s : State) : s.advance.dmem = s.dmem := rfl
@[simp] theorem State.advance_inStream (s : State) : s.advance.inStream = s.inStream := rfl
@[simp] theorem State.advance_inEnded (s : State) : s.advance.inEnded = s.inEnded := rfl
@[simp] theorem State.advance_outStream (s : State) : s.advance.outStream = s.outStream := rfl
@[simp] theorem State.advance_sinkReady (s : State) : s.advance.sinkReady = s.sinkReady := rfl
@[simp] theorem State.advance_inReset (s : State) : s.advance.inReset = s.inReset := rfl
@[simp] theorem State.advance_config (s : State) : s.advance.config = s.config := rfl
@[simp] theorem State.advance_schedule (s : State) : s.advance.schedule = s.schedule := rfl
@[simp] theorem State.advance_freeTurns (s : State) : s.advance.freeTurns = s.freeTurns := rfl
@[simp] theorem State.advance_turn (s : State) : s.advance.turn = s.turn := rfl

/-! ### setFlags -/

@[simp] theorem State.setFlags_x (s : State) (f : Byte) : (s.setFlags f).x = s.x := rfl
@[simp] theorem State.setFlags_pc (s : State) (f : Byte) : (s.setFlags f).pc = s.pc := rfl
@[simp] theorem State.setFlags_flags (s : State) (f : Byte) : (s.setFlags f).flags = f := rfl
@[simp] theorem State.setFlags_stack (s : State) (f : Byte) : (s.setFlags f).stack = s.stack := rfl
@[simp] theorem State.setFlags_fault (s : State) (f : Byte) : (s.setFlags f).fault = s.fault := rfl
@[simp] theorem State.setFlags_pmemHead (s : State) (f : Byte) : (s.setFlags f).pmemHead = s.pmemHead := rfl
@[simp] theorem State.setFlags_pmemOpnd (s : State) (f : Byte) : (s.setFlags f).pmemOpnd = s.pmemOpnd := rfl
@[simp] theorem State.setFlags_dmem (s : State) (f : Byte) : (s.setFlags f).dmem = s.dmem := rfl
@[simp] theorem State.setFlags_inStream (s : State) (f : Byte) : (s.setFlags f).inStream = s.inStream := rfl
@[simp] theorem State.setFlags_inEnded (s : State) (f : Byte) : (s.setFlags f).inEnded = s.inEnded := rfl
@[simp] theorem State.setFlags_outStream (s : State) (f : Byte) : (s.setFlags f).outStream = s.outStream := rfl
@[simp] theorem State.setFlags_sinkReady (s : State) (f : Byte) : (s.setFlags f).sinkReady = s.sinkReady := rfl
@[simp] theorem State.setFlags_inReset (s : State) (f : Byte) : (s.setFlags f).inReset = s.inReset := rfl
@[simp] theorem State.setFlags_config (s : State) (f : Byte) : (s.setFlags f).config = s.config := rfl
@[simp] theorem State.setFlags_schedule (s : State) (f : Byte) : (s.setFlags f).schedule = s.schedule := rfl
@[simp] theorem State.setFlags_freeTurns (s : State) (f : Byte) : (s.setFlags f).freeTurns = s.freeTurns := rfl
@[simp] theorem State.setFlags_turn (s : State) (f : Byte) : (s.setFlags f).turn = s.turn := rfl

/-! ### push -/

@[simp] theorem State.push_x (s : State) (c : Config) (a : Byte) : (s.push c a).x = s.x := rfl
@[simp] theorem State.push_pc (s : State) (c : Config) (a : Byte) : (s.push c a).pc = s.pc := rfl
@[simp] theorem State.push_flags (s : State) (c : Config) (a : Byte) : (s.push c a).flags = s.flags := rfl
@[simp] theorem State.push_stack (s : State) (c : Config) (a : Byte) : (s.push c a).stack = pushEntry c.stackDepth s.stack a := rfl
@[simp] theorem State.push_fault (s : State) (c : Config) (a : Byte) : (s.push c a).fault = s.fault := rfl
@[simp] theorem State.push_pmemHead (s : State) (c : Config) (a : Byte) : (s.push c a).pmemHead = s.pmemHead := rfl
@[simp] theorem State.push_pmemOpnd (s : State) (c : Config) (a : Byte) : (s.push c a).pmemOpnd = s.pmemOpnd := rfl
@[simp] theorem State.push_dmem (s : State) (c : Config) (a : Byte) : (s.push c a).dmem = s.dmem := rfl
@[simp] theorem State.push_inStream (s : State) (c : Config) (a : Byte) : (s.push c a).inStream = s.inStream := rfl
@[simp] theorem State.push_inEnded (s : State) (c : Config) (a : Byte) : (s.push c a).inEnded = s.inEnded := rfl
@[simp] theorem State.push_outStream (s : State) (c : Config) (a : Byte) : (s.push c a).outStream = s.outStream := rfl
@[simp] theorem State.push_sinkReady (s : State) (c : Config) (a : Byte) : (s.push c a).sinkReady = s.sinkReady := rfl
@[simp] theorem State.push_inReset (s : State) (c : Config) (a : Byte) : (s.push c a).inReset = s.inReset := rfl
@[simp] theorem State.push_config (s : State) (c : Config) (a : Byte) : (s.push c a).config = s.config := rfl
@[simp] theorem State.push_schedule (s : State) (c : Config) (a : Byte) : (s.push c a).schedule = s.schedule := rfl
@[simp] theorem State.push_freeTurns (s : State) (c : Config) (a : Byte) : (s.push c a).freeTurns = s.freeTurns := rfl
@[simp] theorem State.push_turn (s : State) (c : Config) (a : Byte) : (s.push c a).turn = s.turn := rfl

/-! ### popped -/

@[simp] theorem State.popped_x (s : State) : s.popped.x = s.x := rfl
@[simp] theorem State.popped_pc (s : State) : s.popped.pc = s.pc := rfl
@[simp] theorem State.popped_flags (s : State) : s.popped.flags = s.flags := rfl
@[simp] theorem State.popped_stack (s : State) : s.popped.stack = s.stack.dropLast := rfl
@[simp] theorem State.popped_fault (s : State) : s.popped.fault = s.fault := rfl
@[simp] theorem State.popped_pmemHead (s : State) : s.popped.pmemHead = s.pmemHead := rfl
@[simp] theorem State.popped_pmemOpnd (s : State) : s.popped.pmemOpnd = s.pmemOpnd := rfl
@[simp] theorem State.popped_dmem (s : State) : s.popped.dmem = s.dmem := rfl
@[simp] theorem State.popped_inStream (s : State) : s.popped.inStream = s.inStream := rfl
@[simp] theorem State.popped_inEnded (s : State) : s.popped.inEnded = s.inEnded := rfl
@[simp] theorem State.popped_outStream (s : State) : s.popped.outStream = s.outStream := rfl
@[simp] theorem State.popped_sinkReady (s : State) : s.popped.sinkReady = s.sinkReady := rfl
@[simp] theorem State.popped_inReset (s : State) : s.popped.inReset = s.inReset := rfl
@[simp] theorem State.popped_config (s : State) : s.popped.config = s.config := rfl
@[simp] theorem State.popped_schedule (s : State) : s.popped.schedule = s.schedule := rfl
@[simp] theorem State.popped_freeTurns (s : State) : s.popped.freeTurns = s.freeTurns := rfl
@[simp] theorem State.popped_turn (s : State) : s.popped.turn = s.turn := rfl

/-! ### emit -/

@[simp] theorem State.emit_x (s : State) (b : Byte) : (s.emit b).x = s.x := rfl
@[simp] theorem State.emit_pc (s : State) (b : Byte) : (s.emit b).pc = s.pc := rfl
@[simp] theorem State.emit_flags (s : State) (b : Byte) : (s.emit b).flags = s.flags := rfl
@[simp] theorem State.emit_stack (s : State) (b : Byte) : (s.emit b).stack = s.stack := rfl
@[simp] theorem State.emit_fault (s : State) (b : Byte) : (s.emit b).fault = s.fault := rfl
@[simp] theorem State.emit_pmemHead (s : State) (b : Byte) : (s.emit b).pmemHead = s.pmemHead := rfl
@[simp] theorem State.emit_pmemOpnd (s : State) (b : Byte) : (s.emit b).pmemOpnd = s.pmemOpnd := rfl
@[simp] theorem State.emit_dmem (s : State) (b : Byte) : (s.emit b).dmem = s.dmem := rfl
@[simp] theorem State.emit_inStream (s : State) (b : Byte) : (s.emit b).inStream = s.inStream := rfl
@[simp] theorem State.emit_inEnded (s : State) (b : Byte) : (s.emit b).inEnded = s.inEnded := rfl
@[simp] theorem State.emit_outStream (s : State) (b : Byte) : (s.emit b).outStream = s.outStream ++ [b] := rfl
@[simp] theorem State.emit_sinkReady (s : State) (b : Byte) : (s.emit b).sinkReady = s.sinkReady := rfl
@[simp] theorem State.emit_inReset (s : State) (b : Byte) : (s.emit b).inReset = s.inReset := rfl
@[simp] theorem State.emit_config (s : State) (b : Byte) : (s.emit b).config = s.config := rfl
@[simp] theorem State.emit_schedule (s : State) (b : Byte) : (s.emit b).schedule = s.schedule := rfl
@[simp] theorem State.emit_freeTurns (s : State) (b : Byte) : (s.emit b).freeTurns = s.freeTurns := rfl
@[simp] theorem State.emit_turn (s : State) (b : Byte) : (s.emit b).turn = s.turn := rfl

/-! ### consumeInput -/

@[simp] theorem State.consumeInput_x (s : State) : s.consumeInput.x = s.x := rfl
@[simp] theorem State.consumeInput_pc (s : State) : s.consumeInput.pc = s.pc := rfl
@[simp] theorem State.consumeInput_flags (s : State) : s.consumeInput.flags = s.flags := rfl
@[simp] theorem State.consumeInput_stack (s : State) : s.consumeInput.stack = s.stack := rfl
@[simp] theorem State.consumeInput_fault (s : State) : s.consumeInput.fault = s.fault := rfl
@[simp] theorem State.consumeInput_pmemHead (s : State) : s.consumeInput.pmemHead = s.pmemHead := rfl
@[simp] theorem State.consumeInput_pmemOpnd (s : State) : s.consumeInput.pmemOpnd = s.pmemOpnd := rfl
@[simp] theorem State.consumeInput_dmem (s : State) : s.consumeInput.dmem = s.dmem := rfl
@[simp] theorem State.consumeInput_inStream (s : State) : s.consumeInput.inStream = s.inStream.tail := rfl
@[simp] theorem State.consumeInput_inEnded (s : State) : s.consumeInput.inEnded = s.inEnded := rfl
@[simp] theorem State.consumeInput_outStream (s : State) : s.consumeInput.outStream = s.outStream := rfl
@[simp] theorem State.consumeInput_sinkReady (s : State) : s.consumeInput.sinkReady = s.sinkReady := rfl
@[simp] theorem State.consumeInput_inReset (s : State) : s.consumeInput.inReset = s.inReset := rfl
@[simp] theorem State.consumeInput_config (s : State) : s.consumeInput.config = s.config := rfl
@[simp] theorem State.consumeInput_schedule (s : State) : s.consumeInput.schedule = s.schedule := rfl
@[simp] theorem State.consumeInput_freeTurns (s : State) : s.consumeInput.freeTurns = s.freeTurns := rfl
@[simp] theorem State.consumeInput_turn (s : State) : s.consumeInput.turn = s.turn := rfl

/-! ### raiseDecodeError -/

@[simp] theorem State.raiseDecodeError_x (s : State) (w : InstrWord) : (s.raiseDecodeError w).x = s.x := rfl
@[simp] theorem State.raiseDecodeError_pc (s : State) (w : InstrWord) : (s.raiseDecodeError w).pc = s.pc := rfl
@[simp] theorem State.raiseDecodeError_flags (s : State) (w : InstrWord) : (s.raiseDecodeError w).flags = s.flags := rfl
@[simp] theorem State.raiseDecodeError_stack (s : State) (w : InstrWord) : (s.raiseDecodeError w).stack = s.stack := rfl
@[simp] theorem State.raiseDecodeError_fault (s : State) (w : InstrWord) : (s.raiseDecodeError w).fault = some (s.pc, w) := rfl
@[simp] theorem State.raiseDecodeError_pmemHead (s : State) (w : InstrWord) : (s.raiseDecodeError w).pmemHead = s.pmemHead := rfl
@[simp] theorem State.raiseDecodeError_pmemOpnd (s : State) (w : InstrWord) : (s.raiseDecodeError w).pmemOpnd = s.pmemOpnd := rfl
@[simp] theorem State.raiseDecodeError_dmem (s : State) (w : InstrWord) : (s.raiseDecodeError w).dmem = s.dmem := rfl
@[simp] theorem State.raiseDecodeError_inStream (s : State) (w : InstrWord) : (s.raiseDecodeError w).inStream = s.inStream := rfl
@[simp] theorem State.raiseDecodeError_inEnded (s : State) (w : InstrWord) : (s.raiseDecodeError w).inEnded = s.inEnded := rfl
@[simp] theorem State.raiseDecodeError_outStream (s : State) (w : InstrWord) : (s.raiseDecodeError w).outStream = s.outStream := rfl
@[simp] theorem State.raiseDecodeError_sinkReady (s : State) (w : InstrWord) : (s.raiseDecodeError w).sinkReady = s.sinkReady := rfl
@[simp] theorem State.raiseDecodeError_inReset (s : State) (w : InstrWord) : (s.raiseDecodeError w).inReset = s.inReset := rfl
@[simp] theorem State.raiseDecodeError_config (s : State) (w : InstrWord) : (s.raiseDecodeError w).config = s.config := rfl
@[simp] theorem State.raiseDecodeError_schedule (s : State) (w : InstrWord) : (s.raiseDecodeError w).schedule = s.schedule := rfl
@[simp] theorem State.raiseDecodeError_freeTurns (s : State) (w : InstrWord) : (s.raiseDecodeError w).freeTurns = s.freeTurns := rfl
@[simp] theorem State.raiseDecodeError_turn (s : State) (w : InstrWord) : (s.raiseDecodeError w).turn = s.turn := rfl

/-! ### applyReset -/

@[simp] theorem State.applyReset_x (s : State) : s.applyReset.x = ⟨0#8, 0#8, 0#8, 0#8⟩ := rfl
@[simp] theorem State.applyReset_pc (s : State) : s.applyReset.pc = 0#8 := rfl
@[simp] theorem State.applyReset_flags (s : State) : s.applyReset.flags = 0#8 := rfl
@[simp] theorem State.applyReset_stack (s : State) : s.applyReset.stack = [] := rfl
@[simp] theorem State.applyReset_fault (s : State) : s.applyReset.fault = none := rfl
@[simp] theorem State.applyReset_pmemHead (s : State) : s.applyReset.pmemHead = s.pmemHead := rfl
@[simp] theorem State.applyReset_pmemOpnd (s : State) : s.applyReset.pmemOpnd = s.pmemOpnd := rfl
@[simp] theorem State.applyReset_dmem (s : State) : s.applyReset.dmem = s.dmem := rfl
@[simp] theorem State.applyReset_inStream (s : State) : s.applyReset.inStream = s.inStream := rfl
@[simp] theorem State.applyReset_inEnded (s : State) : s.applyReset.inEnded = s.inEnded := rfl
@[simp] theorem State.applyReset_outStream (s : State) : s.applyReset.outStream = [] := rfl
@[simp] theorem State.applyReset_inReset (s : State) : s.applyReset.inReset = true := rfl
@[simp] theorem State.applyReset_config (s : State) : s.applyReset.config = s.config := rfl
@[simp] theorem State.applyReset_sinkReady (s : State) : s.applyReset.sinkReady = s.sinkReady := rfl
@[simp] theorem State.applyReset_schedule (s : State) : s.applyReset.schedule = s.schedule := rfl
@[simp] theorem State.applyReset_freeTurns (s : State) : s.applyReset.freeTurns = s.freeTurns := rfl
@[simp] theorem State.applyReset_turn (s : State) : s.applyReset.turn = s.turn := rfl

/-! ### release -/

@[simp] theorem State.release_x (s : State) (i : List Byte) (e : Bool) : (s.release i e).x = s.x := rfl
@[simp] theorem State.release_pc (s : State) (i : List Byte) (e : Bool) : (s.release i e).pc = s.pc := rfl
@[simp] theorem State.release_flags (s : State) (i : List Byte) (e : Bool) : (s.release i e).flags = s.flags := rfl
@[simp] theorem State.release_stack (s : State) (i : List Byte) (e : Bool) : (s.release i e).stack = s.stack := rfl
@[simp] theorem State.release_fault (s : State) (i : List Byte) (e : Bool) : (s.release i e).fault = s.fault := rfl
@[simp] theorem State.release_pmemHead (s : State) (i : List Byte) (e : Bool) : (s.release i e).pmemHead = s.pmemHead := rfl
@[simp] theorem State.release_pmemOpnd (s : State) (i : List Byte) (e : Bool) : (s.release i e).pmemOpnd = s.pmemOpnd := rfl
@[simp] theorem State.release_dmem (s : State) (i : List Byte) (e : Bool) : (s.release i e).dmem = s.dmem := rfl
@[simp] theorem State.release_inStream (s : State) (i : List Byte) (e : Bool) : (s.release i e).inStream = i := rfl
@[simp] theorem State.release_inEnded (s : State) (i : List Byte) (e : Bool) : (s.release i e).inEnded = e := rfl
@[simp] theorem State.release_outStream (s : State) (i : List Byte) (e : Bool) : (s.release i e).outStream = s.outStream := rfl
@[simp] theorem State.release_inReset (s : State) (i : List Byte) (e : Bool) : (s.release i e).inReset = false := rfl
@[simp] theorem State.release_config (s : State) (i : List Byte) (e : Bool) : (s.release i e).config = s.config := rfl
@[simp] theorem State.release_sinkReady (s : State) (i : List Byte) (e : Bool) : (s.release i e).sinkReady = s.sinkReady := rfl
@[simp] theorem State.release_schedule (s : State) (i : List Byte) (e : Bool) : (s.release i e).schedule = s.schedule := rfl
@[simp] theorem State.release_freeTurns (s : State) (i : List Byte) (e : Bool) : (s.release i e).freeTurns = s.freeTurns := rfl
@[simp] theorem State.release_turn (s : State) (i : List Byte) (e : Bool) : (s.release i e).turn = s.turn := rfl

/-! ### restart -/

@[simp] theorem State.restart_x (s : State) (i : List Byte) (e : Bool) : (s.restart i e).x = ⟨0#8, 0#8, 0#8, 0#8⟩ := rfl
@[simp] theorem State.restart_pc (s : State) (i : List Byte) (e : Bool) : (s.restart i e).pc = 0#8 := rfl
@[simp] theorem State.restart_flags (s : State) (i : List Byte) (e : Bool) : (s.restart i e).flags = 0#8 := rfl
@[simp] theorem State.restart_stack (s : State) (i : List Byte) (e : Bool) : (s.restart i e).stack = [] := rfl
@[simp] theorem State.restart_fault (s : State) (i : List Byte) (e : Bool) : (s.restart i e).fault = none := rfl
@[simp] theorem State.restart_pmemHead (s : State) (i : List Byte) (e : Bool) : (s.restart i e).pmemHead = s.pmemHead := rfl
@[simp] theorem State.restart_pmemOpnd (s : State) (i : List Byte) (e : Bool) : (s.restart i e).pmemOpnd = s.pmemOpnd := rfl
@[simp] theorem State.restart_dmem (s : State) (i : List Byte) (e : Bool) : (s.restart i e).dmem = s.dmem := rfl
@[simp] theorem State.restart_inStream (s : State) (i : List Byte) (e : Bool) : (s.restart i e).inStream = i := rfl
@[simp] theorem State.restart_inEnded (s : State) (i : List Byte) (e : Bool) : (s.restart i e).inEnded = e := rfl
@[simp] theorem State.restart_outStream (s : State) (i : List Byte) (e : Bool) : (s.restart i e).outStream = [] := rfl
@[simp] theorem State.restart_sinkReady (s : State) (i : List Byte) (e : Bool) : (s.restart i e).sinkReady = s.sinkReady := rfl
@[simp] theorem State.restart_inReset (s : State) (i : List Byte) (e : Bool) : (s.restart i e).inReset = false := rfl
@[simp] theorem State.restart_config (s : State) (i : List Byte) (e : Bool) : (s.restart i e).config = s.config := rfl
@[simp] theorem State.restart_schedule (s : State) (i : List Byte) (e : Bool) : (s.restart i e).schedule = s.schedule := rfl
@[simp] theorem State.restart_freeTurns (s : State) (i : List Byte) (e : Bool) : (s.restart i e).freeTurns = s.freeTurns := rfl
@[simp] theorem State.restart_turn (s : State) (i : List Byte) (e : Bool) : (s.restart i e).turn = s.turn := rfl

/-- The increment of the pointer, in the arithmetic of bytes. -/
@[simp] theorem trunc8_toNat_add_one (b : Byte) : trunc8 (b.toNat + 1) = b + 1#8 := by
  apply BitVec.eq_of_toNat_eq
  simp [trunc8, BitVec.toNat_add]

@[simp] theorem State.advance_pc (s : State) : s.advance.pc = s.pc + 1#8 := trunc8_toNat_add_one s.pc

end Sys2Proof.Machine
end

