-- ==== Sys2Proof/Laws/Flags.lean ====
section
/-!
SUPPORT. The bits of a flags byte after each flag operation.
-/

namespace Sys2Proof.Machine

theorem Flag.getLsbD_mask (k : Flag) {i : Nat} (hi : i < 8) :
    k.mask.getLsbD i = decide (i = k.index) := by
  cases k <;> interval_cases i <;> rfl

theorem Flag.index_lt (k : Flag) : k.index < 8 := by cases k <;> decide

@[simp] theorem getLsbD_setFlag_self (f : Byte) (k : Flag) : (setFlag f k).getLsbD k.index = true := by
  simp [setFlag, Flag.getLsbD_mask k k.index_lt]

theorem getLsbD_setFlag_of_ne (f : Byte) {k : Flag} {i : Nat} (hi : i < 8) (h : i ≠ k.index) :
    (setFlag f k).getLsbD i = f.getLsbD i := by
  simp [setFlag, Flag.getLsbD_mask k hi, h]

@[simp] theorem getLsbD_clearFlag_self (f : Byte) (k : Flag) :
    (clearFlag f k).getLsbD k.index = false := by
  simp [clearFlag, Flag.getLsbD_mask k k.index_lt, k.index_lt]

theorem getLsbD_clearFlag_of_ne (f : Byte) {k : Flag} {i : Nat} (hi : i < 8) (h : i ≠ k.index) :
    (clearFlag f k).getLsbD i = f.getLsbD i := by
  rw [clearFlag, BitVec.getLsbD_and, BitVec.getLsbD_not, Flag.getLsbD_mask k hi]
  simp [h, hi]

/-- The flag after an assigning update is the condition. -/
@[simp] theorem getLsbD_updateFlag_assign (f : Byte) (k : Flag) (b : Bool) :
    (updateFlag .assign f k b).getLsbD k.index = b := by
  cases b <;> simp [updateFlag]

/-- The flag after a set-only update is the old flag or the condition. -/
@[simp] theorem getLsbD_updateFlag_setOnly (f : Byte) (k : Flag) (b : Bool) :
    (updateFlag .setOnly f k b).getLsbD k.index = (f.getLsbD k.index || b) := by
  cases b <;> simp [updateFlag]

/-- The flag after an update, under both values of `FLAG_UPDATE`. -/
theorem getLsbD_updateFlag_self (u : FlagUpdate) (f : Byte) (k : Flag) (b : Bool) :
    (updateFlag u f k b).getLsbD k.index = (b || (u == .setOnly && f.getLsbD k.index)) := by
  cases u
  · simp
  · rw [getLsbD_updateFlag_setOnly, Bool.or_comm]; simp

/-- An update of one flag leaves every other bit, whatever `FLAG_UPDATE` is. -/
theorem getLsbD_updateFlag_of_ne (u : FlagUpdate) (f : Byte) {k : Flag} (b : Bool) {i : Nat}
    (hi : i < 8) (h : i ≠ k.index) : (updateFlag u f k b).getLsbD i = f.getLsbD i := by
  cases b <;> cases u <;> simp [updateFlag, getLsbD_setFlag_of_ne f hi h, getLsbD_clearFlag_of_ne f hi h]

/-- A named flag of a state is its bit of the flags byte. -/
theorem State.flag_eq_getLsbD (s : State) (k : Flag) : s.flag k = s.flags.getLsbD k.index := rfl

end Sys2Proof.Machine
end

