-- ==== Sys2Proof/Laws/Memory.lean ====
section
/-!
SUPPORT. The laws of the memories: a read after a write, and the canonical form kept by every operation.
-/

namespace Sys2Proof.Machine

/-! ### Reading -/

@[simp] theorem Memory.readAt_nil (a : Nat) : Memory.readAt [] a = blankByte := rfl

/-- An address no entry names reads as the blank byte. -/
theorem Memory.readAt_of_not_mem {m : Memory} {a : Nat} (h : ∀ c ∈ m, c.1 ≠ a) :
    Memory.readAt m a = blankByte := by
  induction m with
  | nil => rfl
  | cons c rest ih =>
    have hc := h c (by simp)
    simp [Memory.readAt, hc, ih fun d hd => h d (by simp [hd])]

theorem Memory.mem_erase {m : Memory} {a : Nat} {c : Host.Cell} :
    c ∈ Memory.erase m a ↔ c ∈ m ∧ c.1 ≠ a := by
  simp [Memory.erase, List.mem_filter]

theorem Memory.readAt_erase_of_ne {m : Memory} {a b : Nat} (h : b ≠ a) :
    Memory.readAt (Memory.erase m a) b = Memory.readAt m b := by
  induction m with
  | nil => rfl
  | cons c rest ih =>
    obtain ⟨k, v⟩ := c
    by_cases hk : k = a
    · have hkb : k ≠ b := fun e => h (by rw [← e, hk])
      have : Memory.erase ((k, v) :: rest) a = Memory.erase rest a := by simp [Memory.erase, hk]
      rw [this, ih]; simp [Memory.readAt, hkb]
    · have : Memory.erase ((k, v) :: rest) a = (k, v) :: Memory.erase rest a := by
        simp [Memory.erase, hk]
      rw [this]; simp only [Memory.readAt, ih]

theorem Memory.readAt_insert_of_ne (m : Memory) {a b : Nat} (v : Byte) (h : b ≠ a) :
    Memory.readAt (Memory.insert m a v) b = Memory.readAt m b := by
  induction m with
  | nil => simp [Memory.insert, Memory.readAt, Ne.symm h]
  | cons c rest ih =>
    obtain ⟨k, u⟩ := c
    by_cases hk : a < k
    · simp [Memory.insert, hk, Memory.readAt, Ne.symm h]
    · simp only [Memory.insert, hk, if_false, Memory.readAt, ih]

theorem Memory.readAt_insert_self {m : Memory} {a : Nat} (v : Byte) (h : ∀ c ∈ m, c.1 ≠ a) :
    Memory.readAt (Memory.insert m a v) a = v := by
  induction m with
  | nil => simp [Memory.insert, Memory.readAt]
  | cons c rest ih =>
    obtain ⟨k, u⟩ := c
    have hk : k ≠ a := h (k, u) (by simp)
    by_cases hlt : a < k
    · simp [Memory.insert, hlt, Memory.readAt]
    · simp [Memory.insert, hlt, Memory.readAt, hk, ih fun d hd => h d (by simp [hd])]

/-- A byte written is the byte read, in every memory. -/
@[simp] theorem Memory.readAt_writeAt_self (m : Memory) (a : Nat) (v : Byte) :
    Memory.readAt (Memory.writeAt m a v) a = v := by
  have h : ∀ c ∈ Memory.erase m a, c.1 ≠ a := fun c hc => (Memory.mem_erase.mp hc).2
  by_cases hv : v = blankByte
  · simp [Memory.writeAt, hv, Memory.readAt_of_not_mem h]
  · simp [Memory.writeAt, hv, Memory.readAt_insert_self v h]

/-- A write leaves every other address alone, in every memory. -/
theorem Memory.readAt_writeAt_of_ne (m : Memory) {a b : Nat} (v : Byte) (h : b ≠ a) :
    Memory.readAt (Memory.writeAt m a v) b = Memory.readAt m b := by
  by_cases hv : v = blankByte
  · simp [Memory.writeAt, hv, Memory.readAt_erase_of_ne h]
  · simp [Memory.writeAt, hv, Memory.readAt_insert_of_ne _ v h, Memory.readAt_erase_of_ne h]

/-! ### The canonical form -/

theorem Memory.mem_insert {m : Memory} {a : Nat} {v : Byte} {c : Host.Cell} :
    c ∈ Memory.insert m a v ↔ c = (a, v) ∨ c ∈ m := by
  induction m with
  | nil => simp [Memory.insert]
  | cons d rest ih =>
    obtain ⟨k, u⟩ := d
    by_cases hk : a < k
    · simp [Memory.insert, hk]
    · simp only [Memory.insert, hk, if_false, List.mem_cons, ih]
      tauto

theorem Memory.pairwise_insert {m : Memory} {a : Nat} (v : Byte)
    (h : List.Pairwise (fun c d : Host.Cell => c.1 < d.1) m) (ha : ∀ c ∈ m, c.1 ≠ a) :
    List.Pairwise (fun c d : Host.Cell => c.1 < d.1) (Memory.insert m a v) := by
  induction m with
  | nil => simp [Memory.insert]
  | cons d rest ih =>
    obtain ⟨k, u⟩ := d
    rw [List.pairwise_cons] at h
    have hk : k ≠ a := ha (k, u) (by simp)
    by_cases hlt : a < k
    · simp only [Memory.insert, hlt, if_true, List.pairwise_cons, List.mem_cons]
      refine ⟨?_, h.1, h.2⟩
      rintro c (rfl | hc)
      · exact hlt
      · exact lt_trans hlt (h.1 c hc)
    · simp only [Memory.insert, hlt, if_false, List.pairwise_cons]
      refine ⟨fun c hc => ?_, ih h.2 fun c hc => ha c (by simp [hc])⟩
      rcases Memory.mem_insert.mp hc with rfl | hc
      · exact lt_of_le_of_ne (not_lt.mp hlt) hk
      · exact h.1 c hc

@[simp] theorem Memory.wf_nil : Memory.wf [] := by simp [Memory.wf]

/-- A write at an address of the memory keeps the canonical form. -/
theorem Memory.wf_writeAt {m : Memory} {a : Nat} (v : Byte) (h : Memory.wf m) (ha : a < DMEM_CELLS) :
    Memory.wf (Memory.writeAt m a v) := by
  have he : List.Pairwise (fun c d : Host.Cell => c.1 < d.1) (Memory.erase m a) :=
    h.1.sublist List.filter_sublist
  have hm : ∀ c ∈ Memory.erase m a, c.1 < DMEM_CELLS ∧ c.2 ≠ blankByte :=
    fun c hc => h.2 c (Memory.mem_erase.mp hc).1
  by_cases hv : v = blankByte
  · have hw : Memory.writeAt m a v = Memory.erase m a := by simp [Memory.writeAt, hv]
    rw [hw]
    exact ⟨he, hm⟩
  · have hw : Memory.writeAt m a v = Memory.insert (Memory.erase m a) a v := by
      simp [Memory.writeAt, hv]
    rw [hw]
    refine ⟨Memory.pairwise_insert v he fun c hc => (Memory.mem_erase.mp hc).2, fun c hc => ?_⟩
    rcases Memory.mem_insert.mp hc with rfl | hc
    · exact ⟨ha, hv⟩
    · exact hm c hc

/-- Every byte is an address of a 256-cell memory. -/
theorem byte_lt_cells (a : Byte) : a.toNat < DMEM_CELLS := a.isLt

/-! ### The same laws for the state's reads and writes -/

@[simp] theorem State.readData_writeData_self (s : State) (a v : Byte) :
    (s.writeData a v).readData a = v := Memory.readAt_writeAt_self s.dmem a.toNat v

theorem State.readData_writeData_of_ne (s : State) {a b : Byte} (v : Byte) (h : b ≠ a) :
    (s.writeData a v).readData b = s.readData b :=
  Memory.readAt_writeAt_of_ne s.dmem v fun e => h (BitVec.eq_of_toNat_eq e)

/-- A program cell is the word whose two bytes were stored. -/
theorem wordOfBytes_headByte_operandField (w : InstrWord) :
    wordOfBytes (headByte w) (operandField w) = w := by
  apply BitVec.eq_of_getLsbD_eq
  intro i hi
  simp only [wordOfBytes, headByte, operandField, BitVec.getLsbD_append, BitVec.getLsbD_extractLsb']
  by_cases h : i < 8
  · simp [h]
  · have : 8 + (i - 8) = i := by omega
    simp [h, this]; omega

@[simp] theorem headByte_wordOfBytes (h o : Byte) : headByte (wordOfBytes h o) = h := by
  apply BitVec.eq_of_getLsbD_eq
  intro i hi
  simp only [wordOfBytes, headByte, BitVec.getLsbD_append, BitVec.getLsbD_extractLsb']
  simp [hi]

@[simp] theorem operandField_wordOfBytes (h o : Byte) : operandField (wordOfBytes h o) = o := by
  apply BitVec.eq_of_getLsbD_eq
  intro i hi
  simp only [wordOfBytes, operandField, BitVec.getLsbD_append, BitVec.getLsbD_extractLsb']
  simp [hi]

@[simp] theorem State.programWord_placeWord_self (s : State) (a : Byte) (w : InstrWord) :
    (s.placeWord a w).programWord a = w := by
  simp [State.programWord, wordOfBytes_headByte_operandField]

theorem State.programWord_placeWord_of_ne (s : State) {a b : Byte} (w : InstrWord) (h : b ≠ a) :
    (s.placeWord a w).programWord b = s.programWord b := by
  have hn : b.toNat ≠ a.toNat := fun e => h (BitVec.eq_of_toNat_eq e)
  simp [State.programWord, Memory.readAt_writeAt_of_ne _ _ hn]

/-- The program words depend on program memory only. -/
theorem State.programWord_congr {s t : State} (hh : t.pmemHead = s.pmemHead)
    (ho : t.pmemOpnd = s.pmemOpnd) (a : Byte) : t.programWord a = s.programWord a := by
  simp [State.programWord, hh, ho]

/-- The data bytes depend on data memory only. -/
theorem State.readData_congr {s t : State} (h : t.dmem = s.dmem) (a : Byte) :
    t.readData a = s.readData a := by
  simp [State.readData, h]

end Sys2Proof.Machine
end

