-- ==== Sys2Proof/Laws/Registers.lean ====
section
/-!
SUPPORT. Reading a register after writing one.
-/

namespace Sys2Proof.Machine

@[simp] theorem RegFile.get_set_self (f : RegFile) (r : Reg) (v : Byte) : (f.set r v).get r = v := by
  cases r <;> rfl

theorem RegFile.get_set_of_ne (f : RegFile) {q r : Reg} (v : Byte) (h : q ≠ r) :
    (f.set r v).get q = f.get q := by
  cases q <;> cases r <;> first | rfl | exact absurd rfl h

/-- Two register files that read alike are equal. -/
theorem RegFile.ext_get {f g : RegFile} (h : ∀ r, f.get r = g.get r) : f = g := by
  cases f; cases g
  have h0 := h .x0; have h1 := h .x1; have h2 := h .x2; have h3 := h .x3
  simp_all [RegFile.get]

/-- Writing a register with the value it has changes nothing. -/
@[simp] theorem RegFile.set_get (f : RegFile) (r : Reg) : f.set r (f.get r) = f := by
  cases r <;> rfl

@[simp] theorem State.reg_setReg_self (s : State) (r : Reg) (v : Byte) : (s.setReg r v).reg r = v :=
  RegFile.get_set_self s.x r v

theorem State.reg_setReg_of_ne (s : State) {q r : Reg} (v : Byte) (h : q ≠ r) :
    (s.setReg r v).reg q = s.reg q := RegFile.get_set_of_ne s.x v h

/-- A register operand reads the register file only. -/
theorem State.reg_eq_get (s : State) (r : Reg) : s.reg r = s.x.get r := rfl

end Sys2Proof.Machine
end

