-- ==== Sys2Proof/Laws/Ops.lean ====
section
/-!
SUPPORT. One lemma per shared operation that says once everything it does, as the record it gives or as its two
cases, so that a proof about an instruction cites it instead of unfolding the operation.
-/

namespace Sys2Proof.Machine

/-! ### Parameter values -/

@[simp] theorem Config.spec_stackDepth : Config.spec.stackDepth = 16 := rfl
@[simp] theorem Config.spec_flagUpdate : Config.spec.flagUpdate = .assign := rfl
@[simp] theorem Config.spec_ldrOrientation : Config.spec.ldrOrientation = .addrReg1DestReg2 := rfl
@[simp] theorem Config.spec_unmappedPolicy : Config.spec.unmappedPolicy = .fault := rfl
@[simp] theorem Config.spec_rdEofValue : Config.spec.rdEofValue = 0xFF#8 := rfl

/-! ### Pointer and jumps -/

theorem State.advance_eq (s : State) : s.advance = { s with pc := s.pc + 1#8 } := by
  simp [State.advance, State.setPc]

theorem State.jumpIf_eq (s : State) (b : Bool) (t : Byte) :
    s.jumpIf b t = { s with pc := if b then t else s.pc + 1#8 } := by
  cases b <;> simp [State.jumpIf, State.advance_eq, State.setPc]

theorem State.returnTo_some (s : State) (a : Byte) : s.returnTo (some a) = { s with pc := a } := rfl

theorem State.returnTo_none (s : State) : s.returnTo none = { s with pc := s.pc + 1#8 } :=
  s.advance_eq

/-! ### Loads, stores, ALU results -/

theorem State.storeByte_eq (s : State) (a v : Byte) :
    s.storeByte a v = { s with dmem := Memory.writeAt s.dmem a.toNat v, pc := s.pc + 1#8 } := by
  simp [State.storeByte, State.advance_eq, State.writeData]

theorem State.loadReg_eq (s : State) (r : Reg) (v : Byte) :
    s.loadReg r v = { s with x := s.x.set r v, pc := s.pc + 1#8 } := by
  simp [State.loadReg, State.advance_eq, State.setReg]

/-- LDR under both orientations. -/
theorem State.loadIndirect_eq (c : Config) (s : State) (r1 r2 : Reg) :
    s.loadIndirect c r1 r2 = { s with
      x :=
        match c.ldrOrientation with
        | .addrReg1DestReg2 => s.x.set r2 (s.readData (s.reg r1))
        | .destReg1AddrReg2 => s.x.set r1 (s.readData (s.reg r2))
      pc := s.pc + 1#8 } := by
  unfold State.loadIndirect
  cases c.ldrOrientation <;> simp [State.loadReg_eq, State.indirectAddress]

theorem State.aluInto_eq (s : State) (op : AluOp) (r1 : Reg) (b : Byte) :
    s.aluInto op r1 b = { s with x := s.x.set r1 (alu op (s.reg r1) b), pc := s.pc + 1#8 } := by
  simp [State.aluInto, State.advance_eq, State.setReg]

theorem State.addInto_eq (c : Config) (s : State) (r1 : Reg) (b : Byte) :
    s.addInto c r1 b = { s with
      x := s.x.set r1 (alu .add (s.reg r1) b)
      flags := updateFlag c.flagUpdate s.flags .carry (carryOut (s.reg r1) b)
      pc := s.pc + 1#8 } := by
  simp [State.addInto, State.advance_eq, State.setReg, State.setFlags]

theorem State.subInto_eq (c : Config) (s : State) (r1 : Reg) (b : Byte) :
    s.subInto c r1 b = { s with
      x := s.x.set r1 (alu .subAbs (s.reg r1) b)
      flags := updateFlag c.flagUpdate s.flags .negative (differenceNegative (s.reg r1) b)
      pc := s.pc + 1#8 } := by
  simp [State.subInto, State.advance_eq, State.setReg, State.setFlags]

theorem State.clearOne_eq (s : State) (k : Flag) :
    s.clearOne k = { s with flags := clearFlag s.flags k, pc := s.pc + 1#8 } := by
  simp [State.clearOne, State.advance_eq, State.setFlags]

/-! ### Call stack -/

theorem pushEntry_of_room {depth : Nat} {stk : List Byte} (a : Byte) (h : stk.length < depth) :
    pushEntry depth stk a = stk ++ [a] := by
  simp [pushEntry, h]

theorem pushEntry_of_full {depth : Nat} {stk : List Byte} (a : Byte) (h : depth ≤ stk.length) :
    pushEntry depth stk a = stk.drop 1 ++ [a] := by
  simp [pushEntry, Nat.not_lt.mpr h]

theorem length_pushEntry_le {depth : Nat} {stk : List Byte} (a : Byte) (hd : 1 ≤ depth)
    (h : stk.length ≤ depth) : (pushEntry depth stk a).length ≤ depth := by
  unfold pushEntry
  split
  · simp; omega
  · simp; omega

@[simp] theorem getLast?_pushEntry (depth : Nat) (stk : List Byte) (a : Byte) :
    (pushEntry depth stk a).getLast? = some a := by
  unfold pushEntry
  split <;> simp

theorem dropLast_pushEntry_of_room {depth : Nat} {stk : List Byte} (a : Byte) (h : stk.length < depth) :
    (pushEntry depth stk a).dropLast = stk := by
  simp [pushEntry_of_room a h]

theorem dropLast_pushEntry_of_full {depth : Nat} {stk : List Byte} (a : Byte) (h : depth ≤ stk.length) :
    (pushEntry depth stk a).dropLast = stk.drop 1 := by
  simp [pushEntry_of_full a h]

/-! ### Streams -/

/-- A waiting instruction answers a next state either way: the finished one, or the same state. -/
theorem State.whenReady_eq (s : State) (b : Bool) (t : State) :
    s.whenReady b t = .next (if b then t else s) := by
  cases b <;> rfl

theorem State.inputReady_eq_not_blocked (s : State) :
    s.inputReady = !(s.inStream.isEmpty && !s.inEnded) := by
  simp [State.inputReady]

/-! ### Status, exception -/

/-- An unmapped word under both policies. -/
theorem State.takeUnmapped_eq (c : Config) (s : State) (w : InstrWord) :
    s.takeUnmapped c w = { s with
      fault :=
        match c.unmappedPolicy with
        | .fault => some (s.pc, w)
        | .noop => s.fault
      pc :=
        match c.unmappedPolicy with
        | .fault => s.pc
        | .noop => s.pc + 1#8 } := by
  unfold State.takeUnmapped
  cases c.unmappedPolicy
  · rfl
  · exact s.advance_eq

theorem State.status_running_iff (s : State) :
    s.status = .running ↔ s.inReset = false ∧ s.flag .halt = false ∧ s.fault = none := by
  unfold State.status
  cases s.inReset <;> cases s.flag .halt <;> cases s.fault <;> simp

theorem State.status_halted_iff (s : State) :
    s.status = .halted ↔ s.inReset = false ∧ s.flag .halt = true := by
  unfold State.status
  cases s.inReset <;> cases s.flag .halt <;> cases s.fault <;> simp

theorem State.status_faulted_iff (s : State) :
    s.status = .faulted ↔ s.inReset = false ∧ s.flag .halt = false ∧ s.fault ≠ none := by
  unfold State.status
  cases s.inReset <;> cases s.flag .halt <;> cases s.fault <;> simp

theorem State.status_inReset_iff (s : State) : s.status = .inReset ↔ s.inReset = true := by
  unfold State.status
  cases s.inReset <;> cases s.flag .halt <;> cases s.fault <;> simp

/-- The status reads the reset line, the flags byte and the latch only. -/
theorem State.status_congr {s t : State} (hr : t.inReset = s.inReset) (hf : t.flags = s.flags)
    (hl : t.fault = s.fault) : t.status = s.status := by
  unfold State.status State.flag
  rw [hr, hf, hl]

end Sys2Proof.Machine
end

