-- ==== Sys2Proof/Laws/Exec.lean ====
section
/-!
SUPPORT. That every instruction answers a next state, and what none touches: said once for all of `exec`, so that a proof about a step cites it instead of
going through the instructions again.
-/

namespace Sys2Proof.Machine

/-- What stands outside every instruction's reach: program memory (R40), the input's end mark (R100), the reset
line, the configuration and the environment's fields. -/
structure OutOfReach (s t : State) : Prop where
  pmemHead : t.pmemHead = s.pmemHead
  pmemOpnd : t.pmemOpnd = s.pmemOpnd
  inEnded : t.inEnded = s.inEnded
  inReset : t.inReset = s.inReset
  config : t.config = s.config
  sinkReady : t.sinkReady = s.sinkReady
  schedule : t.schedule = s.schedule
  freeTurns : t.freeTurns = s.freeTurns
  turn : t.turn = s.turn

theorem OutOfReach.refl (s : State) : OutOfReach s s := ⟨rfl, rfl, rfl, rfl, rfl, rfl, rfl, rfl, rfl⟩

/-- A record update of the fields an instruction may write is out of no one's reach. -/
theorem OutOfReach.update (s : State) (x : RegFile) (pc flags : Byte) (stack : List Byte)
    (fault : Option (Byte × InstrWord)) (dmem : Memory) (inStream outStream : List Byte) :
    OutOfReach s { s with
      x := x, pc := pc, flags := flags, stack := stack, fault := fault, dmem := dmem,
      inStream := inStream, outStream := outStream } :=
  ⟨rfl, rfl, rfl, rfl, rfl, rfl, rfl, rfl, rfl⟩

theorem State.whenReady_outOfReach {s u t : State} {b : Bool} (hu : OutOfReach s u)
    (h : s.whenReady b u = .next t) : OutOfReach s t := by
  rw [State.whenReady_eq] at h
  cases h
  cases b
  · exact OutOfReach.refl s
  · exact hu

/-- No instruction changes what is out of reach. -/
theorem exec_outOfReach {i : Instr} {s t : State} (h : exec i s = .next t) : OutOfReach s t := by
  cases i
  case wr r1 => exact State.whenReady_outOfReach (OutOfReach.update s _ _ _ _ _ _ _ _) h
  case rd r1 => exact State.whenReady_outOfReach (OutOfReach.update s _ _ _ _ _ _ _ _) h
  case ret =>
    cases h
    cases s.stackTop <;> exact OutOfReach.update s _ _ _ _ _ _ _ _
  case ldr r1 r2 =>
    cases h
    rw [State.loadIndirect_eq]
    exact OutOfReach.update s _ _ _ _ _ _ _ _
  case ldpr r1 =>
    cases h
    rw [State.takeUnmapped_eq]
    exact OutOfReach.update s _ _ _ _ _ _ _ _
  all_goals cases h
  all_goals first
    | exact OutOfReach.update s _ _ _ _ _ _ _ _
    | (rw [State.jumpIf_eq]; exact OutOfReach.update s _ _ _ _ _ _ _ _)

/-- Every instruction answers a next state; a blocked WR or RD the same one. -/
theorem exec_next (i : Instr) (s : State) : ∃ t, exec i s = .next t := by
  cases i
  case wr r1 => exact ⟨_, State.whenReady_eq s _ _⟩
  case rd r1 => exact ⟨_, State.whenReady_eq s _ _⟩
  all_goals exact ⟨_, rfl⟩

end Sys2Proof.Machine
end

