-- ==== Sys2Proof/Laws/Agents.lean ====
section
/-!
SUPPORT. One lemma per field for each update by an agent of the environment, and what one turn can do.
-/

namespace Sys2Proof.Machine

/-! ### irqStep -/

@[simp] theorem State.irqStep_x (s : State) : s.irqStep.x = s.x := rfl
@[simp] theorem State.irqStep_pc (s : State) : s.irqStep.pc = s.pc := rfl
@[simp] theorem State.irqStep_flags (s : State) : s.irqStep.flags = setFlag s.flags .interrupt := rfl
@[simp] theorem State.irqStep_stack (s : State) : s.irqStep.stack = s.stack := rfl
@[simp] theorem State.irqStep_fault (s : State) : s.irqStep.fault = s.fault := rfl
@[simp] theorem State.irqStep_pmemHead (s : State) : s.irqStep.pmemHead = s.pmemHead := rfl
@[simp] theorem State.irqStep_pmemOpnd (s : State) : s.irqStep.pmemOpnd = s.pmemOpnd := rfl
@[simp] theorem State.irqStep_dmem (s : State) : s.irqStep.dmem = s.dmem := rfl
@[simp] theorem State.irqStep_inStream (s : State) : s.irqStep.inStream = s.inStream := rfl
@[simp] theorem State.irqStep_inEnded (s : State) : s.irqStep.inEnded = s.inEnded := rfl
@[simp] theorem State.irqStep_outStream (s : State) : s.irqStep.outStream = s.outStream := rfl
@[simp] theorem State.irqStep_sinkReady (s : State) : s.irqStep.sinkReady = s.sinkReady := rfl
@[simp] theorem State.irqStep_inReset (s : State) : s.irqStep.inReset = s.inReset := rfl
@[simp] theorem State.irqStep_config (s : State) : s.irqStep.config = s.config := rfl
@[simp] theorem State.irqStep_schedule (s : State) : s.irqStep.schedule = s.schedule := rfl
@[simp] theorem State.irqStep_freeTurns (s : State) : s.irqStep.freeTurns = s.freeTurns := rfl
@[simp] theorem State.irqStep_turn (s : State) : s.irqStep.turn = s.turn := rfl

/-! ### inputFinish -/

@[simp] theorem State.inputFinish_x (s : State) : s.inputFinish.x = s.x := rfl
@[simp] theorem State.inputFinish_pc (s : State) : s.inputFinish.pc = s.pc := rfl
@[simp] theorem State.inputFinish_flags (s : State) : s.inputFinish.flags = s.flags := rfl
@[simp] theorem State.inputFinish_stack (s : State) : s.inputFinish.stack = s.stack := rfl
@[simp] theorem State.inputFinish_fault (s : State) : s.inputFinish.fault = s.fault := rfl
@[simp] theorem State.inputFinish_pmemHead (s : State) : s.inputFinish.pmemHead = s.pmemHead := rfl
@[simp] theorem State.inputFinish_pmemOpnd (s : State) : s.inputFinish.pmemOpnd = s.pmemOpnd := rfl
@[simp] theorem State.inputFinish_dmem (s : State) : s.inputFinish.dmem = s.dmem := rfl
@[simp] theorem State.inputFinish_inStream (s : State) : s.inputFinish.inStream = s.inStream := rfl
@[simp] theorem State.inputFinish_inEnded (s : State) : s.inputFinish.inEnded = true := rfl
@[simp] theorem State.inputFinish_outStream (s : State) : s.inputFinish.outStream = s.outStream := rfl
@[simp] theorem State.inputFinish_sinkReady (s : State) : s.inputFinish.sinkReady = s.sinkReady := rfl
@[simp] theorem State.inputFinish_inReset (s : State) : s.inputFinish.inReset = s.inReset := rfl
@[simp] theorem State.inputFinish_config (s : State) : s.inputFinish.config = s.config := rfl
@[simp] theorem State.inputFinish_schedule (s : State) : s.inputFinish.schedule = s.schedule := rfl
@[simp] theorem State.inputFinish_freeTurns (s : State) : s.inputFinish.freeTurns = s.freeTurns := rfl
@[simp] theorem State.inputFinish_turn (s : State) : s.inputFinish.turn = s.turn := rfl

/-! ### setSink -/

@[simp] theorem State.setSink_x (s : State) (b : Bool) : (s.setSink b).x = s.x := rfl
@[simp] theorem State.setSink_pc (s : State) (b : Bool) : (s.setSink b).pc = s.pc := rfl
@[simp] theorem State.setSink_flags (s : State) (b : Bool) : (s.setSink b).flags = s.flags := rfl
@[simp] theorem State.setSink_stack (s : State) (b : Bool) : (s.setSink b).stack = s.stack := rfl
@[simp] theorem State.setSink_fault (s : State) (b : Bool) : (s.setSink b).fault = s.fault := rfl
@[simp] theorem State.setSink_pmemHead (s : State) (b : Bool) : (s.setSink b).pmemHead = s.pmemHead := rfl
@[simp] theorem State.setSink_pmemOpnd (s : State) (b : Bool) : (s.setSink b).pmemOpnd = s.pmemOpnd := rfl
@[simp] theorem State.setSink_dmem (s : State) (b : Bool) : (s.setSink b).dmem = s.dmem := rfl
@[simp] theorem State.setSink_inStream (s : State) (b : Bool) : (s.setSink b).inStream = s.inStream := rfl
@[simp] theorem State.setSink_inEnded (s : State) (b : Bool) : (s.setSink b).inEnded = s.inEnded := rfl
@[simp] theorem State.setSink_outStream (s : State) (b : Bool) : (s.setSink b).outStream = s.outStream := rfl
@[simp] theorem State.setSink_sinkReady (s : State) (b : Bool) : (s.setSink b).sinkReady = b := rfl
@[simp] theorem State.setSink_inReset (s : State) (b : Bool) : (s.setSink b).inReset = s.inReset := rfl
@[simp] theorem State.setSink_config (s : State) (b : Bool) : (s.setSink b).config = s.config := rfl
@[simp] theorem State.setSink_schedule (s : State) (b : Bool) : (s.setSink b).schedule = s.schedule := rfl
@[simp] theorem State.setSink_freeTurns (s : State) (b : Bool) : (s.setSink b).freeTurns = s.freeTurns := rfl
@[simp] theorem State.setSink_turn (s : State) (b : Bool) : (s.setSink b).turn = s.turn := rfl

/-! ### What one turn can do -/

/-- A step of an environment agent: its update on a running core, nothing on any other. -/
theorem State.whileRunning_eq (s u : State) :
    s.whileRunning u = .next (if s.status = .running then u else s) := by
  unfold State.whileRunning
  split <;> simp_all

/-- A host write that answers a next state happened outside a run. -/
theorem State.outsideRun_next {s u t : State} (h : s.outsideRun u = .next t) :
    s.status ≠ .running ∧ t = u := by
  unfold State.outsideRun at h
  split at h
  · cases h
  · rename_i hs
    exact ⟨hs, by cases h; rfl⟩

theorem State.inputAppend_eq (s : State) (b : Byte) :
    s.inputAppend b = { s with inStream := if s.inEnded then s.inStream else s.inStream ++ [b] } := by
  unfold State.inputAppend
  cases h : s.inEnded <;> (cases s; simp_all)

/-- A running core executes the decoded instruction or does what an unmapped word does, and nothing else. -/
theorem State.cycle_cases (s : State) :
    (∃ i, decodeWith s.config s.fetch = .ok i ∧ s.cycle = exec i s) ∨
    (∃ e, decodeWith s.config s.fetch = .error e ∧ s.cycle = .next (s.takeUnmapped s.config s.fetch)) := by
  cases h : decodeWith s.config s.fetch with
  | ok i => exact .inl ⟨i, rfl, by simp only [State.cycle, h]⟩
  | error e => exact .inr ⟨e, rfl, by simp only [State.cycle, h]⟩

/-- A running core always has a next state. -/
theorem State.cycle_next (s : State) : ∃ t, s.cycle = .next t := by
  rcases s.cycle_cases with ⟨i, _, h⟩ | ⟨_, _, h⟩
  · rw [h]
    exact exec_next i s
  · exact ⟨_, h⟩

/-- A free turn, whichever the environment chooses, always has a next state: the host has none of them. -/
theorem takeTurn_free_next (f : FreeTurn) (s : State) : ∃ t, takeTurn (turnOfFree f) s = .next t := by
  cases f
  case core =>
    simp only [turnOfFree, takeTurn]
    split
    · exact s.cycle_next
    · exact ⟨s, rfl⟩
  all_goals exact ⟨_, s.whileRunning_eq _⟩

/-- A release that answers a next state: of a held core whose launch is not refused, or nothing at all. -/
theorem State.hostRelease_next {s t : State} {input : List Byte} {ended : Bool}
    (h : s.hostRelease input ended = .next t) :
    (s.inReset = true ∧ s.launchRefusal = none ∧ t = s.release input ended) ∨
    (s.inReset = false ∧ t = s) := by
  unfold State.hostRelease at h
  split at h
  · rename_i hr
    split at h
    · cases h
    · rename_i hl
      exact .inl ⟨hr, hl, by cases h; rfl⟩
  · rename_i hr
    exact .inr ⟨by simpa using hr, by cases h; rfl⟩

/-- A launch is not refused exactly when the configuration has a meaning and no program word lacks its call
stack. -/
theorem State.launchRefusal_eq_none_iff (s : State) :
    s.launchRefusal = none ↔
      s.config.valid = true ∧ (s.config.hasCallStack = true ∨ s.programUsesCallStack = false) := by
  unfold State.launchRefusal
  cases s.config.valid <;> cases s.config.hasCallStack <;> cases s.programUsesCallStack <;> simp

/-- What a turn that answers a next state did: the core's cycle, a reset, a release, nothing at all, an
environment agent's update on a running core, or a host write on one that is not running. -/
theorem takeTurn_next_cases {a : AgentTurn} {s t : State} (h : takeTurn a s = .next t) :
    (a = .core ∧ s.status = .running ∧ s.cycle = .next t) ∨
    (a = .hostReset ∧ t = s.applyReset) ∨
    (∃ input ended, a = .hostRelease input ended ∧ s.inReset = true ∧ s.launchRefusal = none ∧
      t = s.release input ended) ∨
    t = s ∨
    (s.status = .running ∧
      ((a = .irq ∧ t = s.irqStep) ∨ (∃ b, a = .inputByte b ∧ t = s.inputAppend b) ∨
        (a = .inputEnd ∧ t = s.inputFinish) ∨ ∃ ready, t = s.setSink ready)) ∨
    (s.status ≠ .running ∧
      ((∃ b w, a = .hostWriteProgram b w ∧ t = s.placeWord b w) ∨
        ∃ b v, a = .hostWriteData b v ∧ t = s.writeData b v)) := by
  cases a with
  | core =>
    simp only [takeTurn] at h
    split at h
    · rename_i hr
      exact .inl ⟨rfl, hr, h⟩
    · cases h
      exact .inr (.inr (.inr (.inl rfl)))
  | hostReset =>
    simp only [takeTurn, Host.Outcome.next.injEq] at h
    exact .inr (.inl ⟨rfl, h.symm⟩)
  | hostRelease input ended =>
    rcases State.hostRelease_next h with ⟨hr, hl, he⟩ | ⟨_, he⟩
    · exact .inr (.inr (.inl ⟨input, ended, rfl, hr, hl, he⟩))
    · exact .inr (.inr (.inr (.inl he)))
  | hostWriteProgram b w =>
    obtain ⟨hr, he⟩ := State.outsideRun_next h
    exact .inr (.inr (.inr (.inr (.inr ⟨hr, .inl ⟨b, w, rfl, he⟩⟩))))
  | hostWriteData b v =>
    obtain ⟨hr, he⟩ := State.outsideRun_next h
    exact .inr (.inr (.inr (.inr (.inr ⟨hr, .inr ⟨b, v, rfl, he⟩⟩))))
  | irq => simp only [takeTurn, State.whileRunning_eq, Host.Outcome.next.injEq] at h; split at h <;> simp_all
  | inputByte b =>
    simp only [takeTurn, State.whileRunning_eq, Host.Outcome.next.injEq] at h; split at h <;> simp_all
  | inputEnd =>
    simp only [takeTurn, State.whileRunning_eq, Host.Outcome.next.injEq] at h; split at h <;> simp_all
  | sinkAccept =>
    simp only [takeTurn, State.whileRunning_eq, Host.Outcome.next.injEq] at h
    split at h
    · rename_i hr
      exact .inr (.inr (.inr (.inr (.inl ⟨hr, .inr (.inr (.inr ⟨true, h.symm⟩))⟩))))
    · exact .inr (.inr (.inr (.inl h.symm)))
  | sinkStall =>
    simp only [takeTurn, State.whileRunning_eq, Host.Outcome.next.injEq] at h
    split at h
    · rename_i hr
      exact .inr (.inr (.inr (.inr (.inl ⟨hr, .inr (.inr (.inr ⟨false, h.symm⟩))⟩))))
    · exact .inr (.inr (.inr (.inl h.symm)))

/-! ### Taking the next turn -/

/-- Taking a turn touches the schedule and the count of free choices, nothing else. -/
theorem State.turnTaken_eq (s : State) :
    s.turnTaken = { s with
      schedule := s.schedule.tail
      turn := if s.schedule = [] ∧ s.freeTurns = true then s.turn + 1 else s.turn } := by
  unfold State.turnTaken
  cases h : s.schedule with
  | nil => cases hf : s.freeTurns <;> (cases s; simp_all)
  | cons a rest => simp

@[simp] theorem State.turnTaken_x (s : State) : s.turnTaken.x = s.x := by rw [s.turnTaken_eq]
@[simp] theorem State.turnTaken_pc (s : State) : s.turnTaken.pc = s.pc := by rw [s.turnTaken_eq]
@[simp] theorem State.turnTaken_flags (s : State) : s.turnTaken.flags = s.flags := by rw [s.turnTaken_eq]
@[simp] theorem State.turnTaken_stack (s : State) : s.turnTaken.stack = s.stack := by rw [s.turnTaken_eq]
@[simp] theorem State.turnTaken_fault (s : State) : s.turnTaken.fault = s.fault := by rw [s.turnTaken_eq]
@[simp] theorem State.turnTaken_pmemHead (s : State) : s.turnTaken.pmemHead = s.pmemHead := by rw [s.turnTaken_eq]
@[simp] theorem State.turnTaken_pmemOpnd (s : State) : s.turnTaken.pmemOpnd = s.pmemOpnd := by rw [s.turnTaken_eq]
@[simp] theorem State.turnTaken_dmem (s : State) : s.turnTaken.dmem = s.dmem := by rw [s.turnTaken_eq]
@[simp] theorem State.turnTaken_inStream (s : State) : s.turnTaken.inStream = s.inStream := by rw [s.turnTaken_eq]
@[simp] theorem State.turnTaken_inEnded (s : State) : s.turnTaken.inEnded = s.inEnded := by rw [s.turnTaken_eq]
@[simp] theorem State.turnTaken_outStream (s : State) : s.turnTaken.outStream = s.outStream := by rw [s.turnTaken_eq]
@[simp] theorem State.turnTaken_inReset (s : State) : s.turnTaken.inReset = s.inReset := by rw [s.turnTaken_eq]
@[simp] theorem State.turnTaken_config (s : State) : s.turnTaken.config = s.config := by rw [s.turnTaken_eq]
@[simp] theorem State.turnTaken_sinkReady (s : State) : s.turnTaken.sinkReady = s.sinkReady := by rw [s.turnTaken_eq]
@[simp] theorem State.turnTaken_freeTurns (s : State) : s.turnTaken.freeTurns = s.freeTurns := by rw [s.turnTaken_eq]
@[simp] theorem State.turnTaken_schedule (s : State) : s.turnTaken.schedule = s.schedule.tail := by
  rw [s.turnTaken_eq]
@[simp] theorem State.turnTaken_status (s : State) : s.turnTaken.status = s.status := by
  rw [s.turnTaken_eq]; rfl
@[simp] theorem State.turnTaken_fetch (s : State) : s.turnTaken.fetch = s.fetch := by
  rw [s.turnTaken_eq]; rfl
@[simp] theorem State.turnTaken_flag (s : State) (k : Flag) : s.turnTaken.flag k = s.flag k := by
  rw [s.turnTaken_eq]; rfl
@[simp] theorem State.turnTaken_reg (s : State) (r : Reg) : s.turnTaken.reg r = s.reg r := by
  rw [s.turnTaken_eq]; rfl
@[simp] theorem State.turnTaken_readData (s : State) (a : Byte) : s.turnTaken.readData a = s.readData a := by
  rw [s.turnTaken_eq]; rfl
@[simp] theorem State.turnTaken_programWord (s : State) (a : Byte) :
    s.turnTaken.programWord a = s.programWord a := by
  rw [s.turnTaken_eq]; rfl

theorem State.nextTurn_of_schedule {s : State} {a : AgentTurn} {rest : List AgentTurn}
    (h : s.schedule = a :: rest) : s.nextTurn = a := by
  simp [State.nextTurn, h]

theorem State.turnTaken_of_schedule {s : State} {a : AgentTurn} {rest : List AgentTurn}
    (h : s.schedule = a :: rest) : s.turnTaken = { s with schedule := rest } := by
  simp [State.turnTaken, h]

/-- The system makes no step exactly where no run is under way and the host has nothing scheduled. -/
theorem State.stopReason_eq_none_iff (s : State) :
    s.stopReason = none ↔ s.schedule ≠ [] ∨ s.status = .running := by
  unfold State.stopReason
  cases s.schedule <;> cases s.status <;> simp

/-- A step with a turn to take is that turn. -/
theorem step_eq_takeTurn {s : State} (h : s.schedule ≠ [] ∨ s.status = .running) :
    step s = takeTurn s.nextTurn s.turnTaken := by
  unfold step
  rw [s.stopReason_eq_none_iff.mpr h]

/-- A step that answers a next state took a turn. -/
theorem step_next_cases {s t : State} (h : step s = .next t) :
    (s.schedule ≠ [] ∨ s.status = .running) ∧ takeTurn s.nextTurn s.turnTaken = .next t := by
  unfold step at h
  split at h
  · cases h
  · rename_i hs
    exact ⟨s.stopReason_eq_none_iff.mp hs, h⟩

/-! ### Runs -/

theorem run_zero (s : State) : Sys2Proof.core.run 0 s = .next s := by
  simp only [Host.Core.run]

theorem run_succ_of_next {s t : State} (n : Nat) (h : step s = .next t) :
    Sys2Proof.core.run (n + 1) s = Sys2Proof.core.run n t := by
  simp only [Host.Core.run, Sys2Proof.core, h]

theorem run_succ_of_fault {s : State} {r : Fault} (n : Nat) (h : step s = .fault r) :
    Sys2Proof.core.run (n + 1) s = .fault r := by
  simp only [Host.Core.run, Sys2Proof.core, h]

theorem run_succ_of_refused {s : State} {r : Refusal} (n : Nat) (h : step s = .refused r) :
    Sys2Proof.core.run (n + 1) s = .refused r := by
  simp only [Host.Core.run, Sys2Proof.core, h]

end Sys2Proof.Machine
end

