-- ==== Sys2Proof/Laws/Decode.lean ====
section
/-!
SUPPORT. The codec's small laws: register numbers, the fields of an assembled word, and what a lookup in the
opcode map finds.
-/

namespace Sys2Proof

@[simp] theorem Reg.ofBits_toBits (r : Reg) : Reg.ofBits r.toBits = r := by cases r <;> rfl

@[simp] theorem Reg.toBits_ofBits (b : BitVec 2) : (Reg.ofBits b).toBits = b := by
  revert b; decide

/-- Which field each bit of an assembled word belongs to (R42, R43). -/
theorem getLsbD_assemble (o : Opcode) (r1 : Reg) (d : Byte) (i : Nat) :
    (assemble o r1 d).getLsbD i =
      if i < 6 then o.getLsbD i else if i < 8 then r1.toBits.getLsbD (i - 6) else d.getLsbD (i - 8) := by
  simp only [assemble, BitVec.getLsbD_append]
  by_cases h8 : i < 8
  · by_cases h6 : i < 6 <;> simp [h8, h6]
  · simp [h8, show ¬ i < 6 by omega]

@[simp] theorem opcodeField_assemble (o : Opcode) (r1 : Reg) (d : Byte) :
    opcodeField (assemble o r1 d) = o := by
  apply BitVec.eq_of_getLsbD_eq
  intro i hi
  simp only [opcodeField, assemble, BitVec.getLsbD_extractLsb', BitVec.getLsbD_append]
  simp [hi, show i < 8 by omega]

@[simp] theorem reg1Field_assemble (o : Opcode) (r1 : Reg) (d : Byte) :
    reg1Field (assemble o r1 d) = r1 := by
  have h : (assemble o r1 d).extractLsb' 6 2 = r1.toBits := by
    apply BitVec.eq_of_getLsbD_eq
    intro i hi
    simp only [assemble, BitVec.getLsbD_extractLsb', BitVec.getLsbD_append]
    simp [hi, show 6 + i < 8 by omega]
  simp [reg1Field, h]

@[simp] theorem operandField_assemble (o : Opcode) (r1 : Reg) (d : Byte) :
    operandField (assemble o r1 d) = d := by
  apply BitVec.eq_of_getLsbD_eq
  intro i hi
  simp only [operandField, assemble, BitVec.getLsbD_extractLsb', BitVec.getLsbD_append]
  simp [hi]

/-- A word is its three fields, put together again. -/
theorem assemble_fields (w : InstrWord) :
    assemble (opcodeField w) (reg1Field w) (operandField w) = w := by
  apply BitVec.eq_of_getLsbD_eq
  intro i hi
  simp only [assemble, opcodeField, reg1Field, operandField, Reg.toBits_ofBits,
    BitVec.getLsbD_append, BitVec.getLsbD_extractLsb']
  by_cases h8 : i < 8
  · by_cases h6 : i < 6
    · simp [h8, h6]
    · have : 6 + (i - 6) = i := by omega
      simp [h8, h6, this]; omega
  · have : 8 + (i - 8) = i := by omega
    simp [h8, this]; omega

@[simp] theorem reg2Of_byte (r : Reg) : reg2Of (Operand.reg2 r).byte = r := by
  cases r <;> rfl

/-- The canonical operand byte of a register number read from a byte: its two low bits (R43, R52). -/
theorem byte_reg2_reg2Of (d : Byte) : (Operand.reg2 (reg2Of d)).byte = d &&& 0x03#8 := by
  have h : (Operand.reg2 (reg2Of d)).byte = 0#6 ++ d.extractLsb' 0 2 := by
    simp [Operand.byte, reg2Of]
  rw [h]
  apply BitVec.eq_of_getLsbD_eq
  intro i hi
  rw [BitVec.getLsbD_append, BitVec.getLsbD_and, BitVec.getLsbD_extractLsb']
  interval_cases i <;> simp

@[simp] theorem Operand.byte_data (d : Byte) : (Operand.data d).byte = d := rfl

theorem Mnemonic.mem_all (m : Mnemonic) : m ∈ Mnemonic.all := by
  cases m <;> decide

theorem Config.mem_rows {c : Config} {m : Mnemonic} : m ∈ c.rows ↔ c.present m = true := by
  simp [Config.rows, List.mem_filter, Mnemonic.mem_all]

/-- What a lookup finds is present and has the number looked for. -/
theorem Config.mnemonicOf_some {c : Config} {o : Opcode} {m : Mnemonic}
    (h : c.mnemonicOf o = some m) : c.present m = true ∧ c.opcodeOf m = o := by
  unfold Config.mnemonicOf at h
  refine ⟨Config.mem_rows.mp (List.mem_of_find?_eq_some h), ?_⟩
  simpa using List.find?_some h

/-- What a valid configuration is (R6, R111). -/
theorem Config.valid_iff (c : Config) : c.valid = true ↔
    c.fixedPart = true ∧ 1 ≤ c.stackDepth ∧ c.hasLdpr = false ∧
      Mnemonic.hardware.Pairwise fun m n => c.opcodeOf m ≠ c.opcodeOf n := by
  simp [Config.valid, and_assoc]

/-- Without LDPR the rows are among the 36 mnemonics of the hardware, in the same order. -/
theorem Config.rows_sublist {c : Config} (h : c.hasLdpr = false) :
    c.rows.Sublist Mnemonic.hardware := by
  have hr : c.rows = Mnemonic.hardware.filter c.present := by
    unfold Config.rows Mnemonic.hardware
    rw [List.filter_filter]
    congr 1
    funext m
    cases m <;> simp [Config.present, h]
  rw [hr]
  exact List.filter_sublist

/-- In a configuration without LDPR no word decodes to it (R86). -/
theorem Config.present_ldpr (c : Config) : c.present .ldpr = c.hasLdpr := by
  simp [Config.present]

/-- In a valid configuration the number of a present mnemonic finds that mnemonic. -/
theorem Config.mnemonicOf_opcodeOf {c : Config} (hc : c.valid = true) {m : Mnemonic}
    (hm : c.present m = true) : c.mnemonicOf (c.opcodeOf m) = some m := by
  have hv := c.valid_iff.mp hc
  have hp : c.rows.Pairwise fun m n => c.opcodeOf m ≠ c.opcodeOf n :=
    hv.2.2.2.sublist (Config.rows_sublist hv.2.2.1)
  have hmem : m ∈ c.rows := Config.mem_rows.mpr hm
  unfold Config.mnemonicOf
  generalize c.rows = rows at hp hmem
  induction rows with
  | nil => cases hmem
  | cons n rest ih =>
    rw [List.pairwise_cons] at hp
    rcases List.mem_cons.mp hmem with rfl | hr
    · simp
    · have hne : ¬ c.opcodeOf n = c.opcodeOf m := hp.1 m hr
      simp [hne, ih hp.2 hr]

/-- `Config.spec` is a configuration the spec gives a meaning. -/
theorem Config.spec_valid : Config.spec.valid = true := by decide

/-- What the decoder answers is an instruction the configuration has. -/
theorem decodeWith_ok {c : Config} {w : InstrWord} {i : Instr} (h : decodeWith c w = .ok i) :
    ∃ m, c.mnemonicOf (opcodeField w) = some m ∧ i = m.instr (reg1Field w) (operandField w) := by
  unfold decodeWith at h
  split at h
  · cases h
  · rename_i m hm
    exact ⟨m, hm, by cases h; rfl⟩

@[simp] theorem Mnemonic.mnemonic_instr (m : Mnemonic) (r1 : Reg) (d : Byte) :
    (m.instr r1 d).mnemonic = m := by cases m <;> rfl

@[simp] theorem Mnemonic.operand_instr (m : Mnemonic) (r1 : Reg) (d : Byte) :
    (m.instr r1 d).operand = m.shape.operandOf d := by cases m <;> rfl

end Sys2Proof
end

