-- ==== Sys2Proof/Laws/PerInstr.lean ====
section
/-!
SUPPORT. The family `Reassembly`, one lemma per constructor of `Instr`: an instruction is the one its row gives for
its own `reg1` and operand byte, so that no field of it is lost on the way through the word.
-/

namespace Sys2Proof.Laws

/-- The row of the instruction, given the instruction's canonical fields, gives the instruction back; and its operand
is the one its shape reads from its operand byte. -/
def Reassembly.Statement (i : Instr) : Prop :=
  i.mnemonic.instr i.reg1 i.operand.byte = i ∧ i.mnemonic.shape.operandOf i.operand.byte = i.operand

theorem Reassembly.noop : Reassembly.Statement .noop := ⟨rfl, rfl⟩
theorem Reassembly.clc : Reassembly.Statement .clc := ⟨rfl, rfl⟩
theorem Reassembly.cli : Reassembly.Statement .cli := ⟨rfl, rfl⟩
theorem Reassembly.cln : Reassembly.Statement .cln := ⟨rfl, rfl⟩
theorem Reassembly.not (r1 : Reg) : Reassembly.Statement (.not r1) := ⟨rfl, rfl⟩
theorem Reassembly.shl (r1 : Reg) : Reassembly.Statement (.shl r1) := ⟨rfl, rfl⟩
theorem Reassembly.shr (r1 : Reg) : Reassembly.Statement (.shr r1) := ⟨rfl, rfl⟩
theorem Reassembly.ldfl (r1 : Reg) : Reassembly.Statement (.ldfl r1) := ⟨rfl, rfl⟩
theorem Reassembly.stfl (r1 : Reg) : Reassembly.Statement (.stfl r1) := ⟨rfl, rfl⟩
theorem Reassembly.wr (r1 : Reg) : Reassembly.Statement (.wr r1) := ⟨rfl, rfl⟩
theorem Reassembly.rd (r1 : Reg) : Reassembly.Statement (.rd r1) := ⟨rfl, rfl⟩
theorem Reassembly.ldpr (r1 : Reg) : Reassembly.Statement (.ldpr r1) := ⟨rfl, rfl⟩
theorem Reassembly.str (r1 r2 : Reg) : Reassembly.Statement (.str r1 r2) :=
  by cases r2 <;> exact ⟨rfl, rfl⟩
theorem Reassembly.ldr (r1 r2 : Reg) : Reassembly.Statement (.ldr r1 r2) :=
  by cases r2 <;> exact ⟨rfl, rfl⟩
theorem Reassembly.cp (r1 r2 : Reg) : Reassembly.Statement (.cp r1 r2) :=
  by cases r2 <;> exact ⟨rfl, rfl⟩
theorem Reassembly.sub (r1 r2 : Reg) : Reassembly.Statement (.sub r1 r2) :=
  by cases r2 <;> exact ⟨rfl, rfl⟩
theorem Reassembly.add (r1 r2 : Reg) : Reassembly.Statement (.add r1 r2) :=
  by cases r2 <;> exact ⟨rfl, rfl⟩
theorem Reassembly.and (r1 r2 : Reg) : Reassembly.Statement (.and r1 r2) :=
  by cases r2 <;> exact ⟨rfl, rfl⟩
theorem Reassembly.or (r1 r2 : Reg) : Reassembly.Statement (.or r1 r2) :=
  by cases r2 <;> exact ⟨rfl, rfl⟩
theorem Reassembly.xor (r1 r2 : Reg) : Reassembly.Statement (.xor r1 r2) :=
  by cases r2 <;> exact ⟨rfl, rfl⟩
theorem Reassembly.st (r1 : Reg) (data : Byte) : Reassembly.Statement (.st r1 data) := ⟨rfl, rfl⟩
theorem Reassembly.ld (r1 : Reg) (data : Byte) : Reassembly.Statement (.ld r1 data) := ⟨rfl, rfl⟩
theorem Reassembly.li (r1 : Reg) (data : Byte) : Reassembly.Statement (.li r1 data) := ⟨rfl, rfl⟩
theorem Reassembly.subi (r1 : Reg) (data : Byte) : Reassembly.Statement (.subi r1 data) :=
  ⟨rfl, rfl⟩
theorem Reassembly.addi (r1 : Reg) (data : Byte) : Reassembly.Statement (.addi r1 data) :=
  ⟨rfl, rfl⟩
theorem Reassembly.andi (r1 : Reg) (data : Byte) : Reassembly.Statement (.andi r1 data) :=
  ⟨rfl, rfl⟩
theorem Reassembly.ori (r1 : Reg) (data : Byte) : Reassembly.Statement (.ori r1 data) :=
  ⟨rfl, rfl⟩
theorem Reassembly.xori (r1 : Reg) (data : Byte) : Reassembly.Statement (.xori r1 data) :=
  ⟨rfl, rfl⟩
theorem Reassembly.jmp (data : Byte) : Reassembly.Statement (.jmp data) := ⟨rfl, rfl⟩
theorem Reassembly.jiz (r1 : Reg) (data : Byte) : Reassembly.Statement (.jiz r1 data) :=
  ⟨rfl, rfl⟩
theorem Reassembly.jnz (r1 : Reg) (data : Byte) : Reassembly.Statement (.jnz r1 data) :=
  ⟨rfl, rfl⟩
theorem Reassembly.jic (data : Byte) : Reassembly.Statement (.jic data) := ⟨rfl, rfl⟩
theorem Reassembly.jnc (data : Byte) : Reassembly.Statement (.jnc data) := ⟨rfl, rfl⟩
theorem Reassembly.jii (data : Byte) : Reassembly.Statement (.jii data) := ⟨rfl, rfl⟩
theorem Reassembly.jni (data : Byte) : Reassembly.Statement (.jni data) := ⟨rfl, rfl⟩
theorem Reassembly.call (data : Byte) : Reassembly.Statement (.call data) := ⟨rfl, rfl⟩
theorem Reassembly.ret : Reassembly.Statement .ret := ⟨rfl, rfl⟩

end Sys2Proof.Laws
end

