-- ==== Sys2Proof/Tests/Slice0.lean ====
section
/-!
SUPPORT. Tests: well-formedness, decoding of words written out from spec/30_encoding.md, one step of each
instruction with the vectors of spec/95_test_vectors.md, and for each statement with hypotheses a state
and operands that meet them. Expected values come from the spec's tables, not from a run of the model.
-/

namespace Sys2Proof.Tests

open Sys2Proof.Machine Sys2Proof.Safety

/-! ### Well-formedness: each check refuses an ill-formed term -/

/-- The variant without a call stack (spec/93_implementation_defined.md U17). -/
def noStack : Config := { Config.spec with hasCallStack := false }

/-- An opcode map with other numbers that is still injective: `63 - n` (spec/92_eei_decisions.md D3). -/
def mirrored : Config := { Config.spec with opcodeMap :=
  ⟨⟨specOpcodeMap.toList.map fun o => ~~~o⟩, rfl⟩ }

theorem test_ldpr_is_not_well_formed : (Instr.ldpr .x1).wellFormed Config.spec = false := by decide

theorem test_call_and_ret_need_a_stack :
    (Instr.call 0#8).wellFormed noStack = false ∧ Instr.ret.wellFormed noStack = false ∧
    (Instr.call 0#8).wellFormed Config.spec = true ∧ Instr.noop.wellFormed noStack = true := by decide

theorem test_config_checks_refuse :
    ({ Config.spec with stackDepth := 0 } : Config).valid = false ∧
    ({ Config.spec with hasLdpr := true } : Config).valid = false ∧
    ({ Config.spec with opcodeMap := Vector.replicate 37 0#6 } : Config).valid = false ∧
    ({ Config.spec with nreg := 5 } : Config).valid = false ∧
    ({ Config.spec with xlen := 16 } : Config).valid = false ∧
    ({ Config.spec with pcBits := 9 } : Config).valid = false ∧
    ({ Config.spec with pmemCells := 512 } : Config).valid = false ∧
    ({ Config.spec with dmemCells := 512 } : Config).valid = false ∧
    ({ Config.spec with iw := 8 } : Config).valid = false ∧
    ({ Config.spec with opcBits := 5 } : Config).valid = false := by decide

/-- The map must be injective on CALL and RET also where there is no call stack (D3). -/
theorem test_config_injective_without_stack :
    ({ noStack with opcodeMap := specOpcodeMap.set 35 0x28#6 } : Config).valid = false := by decide

theorem test_config_checks_accept :
    Config.spec.valid = true ∧ mirrored.valid = true ∧ noStack.valid = true ∧
    ({ Config.spec with stackDepth := 1 } : Config).valid = true := by decide

/-! ### Decoding: one word of each row, fields written out as operand byte, reg1, opcode -/

theorem test_decode_move :
    decode (0b11111111#8 ++ (0b10#2 ++ 0b011000#6)) = .ok (.st .x2 0xFF#8) ∧
    decode (0b00000011#8 ++ (0b00#2 ++ 0b010000#6)) = .ok (.str .x0 .x3) ∧
    decode (0b00010000#8 ++ (0b11#2 ++ 0b011001#6)) = .ok (.ld .x3 0x10#8) ∧
    decode (0b00000011#8 ++ (0b10#2 ++ 0b010001#6)) = .ok (.ldr .x2 .x3) ∧
    decode (0b00000101#8 ++ (0b00#2 ++ 0b011010#6)) = .ok (.li .x0 5#8) ∧
    decode (0b00000000#8 ++ (0b11#2 ++ 0b010010#6)) = .ok (.cp .x3 .x0) := by decide

theorem test_decode_clear_and_arithmetic :
    decode (0b00000000#8 ++ (0b00#2 ++ 0b000001#6)) = .ok .clc ∧
    decode (0b00000000#8 ++ (0b00#2 ++ 0b000010#6)) = .ok .cli ∧
    decode (0b00000000#8 ++ (0b00#2 ++ 0b000011#6)) = .ok .cln ∧
    decode (0b00000001#8 ++ (0b10#2 ++ 0b010011#6)) = .ok (.sub .x2 .x1) ∧
    decode (0b11001000#8 ++ (0b10#2 ++ 0b011011#6)) = .ok (.subi .x2 200#8) ∧
    decode (0b00000010#8 ++ (0b10#2 ++ 0b010100#6)) = .ok (.add .x2 .x2) ∧
    decode (0b11111111#8 ++ (0b01#2 ++ 0b011100#6)) = .ok (.addi .x1 255#8) := by decide

theorem test_decode_logic_and_shift :
    decode (0b00000001#8 ++ (0b00#2 ++ 0b010101#6)) = .ok (.and .x0 .x1) ∧
    decode (0b00000011#8 ++ (0b01#2 ++ 0b010110#6)) = .ok (.or .x1 .x3) ∧
    decode (0b00000001#8 ++ (0b10#2 ++ 0b010111#6)) = .ok (.xor .x2 .x1) ∧
    decode (0b10100101#8 ++ (0b01#2 ++ 0b011101#6)) = .ok (.andi .x1 0xA5#8) ∧
    decode (0b11111111#8 ++ (0b00#2 ++ 0b011110#6)) = .ok (.ori .x0 0xFF#8) ∧
    decode (0b00000001#8 ++ (0b11#2 ++ 0b011111#6)) = .ok (.xori .x3 1#8) ∧
    decode (0b00000000#8 ++ (0b01#2 ++ 0b001000#6)) = .ok (.not .x1) ∧
    decode (0b00000000#8 ++ (0b11#2 ++ 0b001001#6)) = .ok (.shl .x3) ∧
    decode (0b00000000#8 ++ (0b11#2 ++ 0b001010#6)) = .ok (.shr .x3) := by decide

theorem test_decode_jump_and_call :
    decode (0b10000000#8 ++ (0b00#2 ++ 0b100000#6)) = .ok (.jmp 0x80#8) ∧
    decode (0b00000110#8 ++ (0b01#2 ++ 0b100001#6)) = .ok (.jiz .x1 6#8) ∧
    decode (0b00000010#8 ++ (0b11#2 ++ 0b100010#6)) = .ok (.jnz .x3 2#8) ∧
    decode (0b00110000#8 ++ (0b00#2 ++ 0b100011#6)) = .ok (.jic 0x30#8) ∧
    decode (0b11111110#8 ++ (0b00#2 ++ 0b100100#6)) = .ok (.jnc 0xFE#8) ∧
    decode (0b00110000#8 ++ (0b00#2 ++ 0b100101#6)) = .ok (.jii 0x30#8) ∧
    decode (0b00110000#8 ++ (0b00#2 ++ 0b100110#6)) = .ok (.jni 0x30#8) ∧
    decode (0b01000000#8 ++ (0b00#2 ++ 0b100111#6)) = .ok (.call 0x40#8) ∧
    decode (0b00000000#8 ++ (0b00#2 ++ 0b101000#6)) = .ok .ret := by decide

theorem test_decode_flags_and_streams :
    decode (0b00000000#8 ++ (0b10#2 ++ 0b001011#6)) = .ok (.ldfl .x2) ∧
    decode (0b00000000#8 ++ (0b01#2 ++ 0b001100#6)) = .ok (.stfl .x1) ∧
    decode (0b00000000#8 ++ (0b01#2 ++ 0b001101#6)) = .ok (.wr .x1) ∧
    decode (0b00000000#8 ++ (0b11#2 ++ 0b001110#6)) = .ok (.rd .x3) ∧
    decode (0b00000000#8 ++ (0b00#2 ++ 0b000000#6)) = .ok .noop := by decide

/-- Section 2.1: LDPR's number and the other unmapped words, each refused by name. -/
theorem test_decode_refuses :
    decode 0x000F#16 = .error (.unmappedOpcode 0x0F#6) ∧
    decode 0x0004#16 = .error (.unmappedOpcode 4#6) ∧ decode 0x0007#16 = .error (.unmappedOpcode 7#6) ∧
    decode 0x1229#16 = .error (.unmappedOpcode 0x29#6) ∧ decode 0xFFFF#16 = .error (.unmappedOpcode 0x3F#6) ∧
    decodeTableWord 16 0x000F = none ∧ decodeTableWord 16 0x0193 = some (.sub .x2 .x1) := by decide

/-- R52's worked encodings, and the canonical word of an instruction whose shape leaves bits unused. -/
theorem test_encode :
    encode (.li .x0 5#8) = 0x051A#16 ∧ encode (.wr .x0) = 0x000D#16 ∧
    encode (.sub .x2 .x1) = 0x0193#16 ∧ encode (.jmp 0x80#8) = 0x8020#16 ∧
    encode (.xor .x2 .x1) = 0x0197#16 ∧ encode .ret = 0x0028#16 := by decide

/-! ### One step of each instruction (spec/95_test_vectors.md, section 2) -/

/-- A running core with the given registers, flags and pointer, everything else as at reset. -/
def coreAt (pc : Byte) (x : RegFile) (flags : Byte) : State :=
  { State.reset with pc := pc, x := x, flags := flags }

/-- The state an outcome gives, if it gives one. -/
def nextOf (o : Outcome) : Option State :=
  match o with
  | .next t => some t
  | .fault _ => none
  | .refused _ => none

/-- One step on the word, placed where the step fetches it. -/
def after (s : State) (w : Nat) : Option State := nextOf (step (s.withFetchWord 16 w))

/-- What most vectors list: registers, flags, pointer. -/
def view (o : Option State) : Option (RegFile × Byte × Byte) := o.map fun t => (t.x, t.flags, t.pc)

theorem test_st :
    (after (coreAt 0#8 ⟨0#8, 0#8, 0x99#8, 0#8⟩ 0#8) 0xFF98).map (fun t => (t.readData 0xFF#8, t.pc)) =
      some (0x99#8, 1#8) := by decide

theorem test_str :
    (after (coreAt 0#8 ⟨0xFF#8, 0#8, 0#8, 0x77#8⟩ 0#8) 0x0310).map (fun t => (t.readData 0xFF#8, t.pc)) =
      some (0x77#8, 1#8) := by decide

theorem test_str_same_register :
    (after (coreAt 0#8 ⟨0#8, 0x33#8, 0#8, 0#8⟩ 0#8) 0x0150).map (fun t => t.readData 0x33#8) =
      some 0x33#8 := by decide

theorem test_ld :
    view (after ((coreAt 0#8 ⟨0#8, 0#8, 0#8, 0#8⟩ 0#8).writeData 0xFF#8 0x11#8) 0xFF19) =
      some (⟨0x11#8, 0#8, 0#8, 0#8⟩, 0#8, 1#8) := by decide

theorem test_ldr :
    view (after ((coreAt 0#8 ⟨0#8, 0#8, 0xFF#8, 0#8⟩ 0#8).writeData 0xFF#8 0x11#8) 0x0391) =
      some (⟨0#8, 0#8, 0xFF#8, 0x11#8⟩, 0#8, 1#8) := by decide

theorem test_ldr_same_register :
    view (after ((coreAt 0#8 ⟨0x80#8, 0#8, 0#8, 0#8⟩ 0#8).writeData 0x80#8 0x5C#8) 0x0011) =
      some (⟨0x5C#8, 0#8, 0#8, 0#8⟩, 0#8, 1#8) := by decide

theorem test_li :
    view (after (coreAt 0#8 ⟨0#8, 0#8, 0#8, 0#8⟩ 7#8) 0xFFDA) =
      some (⟨0#8, 0#8, 0#8, 0xFF#8⟩, 7#8, 1#8) := by decide

theorem test_cp :
    view (after (coreAt 0#8 ⟨5#8, 0#8, 0#8, 9#8⟩ 0#8) 0x00D2) =
      some (⟨5#8, 0#8, 0#8, 5#8⟩, 0#8, 1#8) := by decide

theorem test_clc : view (after (coreAt 0#8 ⟨0#8, 0#8, 0#8, 0#8⟩ 0xBF#8) 0x0001) =
    some (⟨0#8, 0#8, 0#8, 0#8⟩, 0xBE#8, 1#8) := by decide

theorem test_cli : view (after (coreAt 0#8 ⟨0#8, 0#8, 0#8, 0#8⟩ 0xBF#8) 0x0002) =
    some (⟨0#8, 0#8, 0#8, 0#8⟩, 0xBD#8, 1#8) := by decide

theorem test_cln : view (after (coreAt 0#8 ⟨0#8, 0#8, 0#8, 0#8⟩ 0xBF#8) 0x0003) =
    some (⟨0#8, 0#8, 0#8, 0#8⟩, 0xBB#8, 1#8) := by decide

theorem test_add_carries : view (after (coreAt 0#8 ⟨0x64#8, 0x9C#8, 0#8, 0#8⟩ 6#8) 0x0114) =
    some (⟨0#8, 0x9C#8, 0#8, 0#8⟩, 7#8, 1#8) := by decide

theorem test_add_does_not_carry_at_255 : view (after (coreAt 0#8 ⟨0x64#8, 0x9B#8, 0#8, 0#8⟩ 6#8) 0x0114) =
    some (⟨0xFF#8, 0x9B#8, 0#8, 0#8⟩, 6#8, 1#8) := by decide

theorem test_addi_wraps : view (after (coreAt 0#8 ⟨0#8, 1#8, 0#8, 0#8⟩ 0#8) 0xFF5C) =
    some (⟨0#8, 0#8, 0#8, 0#8⟩, 1#8, 1#8) := by decide

theorem test_addi_clears_carry : view (after (coreAt 0#8 ⟨0#8, 9#8, 0#8, 0#8⟩ 1#8) 0x005C) =
    some (⟨0#8, 9#8, 0#8, 0#8⟩, 0#8, 1#8) := by decide

theorem test_sub_magnitude : view (after (coreAt 0#8 ⟨3#8, 0x0A#8, 0#8, 0#8⟩ 3#8) 0x0113) =
    some (⟨7#8, 0x0A#8, 0#8, 0#8⟩, 7#8, 1#8) := by decide

theorem test_sub_clears_negative : view (after (coreAt 0#8 ⟨0#8, 0x55#8, 0#8, 0#8⟩ 4#8) 0x0153) =
    some (⟨0#8, 0#8, 0#8, 0#8⟩, 0#8, 1#8) := by decide

theorem test_subi : view (after (coreAt 0#8 ⟨0#8, 0#8, 0x64#8, 0#8⟩ 1#8) 0xC89B) =
    some (⟨0#8, 0#8, 0x64#8, 0#8⟩, 5#8, 1#8) := by decide

theorem test_and : view (after (coreAt 0#8 ⟨0x5A#8, 0#8, 0#8, 0#8⟩ 7#8) 0x0015) =
    some (⟨0x5A#8, 0#8, 0#8, 0#8⟩, 7#8, 1#8) := by decide

theorem test_or : view (after (coreAt 0#8 ⟨0#8, 0xF0#8, 0#8, 0x0F#8⟩ 7#8) 0x0356) =
    some (⟨0#8, 0xFF#8, 0#8, 0x0F#8⟩, 7#8, 1#8) := by decide

theorem test_xor : view (after (coreAt 0#8 ⟨0#8, 0#8, 0xA7#8, 0#8⟩ 7#8) 0x0297) =
    some (⟨0#8, 0#8, 0#8, 0#8⟩, 7#8, 1#8) := by decide

theorem test_andi : view (after (coreAt 0#8 ⟨0xFF#8, 0#8, 0#8, 0#8⟩ 7#8) 0x001D) =
    some (⟨0#8, 0#8, 0#8, 0#8⟩, 7#8, 1#8) := by decide

theorem test_ori : view (after (coreAt 0#8 ⟨0x12#8, 0#8, 0#8, 0#8⟩ 7#8) 0xFF1E) =
    some (⟨0xFF#8, 0#8, 0#8, 0#8⟩, 7#8, 1#8) := by decide

theorem test_xori : view (after (coreAt 0#8 ⟨0x12#8, 0#8, 0#8, 0#8⟩ 7#8) 0x001F) =
    some (⟨0x12#8, 0#8, 0#8, 0#8⟩, 7#8, 1#8) := by decide

theorem test_not : view (after (coreAt 0#8 ⟨0xFF#8, 0#8, 0#8, 0#8⟩ 7#8) 0x0008) =
    some (⟨0#8, 0#8, 0#8, 0#8⟩, 7#8, 1#8) := by decide

theorem test_shl : view (after (coreAt 0#8 ⟨0x80#8, 0#8, 0#8, 0#8⟩ 0#8) 0x0009) =
    some (⟨0#8, 0#8, 0#8, 0#8⟩, 0#8, 1#8) := by decide

theorem test_shr : view (after (coreAt 0#8 ⟨0xFF#8, 0#8, 0#8, 0#8⟩ 1#8) 0x000A) =
    some (⟨0x7F#8, 0#8, 0#8, 0#8⟩, 1#8, 1#8) := by decide

theorem test_jmp_to_itself : view (after (coreAt 0x10#8 ⟨0#8, 0#8, 0#8, 0#8⟩ 0#8) 0x1020) =
    some (⟨0#8, 0#8, 0#8, 0#8⟩, 0#8, 0x10#8) := by decide

theorem test_jiz_taken : view (after (coreAt 0xFF#8 ⟨0#8, 0#8, 0#8, 0#8⟩ 0#8) 0x8021) =
    some (⟨0#8, 0#8, 0#8, 0#8⟩, 0#8, 0x80#8) := by decide

theorem test_jiz_not_taken_wraps : view (after (coreAt 0xFF#8 ⟨0x80#8, 0#8, 0#8, 0#8⟩ 0#8) 0x8021) =
    some (⟨0x80#8, 0#8, 0#8, 0#8⟩, 0#8, 0#8) := by decide

theorem test_jnz_taken : view (after (coreAt 0x7F#8 ⟨0#8, 0#8, 0#8, 1#8⟩ 0#8) 0x00E2) =
    some (⟨0#8, 0#8, 0#8, 1#8⟩, 0#8, 0#8) := by decide

theorem test_jnz_not_taken : view (after (coreAt 0x7F#8 ⟨1#8, 1#8, 1#8, 0#8⟩ 0#8) 0x00E2) =
    some (⟨1#8, 1#8, 1#8, 0#8⟩, 0#8, 0x80#8) := by decide

/-- The pointer after a flag jump at 0x20 to 0x30, for the four flag bytes of section 2.5. -/
def flagJump (w : Nat) : List (Option Byte) :=
  [0x00#8, 0x01#8, 0x02#8, 0x04#8].map fun f =>
    (after (coreAt 0x20#8 ⟨0#8, 0#8, 0#8, 0#8⟩ f) w).map (·.pc)

theorem test_jic : flagJump 0x3023 = [some 0x21#8, some 0x30#8, some 0x21#8, some 0x21#8] := by decide
theorem test_jnc : flagJump 0x3024 = [some 0x30#8, some 0x21#8, some 0x30#8, some 0x30#8] := by decide
theorem test_jii : flagJump 0x3025 = [some 0x21#8, some 0x21#8, some 0x30#8, some 0x21#8] := by decide
theorem test_jni : flagJump 0x3026 = [some 0x30#8, some 0x30#8, some 0x21#8, some 0x30#8] := by decide

theorem test_ldfl : view (after (coreAt 0#8 ⟨1#8, 2#8, 3#8, 4#8⟩ 0xBD#8) 0x008B) =
    some (⟨1#8, 2#8, 0xBD#8, 4#8⟩, 0xBD#8, 1#8) := by decide

theorem test_stfl_halts : (after (coreAt 0xFF#8 ⟨0xC0#8, 0#8, 0#8, 0#8⟩ 7#8) 0x000C).map
    (fun t => (t.flags, t.pc, t.status)) = some (0xC0#8, 0#8, .halted) := by decide

theorem test_stfl_goes_on : (after (coreAt 0#8 ⟨0xBD#8, 0#8, 0#8, 0#8⟩ 2#8) 0x000C).map
    (fun t => (t.flags, t.pc, t.status)) = some (0xBD#8, 1#8, .running) := by decide

/-- LDPR's number: the DecodeError of section 2.1, whatever the register field. -/
theorem test_ldpr : (after (coreAt 1#8 ⟨0#8, 7#8, 0#8, 0#8⟩ 0#8) 0x008F).map
    (fun t => (t.fault, t.pc, t.status, t.x.x1)) =
      some (some (1#8, 0x008F#16), 1#8, .faulted, 7#8) := by decide

/-- A stack of 16 entries, 0x10 to 0x1F. -/
def fullStack : List Byte := (List.range 16).map fun i => BitVec.ofNat 8 (16 + i)

theorem test_call : (after (coreAt 5#8 ⟨0#8, 0#8, 0#8, 0#8⟩ 0#8) 0x4027).map
    (fun t => (t.stack, t.pc)) = some ([5#8], 0x40#8) := by decide

theorem test_call_evicts :
    (after { coreAt 5#8 ⟨0#8, 0#8, 0#8, 0#8⟩ 0#8 with stack := fullStack } 0x4027).map
    (fun t => (t.stack, t.pc)) = some (fullStack.tail ++ [5#8], 0x40#8) := by decide

theorem test_ret : (after { coreAt 0x22#8 ⟨0#8, 0#8, 0#8, 0#8⟩ 0#8 with stack := [3#8, 9#8] } 0x0028).map
    (fun t => (t.stack, t.pc)) = some ([3#8], 9#8) := by decide

theorem test_ret_empty : (after (coreAt 0xFF#8 ⟨0#8, 0#8, 0#8, 0#8⟩ 0#8) 0x0028).map
    (fun t => (t.stack, t.pc)) = some ([], 0#8) := by decide

theorem test_wr : (after (coreAt 0#8 ⟨0#8, 0x41#8, 0#8, 0#8⟩ 0#8) 0x004D).map
    (fun t => (t.outStream, t.x.x1, t.pc)) = some ([0x41#8], 0x41#8, 1#8) := by decide

theorem test_rd : (after { coreAt 0#8 ⟨0#8, 0#8, 0#8, 0#8⟩ 0#8 with inStream := [0x0A#8, 0x0B#8] } 0x00CE).map
    (fun t => (t.x.x3, t.inStream, t.pc)) = some (0x0A#8, [0x0B#8], 1#8) := by decide

theorem test_rd_end_and_blocked :
    view (after (coreAt 0#8 ⟨0#8, 0#8, 0#8, 0#8⟩ 0#8) 0x00CE) =
      some (⟨0#8, 0#8, 0#8, 0xFF#8⟩, 0#8, 1#8) ∧
    view (after { coreAt 0#8 ⟨0#8, 0#8, 0#8, 0#8⟩ 0#8 with inEnded := false } 0x00CE) =
      some (⟨0#8, 0#8, 0#8, 0#8⟩, 0#8, 0#8) := by decide

theorem test_noop : view (after (coreAt 0xFF#8 ⟨1#8, 2#8, 3#8, 4#8⟩ 7#8) 0x0000) =
    some (⟨1#8, 2#8, 3#8, 4#8⟩, 7#8, 0#8) := by decide

/-- The parameters reach the step: LDR exchanged, carry only ever set, depth 1, no call stack, an unmapped word as
NOOP, another end-of-input byte (R6, U17). -/
theorem test_step_follows_configuration :
    let at_ := fun (c : Config) (s : State) (w : Nat) => after { s with config := c } w
    view (at_ { Config.spec with ldrOrientation := .destReg1AddrReg2 }
      ((coreAt 0#8 ⟨0#8, 0#8, 0#8, 0xFF#8⟩ 0#8).writeData 0xFF#8 0x11#8) 0x0391) =
        some (⟨0#8, 0#8, 0x11#8, 0xFF#8⟩, 0#8, 1#8) ∧
    view (at_ { Config.spec with flagUpdate := .setOnly } (coreAt 0#8 ⟨0#8, 9#8, 0#8, 0#8⟩ 1#8) 0x005C) =
      some (⟨0#8, 9#8, 0#8, 0#8⟩, 1#8, 1#8) ∧
    (at_ { Config.spec with stackDepth := 1 }
      { coreAt 5#8 ⟨0#8, 0#8, 0#8, 0#8⟩ 0#8 with stack := [0x30#8] } 0x4027).map (·.stack) = some [5#8] ∧
    (at_ noStack (coreAt 5#8 ⟨0#8, 0#8, 0#8, 0#8⟩ 0#8) 0x4027).map (·.fault) =
      some (some (5#8, 0x4027#16)) ∧
    view (at_ { Config.spec with unmappedPolicy := .noop } (coreAt 0#8 ⟨1#8, 2#8, 3#8, 4#8⟩ 7#8) 0x1229) =
      some (⟨1#8, 2#8, 3#8, 4#8⟩, 7#8, 1#8) ∧
    view (at_ { Config.spec with rdEofValue := 0#8 } (coreAt 0#8 ⟨1#8, 2#8, 3#8, 4#8⟩ 7#8) 0x00CE) =
      some (⟨1#8, 2#8, 3#8, 0#8⟩, 7#8, 1#8) := by decide

/-- Section 2.9: the interrupt turn on three flag bytes, and on a halted core. -/
theorem test_irq :
    [0x00#8, 0x07#8, 0xB9#8, 0x40#8].map (fun f =>
      (nextOf (step { coreAt 0#8 ⟨0#8, 0#8, 0#8, 0#8⟩ f with schedule := [.irq] })).map (·.flags)) =
    [some 0x02#8, some 0x07#8, some 0xBB#8, some 0x40#8] := by decide

/-- The host's order of R130 on a halted core: hold, write, release; the core that is released runs. -/
theorem test_host_holds_writes_releases :
    let held := (coreAt 5#8 ⟨1#8, 2#8, 3#8, 4#8⟩ 0x40#8).applyReset
    held.status = .inReset ∧
    (nextOf (step { held with schedule := [.hostWriteProgram 0#8 0x051A#16] })).map
      (fun t => (t.programWord 0#8, t.status)) = some (0x051A#16, .inReset) ∧
    (nextOf (step { held with schedule := [.hostRelease [7#8] false] })).map
      (fun t => (t.status, t.inStream, t.pc)) = some (.running, [7#8], 0#8) := by decide

/-- R111: a program with RET is refused where there is no call stack, and so is a stack of depth 0. -/
theorem test_launch_refuses :
    (launch noStack [0#16, 0x0028#16] [] [] true true).toOption = none ∧
    (launch { Config.spec with stackDepth := 0 } [0#16] [] [] true true).toOption = none := by decide

/-- U11: a program image one cell too long is not loaded in part: the host has no turns for it. -/
theorem test_load_never_truncates :
    (loadTurns (List.replicate 257 0x0028#16) [] [] true).toOption = none := by
  rw [loadTurns, if_neg (fun h => absurd h.1 (by rw [List.length_replicate]; decide))]
  rfl

/-- R131: three program bytes stop inside a cell; four are two cells, head byte first. -/
theorem test_program_image :
    (wordsOfImage [0x1A#8, 0x05#8, 0x0D#8]).toOption = none ∧
    (wordsOfImage [0x1A#8, 0x05#8, 0x0D#8, 0x00#8]).toOption = some [0x051A#16, 0x000D#16] := by decide

/-- Section 2.7, last line: a stack of depth 1. -/
theorem test_push_depth_one :
    (({ State.reset with stack := [0x30#8] } : State).push { Config.spec with stackDepth := 1 } 5#8).stack =
      [5#8] := by decide

/-! ### Witnesses: for each statement with hypotheses, a state and operands that meet them, clause by clause -/

/-- A running core with a word at its pointer and nothing scheduled. -/
def runningOn (w : Nat) : State := (coreAt 5#8 ⟨1#8, 2#8, 3#8, 4#8⟩ 0x03#8).withFetchWord 16 w

/-- The same core with agents' turns scheduled. -/
def withTurns (s : State) (turns : List AgentTurn) : State := { s with schedule := turns }

/-- A halted core (FLAGS bit 6), a faulted one whose latch is precise, and one held in reset. -/
def haltedCore : State := coreAt 5#8 ⟨1#8, 2#8, 3#8, 4#8⟩ 0x40#8
def faultedCore : State := { runningOn 0x0004 with fault := some (5#8, 0x0004#16) }
def heldCore : State := (runningOn 0x0004).applyReset

theorem witness_CodecTripleRoundTrip :
    mirrored.valid = true ∧ mirrored.present .ret = true ∧ legalOperand Mnemonic.ret.shape .none = true ∧
    legalOperand Mnemonic.sub.shape (.reg2 .x3) = true ∧ legalOperand Mnemonic.jmp.shape (.data 0xFF#8) = true ∧
    Instr.noop.mnemonic.shape = .none ∧ (Instr.jmp 0xFF#8).mnemonic.shape = .dataOnly ∧
    decodeWith Config.spec 0xFFC0#16 = .ok .noop ∧ decodeWith Config.spec 0x0000#16 = .ok .noop := by decide

theorem witness_InstructionRoundTrip :
    mirrored.valid = true ∧ (Instr.sub .x2 .x1).wellFormed mirrored = true ∧ noStack.valid = true ∧
    (Instr.sub .x2 .x1).wellFormed noStack = true := by decide

theorem witness_OnlyUsedBitsMatter :
    decodeWith Config.spec 0xFD93#16 = .ok (.sub .x2 .x1) ∧
    0xFD93#16 &&& Shape.dual.usedBits = 0x0193#16 &&& Shape.dual.usedBits ∧
    0xFD93#16 &&& Shape.dual.usedBits ≠ 0x0293#16 &&& Shape.dual.usedBits := by decide

/-- Both branches at every boundary of the refused ranges. -/
theorem witness_UnmappedOpcodesAreRefused :
    [0x03#16, 0x08#16, 0x0E#16, 0x10#16, 0x28#16].all (fun w => (decodeOption w).isSome) = true ∧
    [0x04#16, 0x07#16, 0x0F#16, 0x29#16, 0x3F#16].all (fun w => (decodeOption w).isNone) = true := by decide

theorem witness_FlagClearsClearOneBit :
    (Instr.cln, Flag.negative) ∈ [(Instr.clc, Flag.carry), (Instr.cli, Flag.interrupt), (Instr.cln, Flag.negative)] := by
  decide

/-- Both forms, at a sum of 255 and of 256. -/
theorem witness_AddWrapsAndAssignsCarry :
    (∃ r2, Instr.add .x0 .x1 = Instr.add .x0 r2 ∧ 2#8 = (runningOn 0).reg r2) ∧
    Instr.addi .x0 254#8 = Instr.addi .x0 254#8 ∧ ((runningOn 0).reg .x0).toNat + (254#8).toNat = 255 ∧
    ((runningOn 0).reg .x0).toNat + (255#8).toNat = 256 := ⟨⟨.x1, rfl, rfl⟩, rfl, rfl, rfl⟩

/-- Both forms, at equal operands and at a difference of -1. -/
theorem witness_SubStoresMagnitudeAndSign :
    (∃ r2, Instr.sub .x0 .x1 = Instr.sub .x0 r2 ∧ 2#8 = (runningOn 0).reg r2) ∧
    Instr.subi .x0 1#8 = Instr.subi .x0 1#8 ∧ ((runningOn 0).reg .x0).toNat = (1#8).toNat ∧
    ((runningOn 0).reg .x0).toNat < (2#8).toNat := ⟨⟨.x1, rfl, rfl⟩, rfl, rfl, by decide⟩

theorem witness_BitwiseRegisterForms :
    (Instr.xor .x0 .x1, xor) ∈ [(Instr.and .x0 .x1, and), (Instr.or .x0 .x1, or), (Instr.xor .x0 .x1, xor)] := by
  simp

theorem witness_BitwiseImmediateForms :
    (Instr.xori .x0 9#8, xor) ∈ [(Instr.andi .x0 9#8, and), (Instr.ori .x0 9#8, or), (Instr.xori .x0 9#8, xor)] := by
  simp

theorem witness_UnaryForms :
    (Instr.shr .x0, fun n : Nat => n / 2) ∈ [(Instr.not .x0, fun n => 255 - n),
      (Instr.shl .x0, fun n => 2 * n % 256), (Instr.shr .x0, fun n : Nat => n / 2)] := by
  simp

theorem witness_StflLoadsFlagsAndHalts : (runningOn 0x000C).inReset = false := by decide

theorem witness_LdprRaisesDecodeError : mirrored.valid = true := by decide

theorem witness_CallPushesOwnAddress :
    ({ runningOn 0 with stack := fullStack.tail } : State).stack.length = 15 ∧
    ({ runningOn 0 with stack := fullStack } : State).stack.length = 16 ∧
    (runningOn 0).stack.length < 16 ∧ (runningOn 0).config.stackDepth = 16 := by decide

theorem witness_RetGoesToPoppedAddress :
    ({ runningOn 0 with stack := [3#8, 9#8] } : State).stack = [3#8] ++ [9#8] ∧ (runningOn 0).stack = [] := by
  decide

theorem witness_WrAppendsOneByte :
    (runningOn 0).sinkReady = true ∧ ({ runningOn 0 with sinkReady := false } : State).sinkReady = false := by
  decide

theorem witness_RdTakesOneByte :
    ({ runningOn 0 with inStream := [7#8] } : State).inStream = 7#8 :: [] ∧
    ((runningOn 0).inStream = [] ∧ (runningOn 0).inEnded = true) ∧
    ({ runningOn 0 with inEnded := false } : State).inStream = [] ∧
    ({ runningOn 0 with inEnded := false } : State).inEnded = false := by decide

theorem witness_PushEvictsTheOldest :
    1 ≤ Config.spec.stackDepth ∧ 1 ≤ ({ Config.spec with stackDepth := 1 } : Config).stackDepth ∧
    fullStack.tail.length < Config.spec.stackDepth ∧ fullStack.length = Config.spec.stackDepth ∧
    14 + 1 < Config.spec.stackDepth ∧ (runningOn 0).stack = [] := by decide

theorem witness_PopTakesTheNewest : fullStack = fullStack.dropLast ++ [0x1F#8] ∧ (runningOn 0).stack = [] := by
  decide

theorem witness_StackStaysBounded :
    fullStack.length ≤ (runningOn 0x4027).config.stackDepth ∧ 1 ≤ (runningOn 0x4027).config.stackDepth ∧
    ∃ t, step { runningOn 0x4027 with stack := fullStack } = .next t := ⟨by decide, by decide, _, rfl⟩

theorem witness_RetRunsTheCallAgain :
    fullStack.tail.length < (runningOn 0).config.stackDepth ∧
    (runningOn 0).config.stackDepth ≤ fullStack.length := by decide

theorem witness_InstructionsNeverStop :
    storeAddress (runningOn 0) (.str .x0 .x1) = some 1#8 ∧ storeAddress (runningOn 0) (.str .x0 .x1) ≠ some 2#8 ∧
    blocked { runningOn 0 with sinkReady := false } (.wr .x1) = true ∧
    blocked { runningOn 0 with inStream := [], inEnded := false } (.rd .x3) = true := by
  decide

/-- A jump taken and an instruction that is no jump, neither blocked. -/
theorem witness_PointerAdvancesOrJumps :
    (∃ t, exec (.jic 0x30#8) (runningOn 0) = .next t) ∧ jumpsTo (runningOn 0) (.jic 0x30#8) = some 0x30#8 ∧
    blocked (runningOn 0) (.jic 0x30#8) = false ∧ (Instr.jic 0x30#8).mnemonic ≠ .ldpr ∧
    (∃ t, exec (.wr .x0) (runningOn 0) = .next t) ∧ blocked (runningOn 0) (.wr .x0) = false ∧
    jumpsTo (runningOn 0) (.wr .x0) = none :=
  ⟨⟨_, rfl⟩, by decide, by decide, by decide, ⟨_, rfl⟩, by decide, by decide⟩

theorem witness_PointerUpdateTable :
    (runningOn 0x004D).config.valid = true ∧ (runningOn 0x004D).nextTurn = .core ∧
    (runningOn 0x004D).status = .running ∧
    decodeWith (runningOn 0x004D).config (runningOn 0x004D).fetch = .ok (.wr .x1) ∧
    blocked (runningOn 0x004D) (.wr .x1) = false ∧
    (runningOn 0x0004).status = .running ∧ (runningOn 0x0004).nextTurn = .core ∧
    decodeWith (runningOn 0x0004).config (runningOn 0x0004).fetch = .error (.unmappedOpcode 4#6) := by decide

theorem witness_RegistersTouchedByTable :
    (∃ t, exec (.ldr .x1 .x2) (runningOn 0) = .next t) ∧
    regWritten (runningOn 0).config (.ldr .x1 .x2) ≠ some .x1 ∧
    Reg.x2 ∉ regsRead (runningOn 0).config (.ldr .x1 .x2) ∧ blocked (runningOn 0) (.ldr .x1 .x2) = false ∧
    regWritten (runningOn 0).config (.ldr .x1 .x2) = some .x2 := ⟨⟨_, rfl⟩, by decide, by decide, by decide, by decide⟩

theorem witness_FlagsTouchedByTable :
    (∃ t, exec (.subi .x0 9#8) (runningOn 0) = .next t) ∧ flagsWritten (.subi .x0 9#8) ≠ 0xFF#8 :=
  ⟨⟨_, rfl⟩, by decide⟩

/-- STFL with bit 6 set at a running core; an agent's turn at a halted one; a halted core on its own. -/
theorem witness_HaltBitRule :
    (∃ t, step ((coreAt 0#8 ⟨0xC0#8, 0#8, 0#8, 0#8⟩ 7#8).withFetchWord 16 0x000C) = .next t ∧
      t.flag .halt = true) ∧
    resetNext (runningOn 0x000C) = false ∧ (runningOn 0x000C).flag .halt = false ∧
    (∃ t, step (withTurns haltedCore [.hostWriteData 1#8 2#8]) = .next t) ∧
    resetNext (withTurns haltedCore [.hostWriteData 1#8 2#8]) = false ∧
    haltedCore.status = .halted ∧ haltedCore.schedule = [] :=
  ⟨⟨_, rfl, by decide⟩, by decide, by decide, ⟨_, rfl⟩, by decide, by decide, by decide⟩

/-- Two cores that differ in all four reserved bits. -/
theorem witness_ReservedBitsAreInert :
    SameButFlagBits reservedBits (coreAt 5#8 ⟨1#8, 2#8, 3#8, 4#8⟩ 0x03#8) (coreAt 5#8 ⟨1#8, 2#8, 3#8, 4#8⟩ 0xBB#8) ∧
    (∀ r, Instr.add .x0 .x1 ≠ .ldfl r) ∧
    ∃ t, exec (.add .x0 .x1) (coreAt 5#8 ⟨1#8, 2#8, 3#8, 4#8⟩ 0x03#8) = .next t :=
  ⟨⟨by decide, by decide⟩, by simp, _, rfl⟩

/-- Two cores that differ in the interrupt flag. -/
theorem witness_InterruptFlagReachesThreeInstructions :
    SameButFlagBits interruptBits (coreAt 5#8 ⟨1#8, 2#8, 3#8, 4#8⟩ 0x01#8) (coreAt 5#8 ⟨1#8, 2#8, 3#8, 4#8⟩ 0x03#8) ∧
    readsInterrupt (.jic 9#8) = false ∧
    ∃ t, exec (.jic 9#8) (coreAt 5#8 ⟨1#8, 2#8, 3#8, 4#8⟩ 0x01#8) = .next t :=
  ⟨⟨by decide, by decide⟩, by decide, _, rfl⟩

/-- The address stored to is loaded from, and another one is. -/
theorem witness_LoadSeesTheLastStore :
    1#8 = (runningOn 0).reg .x0 ∧ 2#8 ≠ (runningOn 0).reg .x0 := by decide

theorem witness_StepRunsTheDecodedInstruction :
    (runningOn 0x004D).status = .running ∧
    decodeWith (runningOn 0x004D).config (runningOn 0x004D).fetch = .ok (.wr .x1) ∧
    (runningOn 0x004D).schedule = [] ∧ (runningOn 0x004D).freeTurns = false ∧
    (withTurns (runningOn 0x004D) [.core, .irq]).schedule = .core :: [.irq] ∧
    (withTurns (runningOn 0x004D) [.core, .irq]).status = .running ∧
    ({ runningOn 0x004D with freeTurns := true } : State).freeTurns = true := by decide

theorem witness_PlacedWordRunsNext :
    (runningOn 0).status = .running ∧
    decodeWith (runningOn 0).config (tableWord 16 0x0193) = .ok (.sub .x2 .x1) ∧ 6#8 ≠ (runningOn 0).pc := by
  decide

theorem witness_UndecodableWordFaults :
    (runningOn 0x0004).nextTurn = .core ∧ (runningOn 0x0004).status = .running ∧
    decodeWith (runningOn 0x0004).config (runningOn 0x0004).fetch = .error (.unmappedOpcode 4#6) ∧
    (runningOn 0x0004).config.unmappedPolicy = .fault ∧ (runningOn 0x0004).turnTaken.schedule = [] ∧
    decodeWith { Config.spec with unmappedPolicy := .noop } (runningOn 0x0004).fetch =
      .error (.unmappedOpcode 4#6) := by decide

theorem witness_EndedCoreHasNoStep :
    (runningOn 0).status = .running ∧ (runningOn 0).nextTurn = .core ∧
    haltedCore.flags.getLsbD 6 = true ∧ haltedCore.inReset = false ∧ haltedCore.schedule = [] ∧
    faultedCore.flags.getLsbD 6 = false ∧ faultedCore.inReset = false ∧ faultedCore.fault ≠ none ∧
    faultedCore.schedule = [] ∧ heldCore.schedule = [] ∧ heldCore.inReset = true ∧
    (withTurns faultedCore [.core]).schedule = .core :: [] ∧ (withTurns faultedCore [.core]).status ≠ .running := by
  decide

/-- A WR whose sink refuses, and an RD with no byte and an input that has not ended. -/
theorem witness_EndedCoreHasNoStep_blocked :
    let wr := { runningOn 0x004D with sinkReady := false }
    let rd := { runningOn 0x00CE with inStream := [], inEnded := false }
    (wr.status = .running ∧ wr.nextTurn = .core ∧ decodeWith wr.config wr.fetch = .ok (.wr .x1) ∧
      blocked wr (.wr .x1) = true) ∧
    rd.status = .running ∧ rd.nextTurn = .core ∧ decodeWith rd.config rd.fetch = .ok (.rd .x3) ∧
      blocked rd (.rd .x3) = true := by
  decide

/-- Each environment turn at the head of the schedule of a running core, one at an ended core, and a running core
left to the environment. -/
theorem witness_EnvironmentTurns :
    [AgentTurn.irq, .inputByte 7#8, .inputEnd, .sinkAccept, .sinkStall].all (fun a =>
      (withTurns (runningOn 0) [a]).status == .running && (withTurns (runningOn 0) [a]).schedule == a :: []) = true ∧
    (withTurns haltedCore [.irq]).status ≠ .running ∧ (withTurns haltedCore [.irq]).schedule = .irq :: [] ∧
    State.reset.schedule = [] ∧ State.reset.freeTurns = true ∧ State.reset.status = .running := by
  decide

/-- A reset of a faulted core; a release of a core that is not held, of a held one, and of held ones whose launch is
refused; each host write at a running core and at an ended one. -/
theorem witness_HostTurns :
    (withTurns faultedCore [.hostReset]).schedule = .hostReset :: [] ∧
    (withTurns heldCore [.hostRelease [7#8] false]).schedule = .hostRelease [7#8] false :: [] ∧
    faultedCore.inReset = false ∧ heldCore.inReset = true ∧ heldCore.config.valid = true ∧
    heldCore.config.hasCallStack = true ∧ heldCore.status = .inReset ∧
    ({ Config.spec with stackDepth := 0 } : Config).valid = false ∧
    noStack.valid = true ∧ noStack.hasCallStack = false ∧
    opcodeField ((heldCore.placeWord 9#8 0x0028#16).programWord 9#8) = noStack.opcodeOf .ret ∧
    (withTurns (runningOn 0) [.hostWriteProgram 1#8 2#16]).status = .running ∧
    (withTurns haltedCore [.hostWriteProgram 1#8 2#16]).status ≠ .running ∧
    (withTurns (runningOn 0) [.hostWriteData 1#8 2#8]).status = .running ∧
    (withTurns haltedCore [.hostWriteData 1#8 2#8]).status ≠ .running := by decide

/-- A held core without a call stack whose program has neither CALL nor RET. -/
theorem witness_HostTurns_released :
    ∀ a : Byte, opcodeField (State.reset.applyReset.programWord a) ≠ noStack.opcodeOf .call ∧
      opcodeField (State.reset.applyReset.programWord a) ≠ noStack.opcodeOf .ret := by
  intro a
  have h : State.reset.applyReset.programWord a = 0#16 := by simp [State.programWord, State.reset, wordOfBytes, blankByte]
  rw [h]
  decide

theorem witness_HostTurns_values : AtResetValues heldCore :=
  ⟨fun r => by cases r <;> rfl, by decide, by decide, by decide, by decide, by decide⟩

/-- A reset of a faulted core, another turn at a halted one, and a release of a held one. -/
theorem witness_OnlyResetLeavesTheEnd :
    (∃ t, step (withTurns faultedCore [.hostReset]) = .next t ∧ faultedCore.status = .faulted ∧
      resetNext (withTurns faultedCore [.hostReset]) = true) ∧
    (∃ t, step (withTurns haltedCore [.irq]) = .next t ∧ haltedCore.status = .halted ∧
      resetNext (withTurns haltedCore [.irq]) = false) ∧
    (∃ t, step (withTurns heldCore [.hostRelease [] true]) = .next t ∧
      (withTurns heldCore [.hostRelease [] true]).status ≠ .running ∧ t.status = .running) :=
  ⟨⟨_, rfl, by decide, by decide⟩, ⟨_, rfl, by decide, by decide⟩, ⟨_, rfl, by decide, by decide⟩⟩

theorem witness_OutputIsWhatWrEmitted :
    (∃ t, step (runningOn 0x004D) = .next t ∧ t.outStream = [2#8]) ∧ resetNext (runningOn 0x004D) = false :=
  ⟨⟨_, rfl, by decide⟩, by decide⟩

/-- RD with a byte available, and the input agent's append before the input has ended. -/
theorem witness_InputIsConsumedInOrder :
    (∃ t, step { runningOn 0x00CE with inStream := [9#8] } = .next t ∧ t.reg .x3 = 9#8) ∧
    releaseNext (runningOn 0x00CE) = false ∧
    (∃ t, step { withTurns (runningOn 0) [.inputByte 9#8] with inEnded := false } = .next t ∧ t.inStream = [9#8]) ∧
    releaseNext (withTurns (runningOn 0) [.inputByte 9#8]) = false :=
  ⟨⟨_, rfl, by decide⟩, by decide, ⟨_, rfl, by decide⟩, by decide⟩

/-- An image that fits exactly, one that is one cell too long, a configuration without a meaning, and a program with
CALL and one without for a core that has no call stack. -/
theorem witness_LaunchHoldsTheImages :
    Config.spec.valid = true ∧ (List.replicate 256 0x0028#16).length ≤ 256 ∧
    256 < (List.replicate 257 0x0028#16).length ∧ 256 < (List.replicate 257 1#8).length ∧
    ({ Config.spec with stackDepth := 0 } : Config).valid = false ∧
    Config.spec.hasCallStack = true ∧ noStack.valid = true ∧ noStack.hasCallStack = false ∧
    opcodeField (([0#16, 0x4027#16] : List InstrWord).getD (1#8 : Byte).toNat 0#16) = noStack.opcodeOf .call ∧
    (∀ a : Byte, opcodeField (([] : List InstrWord).getD a.toNat 0#16) ≠ noStack.opcodeOf .call ∧
      opcodeField (([] : List InstrWord).getD a.toNat 0#16) ≠ noStack.opcodeOf .ret) := by
  refine ⟨by decide, ?_, ?_, ?_, by decide, by decide, by decide, by decide, by decide, ?_⟩
  · rw [List.length_replicate]
  · rw [List.length_replicate]; omega
  · rw [List.length_replicate]; omega
  · intro a
    rw [List.getD_nil]
    decide

/-- Lengths at the boundaries of each clause. -/
theorem witness_ImageBytesGiveTheWords :
    (List.replicate 256 0#16).length = 256 ∧ (List.replicate 256 0#8).length = 256 ∧
    512 < (List.replicate 513 0#8).length ∧
    ((List.replicate 511 0#8).length ≤ 512 ∧ (List.replicate 511 0#8).length % 2 = 1) ∧
    wordsOfImage [0x1A#8, 0x05#8] = .ok [0x051A#16] ∧
    768 < (List.replicate 769 0#8).length ∧ (List.replicate 767 0#8).length < 768 := by
  refine ⟨?_, ?_, ?_, ⟨?_, ?_⟩, rfl, ?_, ?_⟩ <;> rw [List.length_replicate] <;> omega

/-- A running core that is reloaded, for which the launch is made, and images one cell too long. -/
theorem witness_HostLoadGivesTheLaunch :
    (∀ l, MachineInv { runningOn 0 with schedule := l }) ∧
    [0x051A#16].length ≤ 256 ∧ [7#8].length ≤ 256 ∧
    (launch Config.spec [0x051A#16] [7#8] [9#8] true true).toOption.isSome = true ∧
    256 < (List.replicate 257 0x0028#16).length ∧ 256 < (List.replicate 257 1#8).length :=
  have h : MachineInv (runningOn 0) :=
    ⟨by decide, by decide, by decide, by decide, by decide, (fun _ _ h => nomatch h), (fun h => nomatch h)⟩
  ⟨fun _ => ⟨h.config, h.head, h.opnd, h.data, h.stack, h.latch, h.held⟩, by decide, by decide, by decide,
    by rw [List.length_replicate]; omega, by rw [List.length_replicate]; omega⟩

theorem witness_CanonicalMemoriesAreEqual :
    Memory.wf [(1, 7#8), (255, 9#8)] ∧ Memory.wf (Memory.writeAt [(1, 7#8), (5, 3#8), (255, 9#8)] 5 0#8) ∧
    ∀ a : Byte, Memory.readAt [(1, 7#8), (255, 9#8)] a.toNat =
      Memory.readAt (Memory.writeAt [(1, 7#8), (5, 3#8), (255, 9#8)] 5 0#8) a.toNat :=
  ⟨by decide, by decide, fun _ => rfl⟩

theorem witness_AlternativeParameters :
    ({ Config.spec with flagUpdate := .setOnly } : Config).flagUpdate = .setOnly ∧
    ({ Config.spec with ldrOrientation := .destReg1AddrReg2 } : Config).ldrOrientation = .destReg1AddrReg2 ∧
    ({ Config.spec with unmappedPolicy := .noop } : Config).unmappedPolicy = .noop ∧
    (runningOn 0).inStream = [] := by decide

/-- A state that is not the reset state: memories with entries, a stack, and a store at the pointer. -/
theorem witness_EveryStepKeepsTheInvariant :
    MachineInv { runningOn 0x0310 with stack := fullStack } ∧
    ∃ t, step { runningOn 0x0310 with stack := fullStack } = .next t ∧ t.dmem = [(1, 4#8)] :=
  ⟨⟨by decide, by decide, by decide, by decide, by decide, (fun _ _ h => nomatch h), (fun h => nomatch h)⟩,
    _, rfl, by decide⟩

/-- The invariant's clause about the latch, at a state whose latch is set, and its clause about a held core. -/
theorem witness_MachineInv_latch : MachineInv faultedCore :=
  ⟨by decide, by decide, by decide, by decide, by decide,
    by intro a w h; cases h; exact ⟨rfl, ⟨_, rfl⟩, by decide⟩,
    (fun h => nomatch h)⟩

theorem witness_MachineInv_held : MachineInv heldCore :=
  ⟨by decide, by decide, by decide, by decide, by decide, (fun _ _ h => nomatch h),
    fun _ => witness_HostTurns_values⟩

theorem witness_ProgramMemoryIsConstant :
    (∀ u ∈ (withTurns (runningOn 0) [.irq, .core]).schedule, AgentTurn.writesProgram u = false) ∧
    ∃ t, Sys2Proof.core.run 2 (withTurns (runningOn 0) [.irq, .core]) = .next t := by
  refine ⟨by decide, ?_⟩
  rw [run_succ_of_next 1 rfl, run_succ_of_next 0 rfl, run_zero]
  exact ⟨_, rfl⟩

/-- A run for ever: a jump to itself under a stream in which only the core acts. -/
theorem witness_EveryInterleavingIsARun :
    IsRun (freeStream fun _ => .core) (fun _ => runningOn 0x0520) :=
  have h : takeTurn .core (runningOn 0x0520) = .next (runningOn 0x0520) := by rfl
  fun _ => h

/-- A run from reset along the environment's own choices, whatever they are, that is running at its first turn. -/
theorem witness_EveryInterleavingIsARun_free :
    ∃ states : Nat → State, (states 0).schedule = [] ∧ (states 0).freeTurns = true ∧
      IsRun (freeStream fun k => Config.environment ((states 0).turn + k)) states ∧
      ∀ k, k < 1 → (states k).status = .running := by
  let next (k : Nat) (s : State) : State := (takeTurn_free_next (Config.environment (0 + k)) s).choose
  let states : Nat → State := fun n => n.rec State.reset next
  refine ⟨states, rfl, rfl, fun k => (takeTurn_free_next (Config.environment (0 + k)) (states k)).choose_spec, ?_⟩
  intro k hk
  obtain rfl : k = 0 := by omega
  exact (by decide : State.reset.status = .running)

/-- Two cores that differ in the interrupt flag run an STFL that halts: the word reads no interrupt flag. -/
theorem witness_RunsIgnoreTheInterruptFlag :
    let s := (coreAt 5#8 ⟨0x40#8, 0#8, 0#8, 0#8⟩ 0x01#8).withFetchWord 16 0x000C
    let s' := (coreAt 5#8 ⟨0x40#8, 0#8, 0#8, 0#8⟩ 0x03#8).withFetchWord 16 0x000C
    SameButFlagBits interruptBits s s' ∧ s.status = .running ∧
    (∀ k, k < 1 → ∀ u i, Sys2Proof.core.run k s = .next u → runsNow u = some i → readsInterrupt i = false) ∧
    ∃ t, Sys2Proof.core.run 1 s = .next t ∧ t.flag .halt = true := by
  refine ⟨⟨by decide, by decide⟩, by decide, ?_, ?_⟩
  · intro k hk u i hu hi
    obtain rfl : k = 0 := by omega
    rw [run_zero] at hu
    cases hu
    have h : runsNow ((coreAt 5#8 ⟨0x40#8, 0#8, 0#8, 0#8⟩ 0x01#8).withFetchWord 16 0x000C) = some (.stfl .x0) := by
      decide
    rw [h] at hi
    cases hi
    rfl
  · rw [run_succ_of_next 0 rfl, run_zero]
    exact ⟨_, rfl, by decide⟩

end Sys2Proof.Tests
end

/-!
SUPPORT. The call stack and the program pointer under every instruction and every turn (spec/10_state.md R13, R22 to
R26): the laws of push and pop over whole sequences, what each instruction does to the two, and the settled
statements about them.
-/

namespace Sys2Proof.Machine

open Sys2Proof.Safety

/-! ### Push and pop -/

/-- A push keeps the newest entries, as many as the depth, of any sequence of addresses. -/
theorem pushEntry_newest {depth : Nat} (as : List Byte) (a : Byte) (hd : 1 ≤ depth) :
    pushEntry depth (as.drop (as.length - depth)) a = (as ++ [a]).drop ((as ++ [a]).length - depth) := by
  have hlen : (as ++ [a]).length = as.length + 1 := by simp
  by_cases hroom : as.length < depth
  · have hall : as.length - depth = 0 := by omega
    have hall' : as.length + 1 - depth = 0 := by omega
    rw [hlen, hall, hall', List.drop_zero, List.drop_zero, pushEntry_of_room a hroom]
  · have hfull : depth ≤ (as.drop (as.length - depth)).length := by rw [List.length_drop]; omega
    rw [hlen, pushEntry_of_full a hfull, List.drop_drop, List.drop_append_of_le_length (by omega),
      show as.length - depth + 1 = as.length + 1 - depth by omega]

/-- Pushing any addresses on an empty stack keeps the newest, as many as the depth, and changes nothing else. -/
theorem foldl_push_of_empty {c : Config} (hd : 1 ≤ c.stackDepth) {s : State} (hs : s.stack = [])
    (as : List Byte) :
    as.foldl (fun u a => u.push c a) s = { s with stack := as.drop (as.length - c.stackDepth) } := by
  induction as using List.reverseRecOn with
  | nil => cases s; simp_all
  | append_singleton as a ih =>
    rw [List.foldl_append, ih]
    simp only [List.foldl_cons, List.foldl_nil, State.push, pushEntry_newest as a hd]

theorem State.push_of_room {c : Config} {s : State} (a : Byte) (h : s.stack.length < c.stackDepth) :
    s.push c a = { s with stack := s.stack ++ [a] } := by
  rw [State.push, pushEntry_of_room a h]

theorem State.push_of_full {c : Config} {s : State} (a : Byte) (h : c.stackDepth ≤ s.stack.length) :
    s.push c a = { s with stack := s.stack.drop 1 ++ [a] } := by
  rw [State.push, pushEntry_of_full a h]

/-- Settles O26: the two cases of a push, and by induction from the end of the sequence what many of them keep. -/
theorem pushEvictsTheOldest : Obligations.PushEvictsTheOldest := by
  intro c hd
  refine ⟨fun s a h => State.push_of_room a h, fun s a h => ?_,
    fun s as hs => foldl_push_of_empty hd hs as⟩
  have hrest : (s.stack.drop 1).length = c.stackDepth - 1 := by rw [List.length_drop, h]
  rw [State.push_of_full a h.ge]
  refine ⟨?_, fun i hi => ?_, ?_, ?_⟩
  · rw [List.length_append, hrest, List.length_singleton]
    omega
  · rw [List.getElem?_append_left (by omega), List.getElem?_drop, Nat.add_comm]
  · rw [← hrest, List.getElem?_concat_length]
  · rw [List.drop_append_of_le_length (by omega)]

/-- Settles O27: the newest entry is the last of the list. -/
theorem popTakesTheNewest : Obligations.PopTakesTheNewest := by
  refine ⟨fun s rest a h => ⟨?_, ?_⟩, fun s h => ⟨?_, ?_⟩⟩
  · rw [State.stackTop, h, List.getLast?_concat]
  · rw [State.popped, h, List.dropLast_concat]
  · rw [State.stackTop, h, List.getLast?_nil]
  · rw [State.popped, h, List.dropLast_nil, ← h]

/-! ### The stack under instructions and turns -/

@[simp] theorem State.jumpIf_stack (s : State) (b : Bool) (a : Byte) : (s.jumpIf b a).stack = s.stack := by
  rw [s.jumpIf_eq]

@[simp] theorem State.returnTo_stack (s : State) (o : Option Byte) : (s.returnTo o).stack = s.stack := by
  cases o <;> rfl

@[simp] theorem State.loadIndirect_stack (c : Config) (s : State) (r1 r2 : Reg) :
    (s.loadIndirect c r1 r2).stack = s.stack := by
  rw [State.loadIndirect_eq]

@[simp] theorem State.takeUnmapped_stack (c : Config) (s : State) (w : InstrWord) :
    (s.takeUnmapped c w).stack = s.stack := by
  rw [State.takeUnmapped_eq]

theorem State.whenReady_stack {s u t : State} {b : Bool} (hu : u.stack = s.stack)
    (h : s.whenReady b u = .next t) : t.stack = s.stack := by
  rw [State.whenReady_eq] at h
  cases h
  cases b
  · rfl
  · exact hu

/-- CALL pushes the pointer, RET removes the newest entry, and no other instruction touches the stack. -/
theorem exec_stack_cases {i : Instr} {s t : State} (h : exec i s = .next t) :
    t.stack = s.stack ∨
    (∃ a, i = .call a ∧ t.stack = pushEntry s.config.stackDepth s.stack s.pc) ∨
    (i = .ret ∧ t.stack = s.stack.dropLast) := by
  cases i
  case call a => cases h; exact .inr (.inl ⟨a, rfl, rfl⟩)
  case ret => cases h; exact .inr (.inr ⟨rfl, State.returnTo_stack _ _⟩)
  case wr r1 => exact .inl (State.whenReady_stack (u := (s.emit (s.reg r1)).advance) rfl h)
  case rd r1 => exact .inl (State.whenReady_stack
      (u := (s.consumeInput.setReg r1 (s.inputByte s.config)).advance) rfl h)
  case ldr r1 r2 => cases h; exact .inl (State.loadIndirect_stack ..)
  case ldpr r1 => cases h; exact .inl (State.takeUnmapped_stack ..)
  case jmp | jiz | jnz | jic | jnc | jii | jni => cases h; exact .inl (State.jumpIf_stack ..)
  all_goals cases h; exact .inl rfl

/-- No instruction takes the stack above its depth. -/
theorem exec_stack_length_le {i : Instr} {s t : State} (hd : 1 ≤ s.config.stackDepth)
    (hs : s.stack.length ≤ s.config.stackDepth) (h : exec i s = .next t) :
    t.stack.length ≤ s.config.stackDepth := by
  rcases exec_stack_cases h with ht | ⟨_, _, ht⟩ | ⟨_, ht⟩ <;> rw [ht]
  · exact hs
  · exact length_pushEntry_le s.pc hd hs
  · rw [List.length_dropLast]
    omega

/-- A running core's cycle keeps the configuration and the bound of the stack. -/
theorem cycle_keeps_stack_bound {s t : State} (hd : 1 ≤ s.config.stackDepth)
    (hs : s.stack.length ≤ s.config.stackDepth) (h : s.cycle = .next t) :
    t.config = s.config ∧ t.stack.length ≤ s.config.stackDepth := by
  rcases s.cycle_cases with ⟨i, _, hc⟩ | ⟨_, _, hc⟩ <;> rw [hc] at h
  · exact ⟨(exec_outOfReach h).config, exec_stack_length_le hd hs h⟩
  · cases h
    rw [State.takeUnmapped_stack, State.takeUnmapped_eq]
    exact ⟨rfl, hs⟩

/-- So does every turn of every agent: outside the core, only reset touches the stack, and it empties it. -/
theorem takeTurn_keeps_stack_bound {a : AgentTurn} {s t : State} (hd : 1 ≤ s.config.stackDepth)
    (hs : s.stack.length ≤ s.config.stackDepth) (h : takeTurn a s = .next t) :
    t.config = s.config ∧ t.stack.length ≤ s.config.stackDepth := by
  rcases takeTurn_next_cases h with
    ⟨_, _, hcycle⟩ | ⟨_, rfl⟩ | ⟨_, _, _, _, _, rfl⟩ | rfl | ⟨_, henv⟩ | ⟨_, hhost⟩
  · exact cycle_keeps_stack_bound hd hs hcycle
  · exact ⟨rfl, Nat.zero_le _⟩
  · exact ⟨rfl, hs⟩
  · exact ⟨rfl, hs⟩
  · rcases henv with ⟨_, rfl⟩ | ⟨b, _, rfl⟩ | ⟨_, rfl⟩ | ⟨_, rfl⟩
    · exact ⟨rfl, hs⟩
    · rw [State.inputAppend_eq]
      exact ⟨rfl, hs⟩
    · exact ⟨rfl, hs⟩
    · exact ⟨rfl, hs⟩
  · rcases hhost with ⟨_, _, _, rfl⟩ | ⟨_, _, _, rfl⟩ <;> exact ⟨rfl, hs⟩

/-- Settles O28: reset empties the stack, a push is bounded by eviction, and every turn keeps the bound. -/
theorem stackStaysBounded : Obligations.StackStaysBounded := by
  refine ⟨rfl, fun c s a hd hs => ⟨length_pushEntry_le a hd hs, ?_⟩, fun s t hd hs h => ?_⟩
  · rw [State.popped_stack, List.length_dropLast]
    omega
  · rw [← s.turnTaken_config] at hd hs ⊢
    rw [← s.turnTaken_stack] at hs
    obtain ⟨hc, hb⟩ := takeTurn_keeps_stack_bound hd hs (step_next_cases h).2
    exact ⟨hc, hc ▸ hb⟩

/-! ### The program pointer -/

@[simp] theorem State.jumpIf_pc (s : State) (b : Bool) (a : Byte) :
    (s.jumpIf b a).pc = if b then a else s.pc + 1#8 := by
  rw [s.jumpIf_eq]

@[simp] theorem State.returnTo_pc (s : State) (o : Option Byte) : (s.returnTo o).pc = o.getD (s.pc + 1#8) := by
  cases o with
  | none => exact s.advance_pc
  | some a => rfl

@[simp] theorem State.loadIndirect_pc (c : Config) (s : State) (r1 r2 : Reg) :
    (s.loadIndirect c r1 r2).pc = s.pc + 1#8 := by
  rw [State.loadIndirect_eq]

theorem State.whenReady_of_ready {s u t : State} {b : Bool} (hb : b = true)
    (h : s.whenReady b u = .next t) : t = u := by
  subst hb
  cases h
  rfl

/-- The pointer after an instruction of the hardware that runs (R13, R104): the target of its jump, or the
increment. -/
theorem exec_pc {i : Instr} {s t : State} (h : exec i s = .next t) (hb : blocked s i = false)
    (hl : i.mnemonic ≠ .ldpr) : t.pc = (jumpsTo s i).getD (s.pc + 1#8) := by
  cases i
  case ldpr => exact absurd rfl hl
  case wr r1 =>
    rw [State.whenReady_of_ready (u := (s.emit (s.reg r1)).advance) (by simpa [blocked] using hb) h]
    exact State.advance_pc _
  case rd r1 =>
    have hr : s.inputReady = true := by rw [s.inputReady_eq_not_blocked]; exact congrArg (! ·) hb
    rw [State.whenReady_of_ready (u := (s.consumeInput.setReg r1 (s.inputByte s.config)).advance) hr h]
    exact State.advance_pc _
  case ldr r1 r2 => cases h; exact State.loadIndirect_pc ..
  case call a => cases h; rfl
  case ret => cases h; exact State.returnTo_pc ..
  case jmp a => cases h; exact State.jumpIf_pc ..
  case jiz | jnz | jic | jnc | jii | jni =>
    cases h
    simp only [State.jumpIf_pc, jumpsTo, jumpTarget, State.flag, flagBit, Flag.index]
    split <;> simp_all
  all_goals cases h; exact State.advance_pc _

theorem jumpsTo_mnemonic {i : Instr} {s : State} {a : Byte} (h : jumpsTo s i = some a) :
    i.mnemonic ∈ [Mnemonic.jmp, .jiz, .jnz, .jic, .jnc, .jii, .jni, .call, .ret] := by
  cases i
  case jmp | jiz | jnz | jic | jnc | jii | jni | call | ret => simp [Instr.mnemonic]
  all_goals cases h

/-- NOOPs in a row only move the pointer, modulo 256. -/
theorem execTimes_noop (n : Nat) (s : State) :
    execTimes .noop n s = .next (s.setPc (s.pc + BitVec.ofNat 8 n)) := by
  induction n generalizing s with
  | zero => simp [execTimes, State.setPc]
  | succ n ih =>
    have hstep : exec .noop s = .next (s.setPc (s.pc + 1#8)) := congrArg Host.Outcome.next s.advance_eq
    have hsum : s.pc + 1#8 + BitVec.ofNat 8 n = s.pc + BitVec.ofNat 8 (n + 1) := by
      rw [BitVec.add_assoc, BitVec.ofNat_add, BitVec.add_comm (BitVec.ofNat 8 n)]
    simp only [execTimes, hstep, ih, State.setPc_pc, hsum]
    rfl

/-- Settles O31: the pointer's rule per instruction, and 256 increments are none, modulo 256. -/
theorem pointerAdvancesOrJumps : Obligations.PointerAdvancesOrJumps := by
  refine ⟨fun i s t h hb hl => ?_, fun i s a h => jumpsTo_mnemonic h, fun s => ?_⟩
  · have hpc := exec_pc h hb hl
    cases hj : jumpsTo s i with
    | some target => simpa [hj] using hpc
    | none => simp [hpc, hj, BitVec.toNat_add]
  · rw [execTimes_noop, show BitVec.ofNat 8 256 = 0#8 from rfl, BitVec.add_zero]
    rfl

end Sys2Proof.Machine

/-!
SUPPORT. `FLAGS` under every instruction (spec/10_state.md R14 to R20): what an instruction writes there, which bits
it depends on, and the settled statement about the reserved bits.
-/

namespace Sys2Proof.Machine

open Sys2Proof.Safety

/-! ### Flags bytes read through a mask -/

theorem getLsbD_eq_of_and_eq {f g m : Byte} (h : f &&& m = g &&& m) {i : Nat} (hm : m.getLsbD i = true) :
    f.getLsbD i = g.getLsbD i := by
  have hi := congrArg (fun b : Byte => b.getLsbD i) h
  simpa [hm] using hi

/-- A named flag is the same in two bytes that agree on its bit. -/
theorem flagBit_congr {f g : Byte} {k : Flag} (h : f &&& k.mask = g &&& k.mask) :
    flagBit f k = flagBit g k :=
  getLsbD_eq_of_and_eq h (by simp [Flag.getLsbD_mask k k.index_lt])

/-- Bytes that agree off one mask agree on every mask disjoint from it. -/
theorem and_eq_and_of_disjoint {f g m n : Byte} (h : f &&& ~~~m = g &&& ~~~m) (hd : n &&& m = 0#8) :
    f &&& n = g &&& n := by
  have hn : n = ~~~m &&& n := by
    apply BitVec.eq_of_getLsbD_eq
    intro i hi
    have hbit : (n.getLsbD i && m.getLsbD i) = false := by rw [← BitVec.getLsbD_and, hd, BitVec.getLsbD_zero]
    rw [BitVec.getLsbD_and, BitVec.getLsbD_not, decide_eq_true hi, Bool.true_and]
    revert hbit
    cases n.getLsbD i <;> cases m.getLsbD i <;> decide
  rw [hn, ← BitVec.and_assoc, h, BitVec.and_assoc]

theorem setFlag_and_congr {f g m : Byte} (k : Flag) (h : f &&& m = g &&& m) :
    setFlag f k &&& m = setFlag g k &&& m := by
  rw [setFlag, setFlag, BitVec.and_or_distrib_right, h, ← BitVec.and_or_distrib_right]

theorem clearFlag_and_congr {f g m : Byte} (k : Flag) (h : f &&& m = g &&& m) :
    clearFlag f k &&& m = clearFlag g k &&& m := by
  rw [clearFlag, clearFlag, BitVec.and_assoc, BitVec.and_comm _ m, ← BitVec.and_assoc, h, BitVec.and_assoc,
    BitVec.and_comm m, ← BitVec.and_assoc]

theorem updateFlag_and_congr {f g m : Byte} (u : FlagUpdate) (k : Flag) (b : Bool) (h : f &&& m = g &&& m) :
    updateFlag u f k b &&& m = updateFlag u g k b &&& m := by
  cases b
  · cases u
    · exact clearFlag_and_congr k h
    · exact h
  · exact setFlag_and_congr k h

theorem setFlag_and_not_mask (f : Byte) (k : Flag) : setFlag f k &&& ~~~k.mask = f &&& ~~~k.mask := by
  rw [setFlag, BitVec.and_or_distrib_right, BitVec.and_not_self]
  exact BitVec.or_zero

theorem clearFlag_and_not_mask (f : Byte) (k : Flag) : clearFlag f k &&& ~~~k.mask = f &&& ~~~k.mask := by
  rw [clearFlag, BitVec.and_assoc, BitVec.and_self]

theorem updateFlag_and_not_mask (u : FlagUpdate) (f : Byte) (k : Flag) (b : Bool) :
    updateFlag u f k b &&& ~~~k.mask = f &&& ~~~k.mask := by
  cases b
  · cases u
    · exact clearFlag_and_not_mask f k
    · rfl
  · exact setFlag_and_not_mask f k

/-! ### What an instruction writes to FLAGS and which bits it depends on -/

/-- The flags byte an instruction leaves; tied to the machine by `exec_flags`. -/
def flagsAfter (s : State) : Instr → Byte
  | .clc => clearFlag s.flags .carry
  | .cli => clearFlag s.flags .interrupt
  | .cln => clearFlag s.flags .negative
  | .stfl r1 => s.reg r1
  | .add r1 r2 => updateFlag s.config.flagUpdate s.flags .carry (carryOut (s.reg r1) (s.reg r2))
  | .addi r1 data => updateFlag s.config.flagUpdate s.flags .carry (carryOut (s.reg r1) data)
  | .sub r1 r2 => updateFlag s.config.flagUpdate s.flags .negative (differenceNegative (s.reg r1) (s.reg r2))
  | .subi r1 data => updateFlag s.config.flagUpdate s.flags .negative (differenceNegative (s.reg r1) data)
  | _ => s.flags

/-- The bits of `FLAGS` that reach some part of the state other than `FLAGS`; tied to the machine by
`exec_setFlags`. -/
def flagsRead : Instr → Byte
  | .ldfl _ => BitVec.allOnes 8
  | .jic _ => Flag.carry.mask
  | .jnc _ => Flag.carry.mask
  | .jii _ => Flag.interrupt.mask
  | .jni _ => Flag.interrupt.mask
  | _ => 0#8

theorem State.jumpIf_setFlags (s : State) (f : Byte) (b : Bool) (a : Byte) :
    (s.setFlags f).jumpIf b a = (s.jumpIf b a).setFlags f := by
  cases b <;> rfl

theorem State.returnTo_setFlags (s : State) (f : Byte) (o : Option Byte) :
    (s.setFlags f).returnTo o = (s.returnTo o).setFlags f := by
  cases o <;> rfl

theorem State.loadIndirect_setFlags (c : Config) (s : State) (f : Byte) (r1 r2 : Reg) :
    (s.setFlags f).loadIndirect c r1 r2 = (s.loadIndirect c r1 r2).setFlags f := by
  unfold State.loadIndirect
  cases c.ldrOrientation <;> rfl

theorem State.takeUnmapped_setFlags (c : Config) (s : State) (f : Byte) (w : InstrWord) :
    (s.setFlags f).takeUnmapped c w = (s.takeUnmapped c w).setFlags f := by
  unfold State.takeUnmapped
  cases c.unmappedPolicy <;> rfl

theorem State.whenReady_setFlags {s u t : State} {b : Bool} (f : Byte) (h : s.whenReady b u = .next t) :
    (s.setFlags f).whenReady b (u.setFlags f) = .next (t.setFlags f) := by
  cases b <;> (cases h; rfl)

/-- A conditional jump under another flags byte with the same condition. -/
theorem State.jumpIf_setFlags_of_eq {s : State} {f : Byte} {b b' : Bool} (hb : b' = b) (a : Byte) :
    (s.setFlags f).jumpIf b' a = (s.jumpIf b a).setFlags f := by
  rw [hb, s.jumpIf_setFlags]

/-- An instruction depends on `FLAGS` only through the bits it reads: under a flags byte with the same such bits
it does the same, but for the flags it leaves. -/
theorem exec_setFlags {i : Instr} {s t : State} {f : Byte} (hf : f &&& flagsRead i = s.flags &&& flagsRead i)
    (h : exec i s = .next t) : exec i (s.setFlags f) = .next (t.setFlags (flagsAfter (s.setFlags f) i)) := by
  cases i
  case ldfl r1 =>
    obtain rfl : f = s.flags := by simpa only [flagsRead, BitVec.and_allOnes] using hf
    cases h
    rfl
  case wr r1 => exact State.whenReady_setFlags f h
  case rd r1 => exact State.whenReady_setFlags f h
  case ldr r1 r2 => cases h; exact congrArg Host.Outcome.next (s.loadIndirect_setFlags _ f r1 r2)
  case ldpr r1 => cases h; exact congrArg Host.Outcome.next (s.takeUnmapped_setFlags _ f _)
  case ret => cases h; exact congrArg Host.Outcome.next (s.popped.returnTo_setFlags f _)
  case jmp | jiz | jnz => cases h; exact congrArg Host.Outcome.next (s.jumpIf_setFlags f _ _)
  case jic | jii => cases h; exact congrArg Host.Outcome.next (State.jumpIf_setFlags_of_eq (flagBit_congr hf) _)
  case jnc | jni =>
    cases h
    exact congrArg Host.Outcome.next (State.jumpIf_setFlags_of_eq (congrArg (! ·) (flagBit_congr hf)) _)
  all_goals cases h; rfl

/-- What an instruction leaves in `FLAGS`. -/
theorem exec_flags {i : Instr} {s t : State} (h : exec i s = .next t) : t.flags = flagsAfter s i := by
  have hself : exec i s = .next (t.setFlags (flagsAfter s i)) := exec_setFlags (f := s.flags) rfl h
  rw [h, Host.Outcome.next.injEq] at hself
  rw [hself, State.setFlags_flags]

/-- No bit an instruction is not listed with in R20 changes. -/
theorem flagsAfter_and_not_written (s : State) (i : Instr) :
    flagsAfter s i &&& ~~~flagsWritten i = s.flags &&& ~~~flagsWritten i := by
  cases i
  case clc => exact clearFlag_and_not_mask s.flags .carry
  case cli => exact clearFlag_and_not_mask s.flags .interrupt
  case cln => exact clearFlag_and_not_mask s.flags .negative
  case add | addi => exact updateFlag_and_not_mask _ s.flags .carry _
  case sub | subi => exact updateFlag_and_not_mask _ s.flags .negative _
  case stfl r1 => simp [flagsWritten]
  all_goals rfl

/-- The bits of `FLAGS` on a mask, after an instruction, depend on no other bit of `FLAGS` before it. -/
theorem flagsAfter_and_congr {s : State} {f m : Byte} (i : Instr) (h : f &&& m = s.flags &&& m) :
    flagsAfter (s.setFlags f) i &&& m = flagsAfter s i &&& m := by
  cases i
  case clc | cli | cln => exact clearFlag_and_congr _ h
  case add | addi | sub | subi => exact updateFlag_and_congr _ _ _ h
  case stfl r1 => rfl
  all_goals exact h

/-- Bits of `FLAGS` that an instruction does not read reach nothing but themselves. -/
theorem exec_sameButFlagBits {i : Instr} {mask : Byte} {s s' t : State} (hread : flagsRead i &&& mask = 0#8)
    (hs : SameButFlagBits mask s s') (h : exec i s = .next t) :
    ∃ t', exec i s' = .next t' ∧ SameButFlagBits mask t t' := by
  obtain ⟨hbits, hrest⟩ := hs
  have hs' : s' = s.setFlags s'.flags := hrest
  rw [hs']
  refine ⟨_, exec_setFlags (and_eq_and_of_disjoint hbits hread) h, ?_, rfl⟩
  rw [State.setFlags_flags, exec_flags h]
  exact flagsAfter_and_congr i hbits

/-! ### The reserved bits (R19) -/

theorem flagsRead_and_reservedBits {i : Instr} (h : ∀ r, i ≠ .ldfl r) : flagsRead i &&& reservedBits = 0#8 := by
  cases i
  case ldfl r => exact absurd rfl (h r)
  all_goals simp [flagsRead, reservedBits, Flag.mask, Flag.index]

theorem reservedBits_and_flagsWritten {i : Instr} (h : ∀ r, i ≠ .stfl r) :
    reservedBits &&& flagsWritten i = 0#8 := by
  cases i
  case stfl r => exact absurd rfl (h r)
  all_goals simp [flagsWritten, reservedBits]

/-- Settles O36: the reserved bits are disjoint from what every instruction but STFL writes, from what every
instruction but LDFL reads, and from the interrupt's bit. -/
theorem reservedBitsAreInert : Obligations.ReservedBitsAreInert := by
  refine ⟨rfl, fun _ _ _ => BitVec.zero_and, fun i s t h => ?_, fun s => ?_, fun i s s' t hs hi h => ?_⟩
  · rw [exec_flags h]
    split
    · rfl
    · rename_i hi
      exact and_eq_and_of_disjoint (flagsAfter_and_not_written s i) (reservedBits_and_flagsWritten hi)
  · exact and_eq_and_of_disjoint (setFlag_and_not_mask s.flags .interrupt) rfl
  · exact exec_sameButFlagBits (flagsRead_and_reservedBits hi) hs h

end Sys2Proof.Machine

/-!
SUPPORT. Program memory and the configuration along a run (spec/20_memory.md R40): what a turn keeps, what a step does
to the schedule, the induction over a run, and the settled statement about them.
-/

namespace Sys2Proof.Machine

open Sys2Proof.Safety

/-! ### What every turn keeps -/

/-- What a turn of any agent keeps: the configuration, the turns still scheduled, and, unless it is the host's write of
a program cell, program memory. -/
structure TurnKeeps (a : AgentTurn) (s t : State) : Prop where
  config : t.config = s.config
  schedule : t.schedule = s.schedule
  program : AgentTurn.writesProgram a = false → SameProgram s t

theorem OutOfReach.sameProgram {s t : State} (h : OutOfReach s t) : SameProgram s t :=
  State.programWord_congr h.pmemHead h.pmemOpnd

theorem State.cycle_outOfReach {s t : State} (h : s.cycle = .next t) : OutOfReach s t := by
  rcases s.cycle_cases with ⟨i, _, hc⟩ | ⟨_, _, hc⟩ <;> rw [hc] at h
  · exact exec_outOfReach h
  · cases h
    rw [State.takeUnmapped_eq]
    exact OutOfReach.update s _ _ _ _ _ _ _ _

/-- Only the host's program port reaches program memory, and no agent reaches the configuration or the schedule. -/
theorem takeTurn_keeps {a : AgentTurn} {s t : State} (h : takeTurn a s = .next t) : TurnKeeps a s t := by
  rcases takeTurn_next_cases h with
    ⟨_, _, hcycle⟩ | ⟨_, rfl⟩ | ⟨_, _, _, _, _, rfl⟩ | rfl | ⟨_, henv⟩ | ⟨_, hhost⟩
  · have hreach := State.cycle_outOfReach hcycle
    exact ⟨hreach.config, hreach.schedule, fun _ => hreach.sameProgram⟩
  · exact ⟨rfl, rfl, fun _ _ => rfl⟩
  · exact ⟨rfl, rfl, fun _ _ => rfl⟩
  · exact ⟨rfl, rfl, fun _ _ => rfl⟩
  · rcases henv with ⟨_, rfl⟩ | ⟨b, _, rfl⟩ | ⟨_, rfl⟩ | ⟨_, rfl⟩
    · exact ⟨rfl, rfl, fun _ _ => rfl⟩
    · rw [State.inputAppend_eq]
      exact ⟨rfl, rfl, fun _ _ => rfl⟩
    · exact ⟨rfl, rfl, fun _ _ => rfl⟩
    · exact ⟨rfl, rfl, fun _ _ => rfl⟩
  · rcases hhost with ⟨b, w, rfl, rfl⟩ | ⟨_, _, _, rfl⟩
    · exact ⟨rfl, rfl, fun hw => nomatch hw⟩
    · exact ⟨rfl, rfl, fun _ _ => rfl⟩

/-! ### What every step keeps -/

/-- The schedule has no host write of program memory. -/
def NoProgramWrites (s : State) : Prop := ∀ u ∈ s.schedule, AgentTurn.writesProgram u = false

/-- The environment's free choices have no host write among them (R99). -/
theorem turnOfFree_writesProgram (f : FreeTurn) : AgentTurn.writesProgram (turnOfFree f) = false := by
  cases f <;> rfl

theorem NoProgramWrites.nextTurn {s : State} (h : NoProgramWrites s) :
    AgentTurn.writesProgram s.nextTurn = false := by
  unfold State.nextTurn
  split
  · rename_i a rest hs
    exact h a (hs ▸ List.mem_cons_self)
  · split
    · exact turnOfFree_writesProgram _
    · rfl

theorem step_config {s t : State} (h : step s = .next t) : t.config = s.config :=
  (takeTurn_keeps (step_next_cases h).2).config.trans s.turnTaken_config

theorem step_schedule {s t : State} (h : step s = .next t) : t.schedule = s.schedule.tail :=
  (takeTurn_keeps (step_next_cases h).2).schedule.trans s.turnTaken_schedule

/-- A step only shortens the schedule. -/
theorem NoProgramWrites.after_step {s t : State} (hw : NoProgramWrites s) (h : step s = .next t) :
    NoProgramWrites t := by
  unfold NoProgramWrites
  rw [step_schedule h]
  exact fun u hu => hw u (List.mem_of_mem_tail hu)

theorem NoProgramWrites.sameProgram_of_step {s t : State} (hw : NoProgramWrites s) (h : step s = .next t) :
    SameProgram s t :=
  fun a => ((takeTurn_keeps (step_next_cases h).2).program hw.nextTurn a).trans (s.turnTaken_programWord a)

/-! ### Along a run -/

/-- A run of one more step that answers a next state is a step and the run of the rest. -/
theorem run_succ_next_cases {n : Nat} {s t : State} (h : Sys2Proof.core.run (n + 1) s = .next t) :
    ∃ u, step s = .next u ∧ Sys2Proof.core.run n u = .next t := by
  cases hs : step s with
  | next u => exact ⟨u, rfl, by rwa [run_succ_of_next n hs] at h⟩
  | fault r => rw [run_succ_of_fault n hs] at h; cases h
  | refused r => rw [run_succ_of_refused n hs] at h; cases h

/-- The induction over a run: a relation that holds of a state and itself and goes back over a first step relates the
start of every run to its end. -/
theorem run_induction {R : State → State → Prop} (hrefl : ∀ s, R s s)
    (hstep : ∀ s u t, step s = .next u → R u t → R s t) {n : Nat} {s t : State}
    (h : Sys2Proof.core.run n s = .next t) : R s t := by
  induction n generalizing s with
  | zero =>
    rw [run_zero] at h
    cases h
    exact hrefl _
  | succ n ih =>
    obtain ⟨u, hs, hrest⟩ := run_succ_next_cases h
    exact hstep s u t hs (ih hrest)

/-- The configuration is fixed in every run (R110). -/
theorem run_config {n : Nat} {s t : State} (h : Sys2Proof.core.run n s = .next t) : t.config = s.config :=
  run_induction (R := fun s t => t.config = s.config) (fun _ => rfl)
    (fun _ _ _ hs hrest => hrest.trans (step_config hs)) h

/-- Program memory is constant in a run whose schedule has no host write of it (R40). -/
theorem NoProgramWrites.sameProgram_of_run {n : Nat} {s t : State} (hw : NoProgramWrites s)
    (h : Sys2Proof.core.run n s = .next t) : SameProgram s t := by
  refine run_induction (R := fun s t => NoProgramWrites s → SameProgram s t) (fun _ _ _ => rfl) ?_ h hw
  intro s u t hs hrest (hw : NoProgramWrites s) a
  calc
    t.programWord a = u.programWord a := hrest (hw.after_step hs) a
    _ = s.programWord a := hw.sameProgram_of_step hs a

/-- Settles O57: both are inductions over the run, on what a step keeps. -/
theorem programMemoryIsConstant : Obligations.ProgramMemoryIsConstant :=
  fun _ _ _ h => ⟨fun hw => NoProgramWrites.sameProgram_of_run hw h, run_config h⟩

end Sys2Proof.Machine

/-!
SUPPORT. The codec on whole triples and whole words (spec/30_encoding.md R41 to R52): the fields of an encoded
triple, the word left when the bits a shape ignores are cleared, and the settled statement about them.
-/

namespace Sys2Proof

open Sys2Proof.Safety

/-! ### Encoding a triple and decoding it again -/

@[simp] theorem opcodeField_encodeTriple (c : Config) (d : Decoded) :
    opcodeField (encodeTriple c d) = c.opcodeOf d.mnemonic := opcodeField_assemble _ _ _

@[simp] theorem reg1Field_encodeTriple (c : Config) (d : Decoded) :
    reg1Field (encodeTriple c d) = d.reg1 := reg1Field_assemble _ _ _

@[simp] theorem operandField_encodeTriple (c : Config) (d : Decoded) :
    operandField (encodeTriple c d) = d.operand.byte := operandField_assemble _ _ _

/-- The operand byte of a register number: the number, with six bits 0 above it (R52). -/
theorem Operand.byte_reg2 (r : Reg) : (Operand.reg2 r).byte = r.toBits.setWidth 8 := by cases r <;> rfl

/-- A shape reads an operand that is legal for it back from the operand's own byte (R43, R44). -/
theorem Shape.operandOf_byte {sh : Shape} {op : Operand} (h : legalOperand sh op = true) :
    sh.operandOf op.byte = op := by
  cases sh with
  | none | short =>
    cases op with
    | none => rfl
    | reg2 | data => cases h
  | dual =>
    cases op with
    | reg2 r => exact congrArg Operand.reg2 (reg2Of_byte r)
    | none | data => cases h
  | long | dataOnly =>
    cases op with
    | data d => rfl
    | none | reg2 => cases h

/-- What a lookup makes of a word whose number it finds (R48). -/
theorem decodeTriple_of_mnemonicOf {c : Config} {w : InstrWord} {m : Mnemonic}
    (h : c.mnemonicOf (opcodeField w) = some m) :
    decodeTriple c w = .ok ⟨m, reg1Field w, m.shape.operandOf (operandField w)⟩ := by
  rw [decodeTriple, h]

/-- Encode, then decode: in a valid configuration every triple of a present mnemonic with a legal operand comes
back (R52). -/
theorem decodeTriple_encodeTriple {c : Config} (hc : c.valid = true) {d : Decoded}
    (hm : c.present d.mnemonic = true) (hop : legalOperand d.mnemonic.shape d.operand = true) :
    decodeTriple c (encodeTriple c d) = .ok d := by
  have hfound : c.mnemonicOf (opcodeField (encodeTriple c d)) = some d.mnemonic := by
    rw [opcodeField_encodeTriple, Config.mnemonicOf_opcodeOf hc hm]
  rw [decodeTriple_of_mnemonicOf hfound, reg1Field_encodeTriple, operandField_encodeTriple,
    Shape.operandOf_byte hop]

/-! ### The canonical word: the ignored bits cleared -/

/-- How a shape reads `reg1`: as 0 where it does not use it (R46). The companion of `Shape.operandOf`. -/
def Shape.reg1Of : Shape → Reg → Reg
  | .none, _ => .x0
  | .short, r => r
  | .dual, r => r
  | .long, r => r
  | .dataOnly, _ => .x0

@[simp] theorem Mnemonic.reg1_instr (m : Mnemonic) (r1 : Reg) (d : Byte) :
    (m.instr r1 d).reg1 = m.shape.reg1Of r1 := by cases m <;> rfl

/-- An instruction's `reg1` is one its shape can read. -/
theorem Instr.reg1_eq_reg1Of (i : Instr) : i.reg1 = i.mnemonic.shape.reg1Of i.reg1 := by cases i <;> rfl

theorem Instr.reg1_of_unused {i : Instr} (h : i.mnemonic.shape = .none ∨ i.mnemonic.shape = .dataOnly) :
    i.reg1 = .x0 := by
  rw [i.reg1_eq_reg1Of]
  rcases h with h | h <;> rw [h] <;> rfl

/-- A conjunction of two words acts on each field for itself. -/
theorem assemble_and_assemble (o o' : Opcode) (r r' : Reg) (d d' : Byte) :
    assemble o r d &&& assemble o' r' d' =
      assemble (o &&& o') (Reg.ofBits (r.toBits &&& r'.toBits)) (d &&& d') := by
  have hsplit : assemble o r d &&& assemble o' r' d' = (d &&& d') ++ (r.toBits ++ o &&& r'.toBits ++ o') :=
    BitVec.and_append
  rw [hsplit, BitVec.and_append, assemble, Reg.toBits_ofBits]

/-- The used bits of a shape, field by field: the whole opcode always, `reg1` or none of it, and of the operand byte
what the shape reads (R43, R44, R46). -/
theorem assemble_and_usedBits (sh : Shape) (o : Opcode) (r : Reg) (d : Byte) :
    assemble o r d &&& sh.usedBits = assemble o (sh.reg1Of r) (sh.operandOf d).byte := by
  have ho : o &&& 0x3F#6 = o := BitVec.and_allOnes
  have hr : Reg.ofBits (r.toBits &&& Reg.x3.toBits) = r := by cases r <;> rfl
  have hd : d &&& 0xFF#8 = d := BitVec.and_allOnes
  cases sh with
  | none =>
    rw [show Shape.none.usedBits = assemble 0x3F#6 .x0 0#8 from rfl, assemble_and_assemble, ho]
    simp [Reg.toBits, Shape.reg1Of, Shape.operandOf, Operand.byte, Reg.ofBits]
  | short =>
    rw [show Shape.short.usedBits = assemble 0x3F#6 .x3 0#8 from rfl, assemble_and_assemble, ho, hr]
    simp [Shape.reg1Of, Shape.operandOf, Operand.byte]
  | dual =>
    rw [show Shape.dual.usedBits = assemble 0x3F#6 .x3 0x03#8 from rfl, assemble_and_assemble, ho, hr]
    simp [Shape.reg1Of, Shape.operandOf, byte_reg2_reg2Of]
  | long =>
    rw [show Shape.long.usedBits = assemble 0x3F#6 .x3 0xFF#8 from rfl, assemble_and_assemble, ho, hr, hd]
    rfl
  | dataOnly =>
    rw [show Shape.dataOnly.usedBits = assemble 0x3F#6 .x0 0xFF#8 from rfl, assemble_and_assemble, ho, hd]
    simp [Reg.toBits, Shape.reg1Of, Shape.operandOf, Reg.ofBits]

/-- Decode, then encode: the word with the bits its shape ignores cleared (R46, R52). -/
theorem encodeWith_of_decodeWith {c : Config} {w : InstrWord} {i : Instr} (h : decodeWith c w = .ok i) :
    encodeWith c i = w &&& i.mnemonic.shape.usedBits := by
  obtain ⟨m, hm, rfl⟩ := decodeWith_ok h
  obtain ⟨-, hnum⟩ := Config.mnemonicOf_some hm
  rw [Mnemonic.mnemonic_instr]
  calc
    encodeWith c (m.instr (reg1Field w) (operandField w))
      = assemble (opcodeField w) (m.shape.reg1Of (reg1Field w)) (m.shape.operandOf (operandField w)).byte := by
        simp [encodeWith, encodeTriple, Instr.triple, hnum]
    _ = assemble (opcodeField w) (reg1Field w) (operandField w) &&& m.shape.usedBits :=
        (assemble_and_usedBits _ _ _ _).symm
    _ = w &&& m.shape.usedBits := by rw [assemble_fields]

/-- A mask keeps a word exactly when the word has no bit outside it. -/
theorem and_eq_left_iff_and_not_eq_zero {n : Nat} (w u : BitVec n) : w &&& u = w ↔ w &&& ~~~u = 0#n := by
  constructor
  · intro h
    rw [← h, BitVec.and_assoc, BitVec.and_not_self]
    exact BitVec.and_zero
  · intro h
    calc
      w &&& u = w &&& u ||| w &&& ~~~u := by rw [h, BitVec.or_zero]
      _ = w := by rw [← BitVec.and_or_distrib_left, BitVec.or_not_self, BitVec.and_allOnes]

/-- Settles O1: the round trip and the fields from the fields of an encoded triple, canonicity from the word with the
ignored bits cleared, and the four worked encodings of R52 by evaluation. -/
theorem codecTripleRoundTrip : Obligations.CodecTripleRoundTrip := by
  refine ⟨?_, ?_, ?_, by decide, by decide, by decide, by decide⟩
  · intro c hc m r1 op hm hop
    refine ⟨decodeTriple_encodeTriple hc hm hop, opcodeField_encodeTriple _ _, reg1Field_encodeTriple _ _, ?_⟩
    rw [operandField_encodeTriple]
    cases op with
    | none => rfl
    | reg2 r => exact Operand.byte_reg2 r
    | data d => rfl
  · intro c i hshape
    rw [encodeWith, reg1Field_encodeTriple]
    exact Instr.reg1_of_unused hshape
  · intro c w i hdec
    rw [encodeWith_of_decodeWith hdec]
    exact and_eq_left_iff_and_not_eq_zero _ _

end Sys2Proof

/-!
SUPPORT. The jumps (spec/44_jumps.md): the pointer's update under a condition stated as a proposition, and the settled
statement about the seven of them.
-/

namespace Sys2Proof.Machine

/-- `jumpIf` whose test decides `p`, as the state before with `pc` replaced by what `p` selects (R76). -/
theorem State.jumpIf_of_iff {b : Bool} {p : Prop} [Decidable p] (s : State) (a : Byte) (h : b = true ↔ p) :
    s.jumpIf b a = { s with pc := if p then a else s.pc + 1#8 } := by
  rw [s.jumpIf_eq, if_congr h rfl rfl]

/-- The jumps that test a flag for 0 take its complement. -/
theorem State.not_flag_iff (s : State) (k : Flag) : (!s.flag k) = true ↔ s.flags.getLsbD k.index = false := by
  rw [Bool.not_eq_true', s.flag_eq_getLsbD]

/-- Settles O17: each jump is `jumpIf` on its own test, and each test decides the condition that R77 to R83 give. -/
theorem jumpsWriteOnlyThePointer : Obligations.JumpsWriteOnlyThePointer := by
  intro s r1 imm
  refine ⟨?jmp, ?jiz, ?jnz, ?jic, ?jnc, ?jii, ?jni⟩ <;> apply congrArg Host.Outcome.next
  case jmp => exact s.jumpIf_eq true imm
  case jiz => exact s.jumpIf_of_iff imm beq_iff_eq
  case jnz => exact s.jumpIf_of_iff imm bne_iff_ne
  case jic => exact s.jumpIf_of_iff imm (Bool.eq_iff_iff.mp (s.flag_eq_getLsbD .carry))
  case jnc => exact s.jumpIf_of_iff imm (s.not_flag_iff .carry)
  case jii => exact s.jumpIf_of_iff imm (Bool.eq_iff_iff.mp (s.flag_eq_getLsbD .interrupt))
  case jni => exact s.jumpIf_of_iff imm (s.not_flag_iff .interrupt)

end Sys2Proof.Machine

/-!
SUPPORT. The last act of a core turn (spec/50_execution_cycle.md R104): the step at a core turn as the cycle of the
running core, no LDPR among the decoded instructions, the pointer after an undecodable word, and the settled statement
of the pointer-update table.
-/

namespace Sys2Proof.Machine

open Sys2Proof.Safety

/-- At a core turn of a running core the step is the cycle, on the state whose turn is taken (R94, R95). -/
theorem step_eq_cycle {s : State} (hr : s.status = .running) (hn : s.nextTurn = .core) :
    step s = s.turnTaken.cycle := by
  rw [step_eq_takeTurn (.inr hr), hn, takeTurn, if_pos (s.turnTaken_status.trans hr)]

/-- No word decodes to LDPR in a configuration with a meaning (R86). -/
theorem decodeWith_mnemonic_ne_ldpr {c : Config} {w : InstrWord} {i : Instr} (hc : c.valid = true)
    (h : decodeWith c w = .ok i) : i.mnemonic ≠ .ldpr := by
  obtain ⟨m, hm, rfl⟩ := decodeWith_ok h
  obtain ⟨hp, _⟩ := Config.mnemonicOf_some hm
  obtain ⟨_, _, hldpr, _⟩ := c.valid_iff.mp hc
  rw [Mnemonic.mnemonic_instr]
  rintro rfl
  rw [c.present_ldpr, hldpr] at hp
  cases hp

/-- The turn that is being taken decides no jump. -/
@[simp] theorem jumpsTo_turnTaken (s : State) (i : Instr) : jumpsTo s.turnTaken i = jumpsTo s i := by
  rw [s.turnTaken_eq]; cases i <;> rfl

/-- The turn that is being taken blocks no instruction. -/
@[simp] theorem blocked_turnTaken (s : State) (i : Instr) : blocked s.turnTaken i = blocked s i := by
  rw [s.turnTaken_eq]; cases i <;> rfl

/-- An undecodable word leaves the pointer, or, under the policy `noop`, increments it (R104, R112). -/
theorem State.takeUnmapped_pc (c : Config) (s : State) (w : InstrWord) :
    (s.takeUnmapped c w).pc = match c.unmappedPolicy with
      | .fault => s.pc
      | .noop => s.pc + 1#8 :=
  congrArg State.pc (State.takeUnmapped_eq c s w)

/-- Settles O32: a core turn of a running core is its cycle; a decoded instruction, which is not LDPR, moves the pointer
by the rule `exec_pc`, an undecodable word by that of `takeUnmapped`. -/
theorem pointerUpdateTable : Obligations.PointerUpdateTable := by
  intro s hc hr hn
  rw [step_eq_cycle hr hn]
  refine ⟨fun i hd hb => ?executed, fun e hd => ?undecodable⟩
  case executed =>
    obtain ⟨t, ht⟩ := exec_next i s.turnTaken
    have hcycle : s.turnTaken.cycle = .next t := by simp [State.cycle, hd, ht]
    have hpc : t.pc = (jumpsTo s.turnTaken i).getD (s.turnTaken.pc + 1#8) :=
      exec_pc ht ((blocked_turnTaken s i).trans hb) (decodeWith_mnemonic_ne_ldpr hc hd)
    exact ⟨t, hcycle, by simpa using hpc⟩
  case undecodable =>
    have hcycle : s.turnTaken.cycle = .next (s.turnTaken.takeUnmapped s.config s.fetch) := by
      simp [State.cycle, hd]
    have hpc := State.takeUnmapped_pc s.config s.turnTaken s.fetch
    rw [s.turnTaken_pc] at hpc
    exact ⟨_, hcycle, hpc⟩

end Sys2Proof.Machine

/-!
SUPPORT. The decoder and the encoder on instructions (spec/30_encoding.md R46 to R52): an instruction is determined by
its triple, a row reads only what its shape uses, and the settled statements about decoding.
-/

namespace Sys2Proof

open Sys2Proof.Laws

/-! ### Instructions and their triples -/

/-- The family `Reassembly` over all rows: the row of an instruction, given its canonical fields, gives it back. -/
theorem Instr.reassembly (i : Instr) : Reassembly.Statement i := by
  cases i with
  | str r1 r2 => exact Reassembly.str r1 r2
  | ldr r1 r2 => exact Reassembly.ldr r1 r2
  | cp r1 r2 => exact Reassembly.cp r1 r2
  | sub r1 r2 => exact Reassembly.sub r1 r2
  | add r1 r2 => exact Reassembly.add r1 r2
  | and r1 r2 => exact Reassembly.and r1 r2
  | or r1 r2 => exact Reassembly.or r1 r2
  | xor r1 r2 => exact Reassembly.xor r1 r2
  | _ => exact ⟨rfl, rfl⟩

theorem Instr.instr_fields (i : Instr) : i.mnemonic.instr i.reg1 i.operand.byte = i := i.reassembly.1

/-- An instruction is determined by its row, its `reg1` and its operand. -/
theorem Instr.eq_of_fields {i j : Instr} (hm : i.mnemonic = j.mnemonic) (hr : i.reg1 = j.reg1)
    (ho : i.operand = j.operand) : i = j := by
  rw [← i.instr_fields, ← j.instr_fields, hm, hr, ho]

/-- A row reads no more of `reg1` and the operand byte than its shape uses (R46). -/
theorem Mnemonic.instr_eq_of_used {m : Mnemonic} {r r' : Reg} {d d' : Byte}
    (hr : m.shape.reg1Of r = m.shape.reg1Of r') (hd : m.shape.operandOf d = m.shape.operandOf d') :
    m.instr r d = m.instr r' d' :=
  Instr.eq_of_fields (by simp) (by simpa using hr) (by simpa using hd)

/-! ### What the decoder answers -/

theorem decodeWith_of_mnemonicOf {c : Config} {w : InstrWord} {m : Mnemonic}
    (h : c.mnemonicOf (opcodeField w) = some m) :
    decodeWith c w = .ok (m.instr (reg1Field w) (operandField w)) := by
  rw [decodeWith, h]

theorem decodeWith_of_unmapped {c : Config} {w : InstrWord} (h : c.mnemonicOf (opcodeField w) = none) :
    decodeWith c w = .error (.unmappedOpcode (opcodeField w)) := by
  rw [decodeWith, h]

/-- Settles O2: the encoded word's number finds the instruction's row again, whatever the numbers are, and the row puts
the canonical fields together again. -/
theorem instructionRoundTrip : Obligations.InstructionRoundTrip := by
  intro c hc i hi
  have hfound : c.mnemonicOf (opcodeField (encodeWith c i)) = some i.mnemonic := by
    rw [encodeWith, opcodeField_encodeTriple]
    exact Config.mnemonicOf_opcodeOf hc hi
  rw [decodeWith_of_mnemonicOf hfound, encodeWith, reg1Field_encodeTriple, operandField_encodeTriple]
  exact congrArg Except.ok i.instr_fields

/-! ### The bits a shape uses -/

/-- The used bits of a word, field by field. -/
theorem and_usedBits_eq_assemble (w : InstrWord) (sh : Shape) :
    w &&& sh.usedBits = assemble (opcodeField w) (sh.reg1Of (reg1Field w)) (sh.operandOf (operandField w)).byte := by
  rw [← assemble_and_usedBits, assemble_fields]

/-- A shape's operand is determined by its canonical byte. -/
theorem Shape.operandOf_byte_injective {sh : Shape} {d d' : Byte}
    (h : (sh.operandOf d).byte = (sh.operandOf d').byte) : sh.operandOf d = sh.operandOf d' := by
  cases sh with
  | none | short => rfl
  | dual =>
    have hreg := congrArg reg2Of h
    rw [Shape.operandOf, Shape.operandOf, reg2Of_byte, reg2Of_byte] at hreg
    exact congrArg Operand.reg2 hreg
  | long | dataOnly => exact congrArg Operand.data h

/-- Settles O3: what two such words have in common is the canonical word of the instruction; and words with the same
used bits have the same number and the same used fields. -/
theorem onlyUsedBitsMatter : Obligations.OnlyUsedBitsMatter := by
  intro c w w' i hw
  refine ⟨fun hw' => ?_, fun hbits => ?_⟩
  · rw [← encodeWith_of_decodeWith hw', encodeWith_of_decodeWith hw]
  · obtain ⟨m, hm, rfl⟩ := decodeWith_ok hw
    rw [Mnemonic.mnemonic_instr, and_usedBits_eq_assemble, and_usedBits_eq_assemble] at hbits
    have hnum : opcodeField w' = opcodeField w := by simpa using congrArg opcodeField hbits
    have hreg := congrArg reg1Field hbits
    have hop := congrArg operandField hbits
    rw [reg1Field_assemble, reg1Field_assemble] at hreg
    rw [operandField_assemble, operandField_assemble] at hop
    rw [decodeWith_of_mnemonicOf (hnum ▸ hm)]
    exact congrArg Except.ok (Mnemonic.instr_eq_of_used hreg (Shape.operandOf_byte_injective hop))

/-! ### The decoder contract's triple -/

/-- A triple is answered exactly where the lookup finds its row. -/
theorem decodeTriple_ok {c : Config} {w : InstrWord} {d : Decoded} (h : decodeTriple c w = .ok d) :
    ∃ m, c.mnemonicOf (opcodeField w) = some m ∧ d = ⟨m, reg1Field w, m.shape.operandOf (operandField w)⟩ := by
  unfold decodeTriple at h
  split at h
  · cases h
  · rename_i m hm
    exact ⟨m, hm, by cases h; rfl⟩

/-- A register is read as one given `reg1` exactly when it is that one or the shape does not use the field. -/
theorem Shape.reg1Of_eq_reg1Of_iff {sh : Shape} {r r' : Reg} :
    sh.reg1Of r = sh.reg1Of r' ↔ sh = .none ∨ sh = .dataOnly ∨ r = sh.reg1Of r' := by
  cases sh <;> simp [Shape.reg1Of]

/-- Settles O4: both answers come from the same row, and an instruction is determined by its fields. -/
theorem decoderFollowsTriple : Obligations.DecoderFollowsTriple := by
  intro c w i
  refine ⟨fun h => ?_, ?_⟩
  · obtain ⟨m, hm, rfl⟩ := decodeWith_ok h
    refine ⟨_, decodeTriple_of_mnemonicOf hm, by simp, by simp, ?_⟩
    rw [Mnemonic.mnemonic_instr, Mnemonic.reg1_instr]
    exact Shape.reg1Of_eq_reg1Of_iff.mp rfl
  · rintro ⟨d, hd, hmn, hop, hreg⟩
    obtain ⟨m, hm, rfl⟩ := decodeTriple_ok hd
    obtain rfl : m = i.mnemonic := hmn
    rw [i.reg1_eq_reg1Of] at hreg
    rw [decodeWith_of_mnemonicOf hm]
    refine congrArg Except.ok (Instr.eq_of_fields (by simp) ?_ (by simpa using hop))
    rw [Mnemonic.reg1_instr, i.reg1_eq_reg1Of]
    exact Shape.reg1Of_eq_reg1Of_iff.mpr hreg

/-! ### The numbers of the spec's own opcode map -/

/-- The 28 numbers the map of R47 leaves without a row (R49). -/
theorem mnemonicOf_spec_eq_none_iff (o : Opcode) :
    Config.spec.mnemonicOf o = none ↔ (4 ≤ o.toNat ∧ o.toNat ≤ 7) ∨ o.toNat = 15 ∨ 41 ≤ o.toNat := by
  revert o
  decide

/-- Settles O6: a word decodes exactly if the map has its number. -/
theorem unmappedOpcodesAreRefused : Obligations.UnmappedOpcodesAreRefused := by
  intro w n
  have hiff := mnemonicOf_spec_eq_none_iff (opcodeField w)
  split
  · rename_i hn
    exact decodeWith_of_unmapped (hiff.mpr hn)
  · rename_i hn
    obtain ⟨m, hm⟩ := Option.ne_none_iff_exists'.mp (mt hiff.mp hn)
    exact ⟨_, decodeWith_of_mnemonicOf hm⟩

/-- Settles O5: eleven words of the spec's map, by evaluation of the decoder. -/
theorem wordsDecodeAsWritten : Obligations.WordsDecodeAsWritten := by
  refine ⟨?_, ?_, ?_, ?_, ?_, ?_, ?_, ?_, ?_, ?_, ?_⟩ <;> decide

end Sys2Proof

/-!
SUPPORT. The control bundle (spec/50_execution_cycle.md R105 to R107) against the instruction rules, and, read off its
one datapath, which registers and which byte of data memory an instruction touches.
-/

namespace Sys2Proof.Machine

open Sys2Proof.Safety

/-! ### The bundle and the rules -/

/-- The pointer update of a jump as the bundle's multiplexer. -/
theorem State.jumpIf_eq_setPc (s : State) (b : Bool) (a : Byte) :
    s.jumpIf b a = s.setPc (if b then a else trunc8 (s.pc.toNat + 1)) := by
  cases b <;> rfl

/-- The pointer update of a return as the bundle's multiplexer. -/
theorem State.returnTo_eq_setPc (s : State) (o : Option Byte) :
    s.returnTo o = s.setPc (if o.isSome then o.getD 0#8 else trunc8 (s.pc.toNat + 1)) := by
  cases o <;> rfl

/-- LDR's two rows drive its two orientations. -/
theorem execByControl_ldr (s : State) (r1 r2 : Reg) :
    execByControl s.config (.ldr r1 r2) s = .next (s.loadIndirect s.config r1 r2) := by
  simp only [execByControl, Instr.mnemonic, controlRow, Instr.operand, reg2Of_byte, State.loadIndirect]
  cases s.config.ldrOrientation <;> rfl

/-- Settles O60: rule and row compute the same record; a register number comes back from the operand byte, and the
pointer's multiplexer is that of the jumps and of RET. -/
theorem controlBundleAgreesWithRules : Obligations.ControlBundleAgreesWithRules := by
  intro i s
  cases i
  case ldr r1 r2 => exact (execByControl_ldr s r1 r2).symm
  case str | cp | sub | add | and | or | xor =>
    simp only [execByControl, Instr.operand, reg2Of_byte]
    rfl
  case jiz | jnz | jic | jnc | jii | jni => exact congrArg Host.Outcome.next (s.jumpIf_eq_setPc _ _)
  case ret => exact congrArg Host.Outcome.next (s.popped.returnTo_eq_setPc _)
  all_goals rfl

/-- What an instruction does, through its row: a DecodeError where there is none, nothing at all while it is blocked,
and else what the row drives. -/
theorem exec_next_cases {i : Instr} {s t : State} (h : exec i s = .next t) :
    (controlRow s.config i.mnemonic = none ∧ t = s.takeUnmapped s.config s.fetch) ∨
    ∃ k, controlRow s.config i.mnemonic = some k ∧
      ((k.enabled s = false ∧ t = s) ∨
        (k.enabled s = true ∧ t = k.drive s.config s i.reg1 (reg2Of i.operand.byte) i.operand.byte)) := by
  rw [controlBundleAgreesWithRules i s, execByControl] at h
  split at h
  · rename_i hk
    cases h
    exact .inl ⟨hk, rfl⟩
  · rename_i k hk
    split at h <;> rename_i he <;> cases h
    · exact .inr ⟨k, hk, .inr ⟨he, rfl⟩⟩
    · exact .inr ⟨k, hk, .inl ⟨Bool.eq_false_iff.mpr he, rfl⟩⟩

/-! ### The rows and the tables of who touches what -/

/-- The register a row's write port names. -/
def Control.writePort (k : Control) (r1 r2 : Reg) : Option Reg :=
  match k.wreg with
  | .off => none
  | .r1 => some r1
  | .r2 => some r2

/-- The registers a row's read ports name. -/
def Control.readPorts (k : Control) (r1 r2 : Reg) : List Reg :=
  (if k.rdA then [r1] else []) ++ (if k.rdB then [r2] else [])

/-- The address a row's store goes to. -/
def Control.storePort (k : Control) (u : Bus) : Option Byte :=
  if k.mem = .wr then some (k.address u) else none

/-- The column "write" of R11 is the row's write port. -/
theorem regWritten_eq_writePort {c : Config} {i : Instr} {k : Control} (hk : controlRow c i.mnemonic = some k) :
    regWritten c i = k.writePort i.reg1 (reg2Of i.operand.byte) := by
  cases i
  case ldpr => cases hk
  case ldr r1 r2 =>
    cases hk
    rw [Instr.operand, reg2Of_byte, regWritten]
    cases c.ldrOrientation <;> rfl
  all_goals cases hk; rfl

/-- The column "read" of R11 is the row's read ports. -/
theorem regsRead_eq_readPorts {c : Config} {i : Instr} {k : Control} (hk : controlRow c i.mnemonic = some k) :
    regsRead c i = k.readPorts i.reg1 (reg2Of i.operand.byte) := by
  cases i
  case ldpr => cases hk
  case ldr r1 r2 =>
    cases hk
    rw [Instr.operand, reg2Of_byte, regsRead]
    cases c.ldrOrientation <;> rfl
  case str | cp | sub | add | and | or | xor =>
    cases hk
    rw [Instr.operand, reg2Of_byte]
    rfl
  all_goals cases hk; rfl

/-- ST and STR store where their row does, and no other row stores. -/
theorem storeAddress_eq_storePort {c : Config} {i : Instr} {k : Control} (s : State)
    (hk : controlRow c i.mnemonic = some k) :
    storeAddress s i = k.storePort (k.bus s i.reg1 (reg2Of i.operand.byte) i.operand.byte) := by
  cases i
  case ldpr => cases hk
  case ldr r1 r2 =>
    cases hk
    cases c.ldrOrientation <;> rfl
  all_goals cases hk; rfl

/-- A row is enabled exactly when its instruction is not blocked. -/
theorem enabled_eq_not_blocked {c : Config} {i : Instr} {k : Control} (s : State)
    (hk : controlRow c i.mnemonic = some k) : k.enabled s = !blocked s i := by
  cases i
  case ldpr => cases hk
  case wr r1 => cases hk; exact (Bool.not_not _).symm
  case rd r1 => cases hk; exact s.inputReady_eq_not_blocked
  case ldr r1 r2 =>
    cases hk
    cases c.ldrOrientation <;> rfl
  all_goals cases hk; rfl

/-- The instruction without a row is LDPR, which is never blocked and writes no register. -/
theorem eq_ldpr_of_no_row {c : Config} {i : Instr} (hk : controlRow c i.mnemonic = none) : ∃ r, i = .ldpr r := by
  cases i
  case ldpr r => exact ⟨r, rfl⟩
  all_goals cases hk

/-! ### What the datapath writes -/

theorem Control.drive_x (c : Config) (k : Control) (s : State) (r1 r2 : Reg) (d : Byte) :
    (k.drive c s r1 r2 d).x =
      match k.writePort r1 r2 with
      | none => s.x
      | some r => s.x.set r (k.writeValue c s (k.bus s r1 r2 d)) := by
  simp only [Control.drive, Control.nextRegs, Control.writePort]
  cases k.wreg <;> rfl

/-- A store changes one byte at most, and only at the address of the store port. -/
theorem Control.drive_dmem (c : Config) (k : Control) (s : State) (r1 r2 : Reg) (d : Byte) :
    (k.drive c s r1 r2 d).dmem = s.dmem ∨
      ∃ a v, k.storePort (k.bus s r1 r2 d) = some a ∧
        (k.drive c s r1 r2 d).dmem = Memory.writeAt s.dmem a.toNat v := by
  simp only [Control.drive, Control.nextDmem, Control.storePort]
  split
  · rename_i hm _
    exact .inr ⟨_, _, if_pos hm, rfl⟩
  · rename_i hm _
    exact .inr ⟨_, _, if_pos hm, rfl⟩
  · exact .inl rfl

@[simp] theorem State.takeUnmapped_x (c : Config) (s : State) (w : InstrWord) : (s.takeUnmapped c w).x = s.x := by
  rw [State.takeUnmapped_eq]

@[simp] theorem State.takeUnmapped_dmem (c : Config) (s : State) (w : InstrWord) :
    (s.takeUnmapped c w).dmem = s.dmem := by
  rw [State.takeUnmapped_eq]

/-- The register file after an instruction: as before, or one register of the column "write" replaced. -/
theorem exec_x_cases {i : Instr} {s t : State} (h : exec i s = .next t) :
    t.x = s.x ∨ ∃ r v, regWritten s.config i = some r ∧ t.x = s.x.set r v := by
  rcases exec_next_cases h with ⟨_, rfl⟩ | ⟨k, hk, ⟨_, rfl⟩ | ⟨_, rfl⟩⟩
  · exact .inl (State.takeUnmapped_x _ _ _)
  · exact .inl rfl
  · rw [Control.drive_x, regWritten_eq_writePort hk]
    cases k.writePort i.reg1 (reg2Of i.operand.byte) with
    | none => exact .inl rfl
    | some r => exact .inr ⟨r, _, rfl, rfl⟩

/-- Data memory after an instruction: as before, or one byte at the address of a store replaced. -/
theorem exec_dmem_cases {i : Instr} {s t : State} (h : exec i s = .next t) :
    t.dmem = s.dmem ∨ ∃ a v, storeAddress s i = some a ∧ t.dmem = Memory.writeAt s.dmem a.toNat v := by
  rcases exec_next_cases h with ⟨_, rfl⟩ | ⟨k, hk, ⟨_, rfl⟩ | ⟨_, rfl⟩⟩
  · exact .inl (State.takeUnmapped_dmem _ _ _)
  · exact .inl rfl
  · rw [storeAddress_eq_storePort s hk]
    exact Control.drive_dmem _ _ _ _ _ _

/-- A blocked instruction leaves the state as it is. -/
theorem exec_of_blocked {i : Instr} {s t : State} (h : exec i s = .next t) (hb : blocked s i = true) : t = s := by
  rcases exec_next_cases h with ⟨hk, _⟩ | ⟨k, hk, ⟨_, ht⟩ | ⟨he, _⟩⟩
  · obtain ⟨r, rfl⟩ := eq_ldpr_of_no_row hk
    cases hb
  · exact ht
  · rw [enabled_eq_not_blocked s hk, hb] at he
    cases he

/-- Settles O30: totality is `exec_next`, program memory is out of every instruction's reach, and of data memory only
the byte at the store's address changes. -/
theorem instructionsNeverStop : Obligations.InstructionsNeverStop := by
  intro i s
  obtain ⟨t, ht⟩ := exec_next i s
  refine ⟨t, ht, exec_of_blocked ht, (exec_outOfReach ht).sameProgram, fun b hb => ?_⟩
  rcases exec_dmem_cases ht with hd | ⟨a, v, ha, hd⟩
  · exact State.readData_congr hd b
  · have hne : b ≠ a := fun e => hb (e ▸ ha)
    calc
      t.readData b = (s.writeData a v).readData b := State.readData_congr (s := s.writeData a v) hd b
      _ = s.readData b := State.readData_writeData_of_ne s v hne

/-! ### The registers an instruction does not read -/

theorem RegFile.set_set_self (f : RegFile) (r : Reg) (v w : Byte) : (f.set r v).set r w = f.set r w := by
  cases r <;> rfl

theorem RegFile.set_comm (f : RegFile) {q r : Reg} (v w : Byte) (h : q ≠ r) :
    (f.set q v).set r w = (f.set r w).set q v := by
  cases q <;> cases r <;> simp [RegFile.set] at h ⊢

/-- A register no read port names gives nothing to the other blocks. -/
theorem Control.bus_setReg {k : Control} {s : State} {r1 r2 q : Reg} (v d : Byte) (hq : q ∉ k.readPorts r1 r2) :
    k.bus (s.setReg q v) r1 r2 d = k.bus s r1 r2 d := by
  have hport : ∀ {on : Bool} {r : Reg}, (on = true → q ≠ r) →
      (if on then (s.setReg q v).reg r else 0#8) = if on then s.reg r else 0#8 := by
    intro on r hne
    cases on
    · rfl
    · exact s.reg_setReg_of_ne v (hne rfl).symm
  have ha : k.rdA = true → q ≠ r1 := by rintro h rfl; simp [Control.readPorts, h] at hq
  have hb : k.rdB = true → q ≠ r2 := by rintro h rfl; simp [Control.readPorts, h] at hq
  rw [Control.bus, hport ha, hport hb, ← Control.bus]

/-- The datapath under another value of a register it does not read: only that register can come out different, and
it does not where it is the one written. -/
theorem Control.drive_setReg {c : Config} {k : Control} {s : State} {r1 r2 q : Reg} (v d : Byte)
    (hq : q ∉ k.readPorts r1 r2) :
    ∃ u, k.drive c (s.setReg q v) r1 r2 d = (k.drive c s r1 r2 d).setReg q u ∧
      (k.writePort r1 r2 = some q → u = (k.drive c s r1 r2 d).reg q) := by
  have hx := Control.drive_x c k s r1 r2 d
  have hx' := Control.drive_x c k (s.setReg q v) r1 r2 d
  have hval : k.writeValue c (s.setReg q v) (k.bus s r1 r2 d) = k.writeValue c s (k.bus s r1 r2 d) := rfl
  have hrest : k.drive c (s.setReg q v) r1 r2 d =
      { k.drive c s r1 r2 d with x := (k.drive c (s.setReg q v) r1 r2 d).x } := by
    simp only [Control.drive, Control.bus_setReg v d hq]
    rfl
  rw [Control.bus_setReg v d hq, hval, State.setReg_x] at hx'
  rw [hrest, hx']
  generalize k.drive c s r1 r2 d = t at hx ⊢
  cases hw : k.writePort r1 r2 with
  | none =>
    refine ⟨v, ?_, fun hc => nomatch hc⟩
    simp only [State.setReg, hx, hw]
  | some r =>
    rw [hw] at hx
    by_cases hqr : q = r
    · subst hqr
      exact ⟨t.reg q, by simp [State.setReg, State.reg_eq_get, hx, RegFile.set_set_self], fun _ => rfl⟩
    · refine ⟨v, ?_, fun hc => absurd (Option.some.inj hc).symm hqr⟩
      simp only [State.setReg, hx, RegFile.set_comm _ v _ hqr]

theorem State.takeUnmapped_setReg (c : Config) (s : State) (q : Reg) (v : Byte) (w : InstrWord) :
    (s.setReg q v).takeUnmapped c w = (s.takeUnmapped c w).setReg q v := by
  unfold State.takeUnmapped
  cases c.unmappedPolicy <;> rfl

/-- An instruction under another value of a register it does not read: the result differs in that register at most,
and not even there if the instruction runs and writes it. -/
theorem exec_setReg {i : Instr} {s t : State} {q : Reg} (v : Byte) (hq : q ∉ regsRead s.config i)
    (h : exec i s = .next t) :
    ∃ u, exec i (s.setReg q v) = .next (t.setReg q u) ∧
      (blocked s i = false → regWritten s.config i = some q → u = t.reg q) := by
  rw [controlBundleAgreesWithRules, State.setReg_config, execByControl]
  rcases exec_next_cases h with ⟨hk, rfl⟩ | ⟨k, hk, hcase⟩
  · obtain ⟨r, rfl⟩ := eq_ldpr_of_no_row hk
    rw [hk]
    exact ⟨v, congrArg Host.Outcome.next (State.takeUnmapped_setReg _ _ _ _ _), fun _ hw => nomatch hw⟩
  have hen : k.enabled (s.setReg q v) = k.enabled s := rfl
  rw [hk, regWritten_eq_writePort hk]
  rcases hcase with ⟨he, rfl⟩ | ⟨he, rfl⟩
  · refine ⟨v, if_neg (by simp [hen, he]), fun hb => ?_⟩
    rw [enabled_eq_not_blocked t hk, hb] at he
    cases he
  · rw [regsRead_eq_readPorts hk] at hq
    obtain ⟨u, hu, hsame⟩ := Control.drive_setReg (c := s.config) (s := s) v i.operand.byte hq
    exact ⟨u, (if_pos (hen.trans he)).trans (congrArg Host.Outcome.next hu), fun _ => hsame⟩

/-- Settles O33: the write column from the register file after an instruction, the read column from the instruction
under another value of a register it does not read. -/
theorem registersTouchedByTable : Obligations.RegistersTouchedByTable := by
  refine ⟨fun i s t h q hq => ?_, fun i s q v hq => ?_⟩
  · rcases exec_x_cases h with hx | ⟨r, v, hr, hx⟩ <;> rw [State.reg_eq_get, hx]
    · rfl
    · exact RegFile.get_set_of_ne s.x v fun e => hq (e ▸ hr)
  · obtain ⟨t, ht⟩ := exec_next i s
    obtain ⟨u, hu, hsame⟩ := exec_setReg v hq ht
    refine ⟨t, t.setReg q u, ht, hu, rfl, fun p hp => t.reg_setReg_of_ne u hp, fun hb hw => ?_⟩
    rw [State.reg_setReg_self]
    exact (hsame hb hw).symm

/-! ### The flags -/

/-- Settles O34: what an instruction leaves in `FLAGS`, off the bits R20 lists. -/
theorem flagsTouchedByTable : Obligations.FlagsTouchedByTable := by
  intro i s t h
  rw [exec_flags h]
  exact flagsAfter_and_not_written s i

theorem flagsRead_and_interruptBits {i : Instr} (h : readsInterrupt i = false) :
    flagsRead i &&& interruptBits = 0#8 := by
  cases i
  case ldfl | jii | jni => cases h
  all_goals simp [flagsRead, interruptBits, Flag.mask, Flag.index]

/-- Settles O37: no other instruction reads the interrupt's bit, so the bit reaches nothing but itself. -/
theorem interruptFlagReachesThreeInstructions : Obligations.InterruptFlagReachesThreeInstructions :=
  fun _ _ _ _ hs hi h => exec_sameButFlagBits (flagsRead_and_interruptBits hi) hs h

end Sys2Proof.Machine

/-!
SUPPORT. What each instruction does and leaves unchanged (spec/40_data_movement.md to spec/47_io_noop.md): one frame per
kind of result (a register written, a register and `FLAGS`, a byte stored), and the settled statements about single
instructions and short sequences of them.
-/

namespace Sys2Proof.Machine

open Sys2Proof.Safety

/-! ### Frames -/

theorem pcAdvanced_of_eq {s t : State} (h : t.pc = s.pc + 1#8) : PcAdvanced s t := by
  rw [PcAdvanced, h, BitVec.toNat_add]
  rfl

/-- Registers, pointer, flags and data memory replaced: everything else is as before. -/
theorem sameElsewhere_update (s : State) (x : RegFile) (pc flags : Byte) (dmem : Memory) :
    SameElsewhere s { s with x := x, pc := pc, flags := flags, dmem := dmem } :=
  ⟨fun _ => rfl, rfl, ⟨rfl, rfl, rfl⟩, rfl, rfl, rfl, rfl, rfl, rfl, rfl⟩

/-- Registers, pointer and flags replaced: everything else is as before. -/
theorem onlyRegsFlagsPc_update (s : State) (x : RegFile) (pc flags : Byte) :
    OnlyRegsFlagsPc s { s with x := x, pc := pc, flags := flags } :=
  ⟨fun _ => rfl, sameElsewhere_update s x pc flags s.dmem⟩

/-- What is left of a state in which one register is written and the pointer advances, `FLAGS` left open: every other
register and everything outside registers, flags and pointer. -/
structure WritesReg (r : Reg) (v : Byte) (s t : State) : Prop where
  reg : t.reg r = v
  others : SameRegsBut r s t
  pc : PcAdvanced s t
  rest : OnlyRegsFlagsPc s t

/-- A register and `FLAGS` written, then the increment: the result of ADD, SUB and their immediate forms. -/
theorem writesReg_setReg_setFlags (s : State) (r : Reg) (v f : Byte) :
    WritesReg r v s ((s.setReg r v).setFlags f).advance where
  reg := RegFile.get_set_self s.x r v
  others := fun _ hq => RegFile.get_set_of_ne s.x v hq
  pc := pcAdvanced_of_eq (State.advance_pc _)
  rest := onlyRegsFlagsPc_update s _ _ _

/-- A register written, then the increment: the result of the loads, the copies and the bitwise instructions. -/
theorem writesReg_loadReg (s : State) (r : Reg) (v : Byte) : WritesReg r v s (s.loadReg r v) :=
  writesReg_setReg_setFlags s r v s.flags

/-- An instruction whose result is one register write has, in that register, whatever holds of the value, and leaves
everything else but the pointer. -/
theorem exec_writesOneReg {i : Instr} {s : State} {r : Reg} {v : Byte} (h : exec i s = .next (s.loadReg r v))
    {P : Byte → Prop} (hv : P v) :
    ∃ t, exec i s = .next t ∧ P (t.reg r) ∧ SameRegsBut r s t ∧ t.flags = s.flags ∧ PcAdvanced s t ∧
      OnlyRegsFlagsPc s t := by
  have hw := writesReg_loadReg s r v
  exact ⟨_, h, hw.reg.symm ▸ hv, hw.others, rfl, hw.pc, hw.rest⟩

/-- A byte stored, then the increment (R53, R54). -/
theorem storeByte_frame (s : State) (a v : Byte) :
    (s.storeByte a v).readData a = v ∧ SameDataBut a s (s.storeByte a v) ∧ SameRegs s (s.storeByte a v) ∧
      (s.storeByte a v).flags = s.flags ∧ PcAdvanced s (s.storeByte a v) ∧ SameElsewhere s (s.storeByte a v) :=
  ⟨s.readData_writeData_self a v, fun _ hb => s.readData_writeData_of_ne v hb, fun _ => rfl, rfl,
    pcAdvanced_of_eq (State.advance_pc _), sameElsewhere_update s _ _ _ _⟩

/-! ### Data movement -/

/-- Settles O7: both are a store of one byte, at the immediate or at the register's address. -/
theorem storesWriteOneByte : Obligations.StoresWriteOneByte :=
  ⟨fun _ _ s => ⟨_, rfl, storeByte_frame s _ _⟩, fun _ _ s => ⟨_, rfl, storeByte_frame s _ _⟩⟩

/-- Settles O8: a register write of the byte at the immediate. -/
theorem ldLoadsDirect : Obligations.LdLoadsDirect :=
  fun _ data s => exec_writesOneReg (P := (· = s.readData data)) rfl rfl

/-- LDR is a register write whose two fields the orientation names (R56). -/
theorem State.loadIndirect_eq_loadReg (c : Config) (s : State) (r1 r2 : Reg) :
    s.loadIndirect c r1 r2 = s.loadReg (ldrDestField c.ldrOrientation r1 r2)
      (s.readData (s.reg (ldrAddressField c.ldrOrientation r1 r2))) := by
  unfold State.loadIndirect
  cases c.ldrOrientation <;> rfl

/-- Settles O9: the register write of `State.loadIndirect_eq_loadReg`, read at each orientation. -/
theorem ldrLoadsIndirect : Obligations.LdrLoadsIndirect := by
  intro r1 r2 s
  refine ⟨_, congrArg Host.Outcome.next (s.loadIndirect_eq_loadReg s.config r1 r2), ?_⟩
  cases s.config.ldrOrientation with
  | addrReg1DestReg2 =>
    have h := writesReg_loadReg s r2 (s.readData (s.reg r1))
    exact ⟨⟨h.reg, h.others⟩, rfl, h.pc, h.rest⟩
  | destReg1AddrReg2 =>
    have h := writesReg_loadReg s r1 (s.readData (s.reg r2))
    exact ⟨⟨h.reg, h.others⟩, rfl, h.pc, h.rest⟩

/-- Settles O10: register writes of the immediate and of the other register's value. -/
theorem liAndCpWriteRegister : Obligations.LiAndCpWriteRegister :=
  ⟨fun _ data _ => exec_writesOneReg (P := (· = data)) rfl rfl,
    fun _ r2 s => exec_writesOneReg (P := (· = s.reg r2)) rfl rfl⟩

/-! ### Flags -/

theorem clearOne_frame (s : State) (k : Flag) :
    (s.clearOne k).flags.getLsbD k.index = false ∧ SameFlagsBut k s (s.clearOne k) ∧ SameRegs s (s.clearOne k) ∧
      PcAdvanced s (s.clearOne k) ∧ OnlyRegsFlagsPc s (s.clearOne k) :=
  ⟨getLsbD_clearFlag_self s.flags k, fun _ hi hne => getLsbD_clearFlag_of_ne s.flags hi hne, fun _ => rfl,
    pcAdvanced_of_eq (State.advance_pc _), onlyRegsFlagsPc_update s _ _ _⟩

/-- Settles O11: the three instructions clear one flag each. -/
theorem flagClearsClearOneBit : Obligations.FlagClearsClearOneBit := by
  intro s i k h
  simp only [List.mem_cons, Prod.mk.injEq, List.not_mem_nil, or_false] at h
  rcases h with ⟨rfl, rfl⟩ | ⟨rfl, rfl⟩ | ⟨rfl, rfl⟩ <;> exact ⟨_, rfl, clearOne_frame s _⟩

/-- Settles O18: a register write of the flags byte. -/
theorem ldflCopiesFlags : Obligations.LdflCopiesFlags := by
  intro r1 s
  have h := writesReg_loadReg s r1 s.flags
  exact ⟨_, rfl, h.reg, rfl, h.others, h.pc, h.rest⟩

theorem exec_stfl (s : State) (r1 : Reg) :
    exec (.stfl r1) s = .next { s with flags := s.reg r1, pc := s.pc + 1#8 } :=
  congrArg Host.Outcome.next (State.advance_eq _)

/-- Settles O19: the halt check reads bit 6 of the byte that was loaded (R103). -/
theorem stflLoadsFlagsAndHalts : Obligations.StflLoadsFlagsAndHalts := by
  intro r1 s
  refine ⟨_, exec_stfl s r1, rfl, fun hr => ?_⟩
  rw [State.status_halted_iff]
  exact and_iff_right hr

/-- Settles O20: LDPR is what an unmapped word does, under both policies, and no row of a valid map is its own. -/
theorem ldprRaisesDecodeError : Obligations.LdprRaisesDecodeError := by
  refine ⟨fun r1 s => ?_, fun c w r1 hc hd => decodeWith_mnemonic_ne_ldpr hc hd rfl⟩
  refine congrArg Host.Outcome.next ((State.takeUnmapped_eq s.config s s.fetch).trans ?_)
  cases s.config.unmappedPolicy <;> rfl

/-! ### Arithmetic, logic and shifts -/

/-- ADD and ADDI are one addition into `x[r1]`. -/
theorem addInto_frame (c : Config) (s : State) (r1 : Reg) (b : Byte) :
    WritesReg r1 (alu .add (s.reg r1) b) s (s.addInto c r1 b) ∧ SameFlagsBut .carry s (s.addInto c r1 b) ∧
      (s.addInto c r1 b).flags.getLsbD 0 =
        (decide (255 < (s.reg r1).toNat + b.toNat) || (c.flagUpdate == .setOnly && s.flags.getLsbD 0)) :=
  ⟨writesReg_setReg_setFlags s r1 _ _, fun _ hi hne => getLsbD_updateFlag_of_ne _ s.flags _ hi hne,
    getLsbD_updateFlag_self c.flagUpdate s.flags .carry (carryOut (s.reg r1) b)⟩

/-- SUB and SUBI are one subtraction into `x[r1]`. -/
theorem subInto_frame (c : Config) (s : State) (r1 : Reg) (b : Byte) :
    WritesReg r1 (alu .subAbs (s.reg r1) b) s (s.subInto c r1 b) ∧ SameFlagsBut .negative s (s.subInto c r1 b) ∧
      (s.subInto c r1 b).flags.getLsbD 2 =
        (decide ((s.reg r1).toNat < b.toNat) || (c.flagUpdate == .setOnly && s.flags.getLsbD 2)) := by
  rw [← differenceNegative_eq]
  exact ⟨writesReg_setReg_setFlags s r1 _ _, fun _ hi hne => getLsbD_updateFlag_of_ne _ s.flags _ hi hne,
    getLsbD_updateFlag_self c.flagUpdate s.flags .negative (differenceNegative (s.reg r1) b)⟩

/-- Settles O12: both forms are one addition, whose sum and carry are numbers. -/
theorem addWrapsAndAssignsCarry : Obligations.AddWrapsAndAssignsCarry := by
  intro s r1 i b hi
  have hexec : exec i s = .next (s.addInto s.config r1 b) := by
    rcases hi with ⟨r2, rfl, rfl⟩ | rfl <;> rfl
  obtain ⟨h, hflags, hcarry⟩ := addInto_frame s.config s r1 b
  exact ⟨_, hexec, by rw [h.reg, toNat_alu_add], hcarry, hflags, h.others, h.pc, h.rest⟩

/-- Settles O13: both forms are one subtraction; sign and magnitude make up the difference. -/
theorem subStoresMagnitudeAndSign : Obligations.SubStoresMagnitudeAndSign := by
  intro s r1 i b hi
  have hexec : exec i s = .next (s.subInto s.config r1 b) := by
    rcases hi with ⟨r2, rfl, rfl⟩ | rfl <;> rfl
  obtain ⟨h, hflags, hsign⟩ := subInto_frame s.config s r1 b
  refine ⟨_, hexec, hsign, ?_, hflags, h.others, h.pc, h.rest⟩
  rw [h.reg, toNat_alu_subAbs]
  split <;> omega

/-- An ALU operation that works bit by bit, as the Boolean operation on each bit. -/
inductive BitwiseOp : AluOp → (Bool → Bool → Bool) → Prop
  | and : BitwiseOp .and Bool.and
  | or : BitwiseOp .or Bool.or
  | xor : BitwiseOp .xor Bool.xor

theorem BitwiseOp.getLsbD {op : AluOp} {f : Bool → Bool → Bool} (h : BitwiseOp op f) (a b : Byte) (n : Nat) :
    (alu op a b).getLsbD n = f (a.getLsbD n) (b.getLsbD n) := by
  cases h with
  | and => exact getLsbD_alu_and a b n
  | or => exact getLsbD_alu_or a b n
  | xor => exact getLsbD_alu_xor a b n

/-- An instruction that puts the result of such an operation into a register. -/
theorem exec_bitwise {i : Instr} {s : State} {r : Reg} {b : Byte} {op : AluOp} {f : Bool → Bool → Bool}
    (h : exec i s = .next (s.aluInto op r b)) (hop : BitwiseOp op f) :
    ∃ t, exec i s = .next t ∧ (∀ n, n < 8 → (t.reg r).getLsbD n = f ((s.reg r).getLsbD n) (b.getLsbD n)) ∧
      SameRegsBut r s t ∧ t.flags = s.flags ∧ PcAdvanced s t ∧ OnlyRegsFlagsPc s t :=
  exec_writesOneReg (P := fun v => ∀ n, n < 8 → v.getLsbD n = f ((s.reg r).getLsbD n) (b.getLsbD n)) h
    fun n _ => hop.getLsbD _ _ n

/-- Settles O14: three bitwise ALU results into a register. -/
theorem bitwiseRegisterForms : Obligations.BitwiseRegisterForms := by
  intro s r1 r2 i f h
  simp only [List.mem_cons, Prod.mk.injEq, List.not_mem_nil, or_false] at h
  rcases h with ⟨rfl, rfl⟩ | ⟨rfl, rfl⟩ | ⟨rfl, rfl⟩
  · exact exec_bitwise (b := s.reg r2) rfl .and
  · exact exec_bitwise (b := s.reg r2) rfl .or
  · exact exec_bitwise (b := s.reg r2) rfl .xor

/-- Settles O15: the same three with the immediate as second operand. -/
theorem bitwiseImmediateForms : Obligations.BitwiseImmediateForms := by
  intro s r1 d i f h
  simp only [List.mem_cons, Prod.mk.injEq, List.not_mem_nil, or_false] at h
  rcases h with ⟨rfl, rfl⟩ | ⟨rfl, rfl⟩ | ⟨rfl, rfl⟩
  · exact exec_bitwise (b := d) rfl .and
  · exact exec_bitwise (b := d) rfl .or
  · exact exec_bitwise (b := d) rfl .xor

/-- Settles O16: three ALU results into a register, read as numbers. -/
theorem unaryForms : Obligations.UnaryForms := by
  intro s r1 i f h
  simp only [List.mem_cons, Prod.mk.injEq, List.not_mem_nil, or_false] at h
  rcases h with ⟨rfl, rfl⟩ | ⟨rfl, rfl⟩ | ⟨rfl, rfl⟩
  · exact exec_writesOneReg (P := fun v => v.toNat = 255 - (s.reg r1).toNat) rfl (toNat_alu_not _ _)
  · exact exec_writesOneReg (P := fun v => v.toNat = 2 * (s.reg r1).toNat % 256) rfl (toNat_alu_shl _ _)
  · exact exec_writesOneReg (P := fun v => v.toNat = (s.reg r1).toNat / 2) rfl (toNat_alu_shr _ _)

/-! ### CALL and RET -/

theorem exec_call (s : State) (a : Byte) :
    exec (.call a) s = .next { s with stack := pushEntry s.config.stackDepth s.stack s.pc, pc := a } := rfl

/-- Settles O21: the two cases of a push, with the pointer replaced. -/
theorem callPushesOwnAddress : Obligations.CallPushesOwnAddress := by
  refine fun imm s => ⟨fun h => ?_, fun h => ?_⟩
  · rw [exec_call, pushEntry_of_room s.pc h]
  · rw [exec_call, pushEntry_of_full s.pc h, List.drop_one]

theorem exec_ret (s : State) : exec .ret s = .next (s.popped.returnTo s.stackTop) := rfl

/-- Settles O22: the newest entry is the last of the list, and an empty stack has none. -/
theorem retGoesToPoppedAddress : Obligations.RetGoesToPoppedAddress := by
  refine ⟨fun s rest a h => ?_, fun s h => ?_⟩ <;> rw [exec_ret]
  · obtain ⟨htop, hpop⟩ := popTakesTheNewest.1 s rest a h
    rw [htop, hpop]
    rfl
  · obtain ⟨htop, hpop⟩ := popTakesTheNewest.2 s h
    rw [htop, hpop, State.returnTo_none]

/-- Settles O29: RET takes the entry CALL pushed, which is the CALL's own address. -/
theorem retRunsTheCallAgain : Obligations.RetRunsTheCallAgain := by
  intro imm s
  obtain ⟨hroom, hfull⟩ := callPushesOwnAddress imm s
  exact ⟨fun h => ⟨_, hroom h, retGoesToPoppedAddress.1 _ s.stack s.pc rfl⟩,
    fun h => ⟨_, hfull h, retGoesToPoppedAddress.1 _ s.stack.tail s.pc rfl⟩⟩

/-! ### Streams and NOOP -/

theorem exec_wr (s : State) (r1 : Reg) :
    exec (.wr r1) s =
      .next (if s.sinkReady then { s with outStream := s.outStream ++ [s.reg r1], pc := s.pc + 1#8 } else s) :=
  (s.whenReady_eq _ _).trans (by rw [State.advance_eq]; rfl)

/-- Settles O23: the two values of the sink's readiness. -/
theorem wrAppendsOneByte : Obligations.WrAppendsOneByte := by
  refine fun r1 s => ⟨fun h => ?_, fun h => ?_⟩ <;> rw [exec_wr, h] <;> rfl

theorem exec_rd (s : State) (r1 : Reg) :
    exec (.rd r1) s = .next (if s.inputReady then
      { s with inStream := s.inStream.tail, x := s.x.set r1 (s.inputByte s.config), pc := s.pc + 1#8 } else s) :=
  (s.whenReady_eq _ _).trans (by rw [State.advance_eq]; rfl)

/-- Settles O24: a byte available, the end of the input, and neither. -/
theorem rdTakesOneByte : Obligations.RdTakesOneByte := by
  refine ⟨rfl, fun r1 s => ⟨fun b rest h => ?available, fun h he => ?ended, fun h he => ?blocked⟩⟩ <;> rw [exec_rd]
  case available =>
    refine ⟨{ s with x := s.x.set r1 b, inStream := rest, pc := s.pc + 1#8 }, ?_,
      RegFile.get_set_self _ _ _, fun _ hq => RegFile.get_set_of_ne _ _ hq, rfl⟩
    simp [State.inputReady, State.inputByte, h]
  case ended =>
    refine ⟨{ s with x := s.x.set r1 s.config.rdEofValue, pc := s.pc + 1#8 }, ?_,
      RegFile.get_set_self _ _ _, fun _ hq => RegFile.get_set_of_ne _ _ hq, rfl⟩
    simp [State.inputReady, State.inputByte, h, he]
  case blocked => simp [State.inputReady, h, he]

/-- Settles O25: the increment as a record. -/
theorem noopAdvancesOnly : Obligations.NoopAdvancesOnly := fun s => congrArg Host.Outcome.next s.advance_eq

/-! ### Short sequences -/

/-- Settles O38: the byte LDFL reads goes through both registers back to `FLAGS`. -/
theorem flagsSurviveLdflCpStfl : Obligations.FlagsSurviveLdflCpStfl := by
  intro r1 r2 s
  let t1 := s.loadReg r1 s.flags
  let t2 := t1.loadReg r2 (t1.reg r1)
  have h1 := writesReg_loadReg s r1 s.flags
  have h2 := writesReg_loadReg t1 r2 (t1.reg r1)
  refine ⟨t1, t2, _, rfl, rfl, exec_stfl t2 r2, h2.reg.trans h1.reg, ?_, fun q hq1 hq2 => ?_,
    onlyRegsFlagsPc_update s _ _ _⟩
  · simp only [t1, t2, State.loadReg_eq, BitVec.add_assoc]
    rfl
  · exact (h2.others q hq2).trans (h1.others q hq1)

/-- A byte stored and the byte read at any address after it (R38). -/
theorem readData_storeByte (s : State) (a v b : Byte) :
    (s.storeByte a v).readData b = if b = a then v else s.readData b := by
  split
  · rename_i h
    exact h ▸ s.readData_writeData_self a v
  · rename_i h
    exact s.readData_writeData_of_ne v h

/-- Settles O39: the load reads the byte stored, or the one that was there. -/
theorem loadSeesTheLastStore : Obligations.LoadSeesTheLastStore := by
  refine ⟨fun s r1 r2 q data => ?_, fun s r1 r2 q data => ?_⟩
  · refine ⟨s.storeByte (s.reg r1) (s.reg r2), _, rfl, rfl, ?_⟩
    exact (writesReg_loadReg _ q _).reg.trans (readData_storeByte s (s.reg r1) (s.reg r2) data)
  · refine ⟨s.storeByte data (s.reg r1), _, rfl, congrArg Host.Outcome.next (State.loadIndirect_eq_loadReg _ _ _ _), ?_⟩
    exact (writesReg_loadReg _ _ _).reg.trans (readData_storeByte s data (s.reg r1) _)

end Sys2Proof.Machine

/-!
SUPPORT. One step of the whole system (spec/50_execution_cycle.md R93 to R103): everything a step that answers a next
state can have done, said once, and the settled statements about single turns, about what only one agent can do, and
about the invariant.
-/

namespace Sys2Proof.Machine

open Sys2Proof.Safety

/-! ### The turn that is taken -/

theorem runsNow_eq_some_iff (s : State) (i : Instr) :
    runsNow s = some i ↔ s.status = .running ∧ s.nextTurn = .core ∧ decodeWith s.config s.fetch = .ok i := by
  unfold runsNow
  split
  · rename_i h
    cases hd : decodeWith s.config s.fetch <;> simp [h.1, h.2]
  · rename_i h
    simp only [reduceCtorEq, false_iff]
    exact fun hc => h ⟨hc.1, hc.2.1⟩

theorem resetNext_eq_true_iff (s : State) : resetNext s = true ↔ s.nextTurn = .hostReset := by
  simp [resetNext]

theorem releaseNext_eq_true_iff (s : State) :
    releaseNext s = true ↔ ∃ input ended, s.nextTurn = .hostRelease input ended := by
  unfold releaseNext
  cases s.nextTurn <;> simp

/-- The updates of the environment's agents on a running core (R100, R101, R114). -/
inductive EnvironmentDid (s : State) : AgentTurn → State → Prop
  | irq : EnvironmentDid s .irq s.irqStep
  | inputByte (b : Byte) : EnvironmentDid s (.inputByte b) (s.inputAppend b)
  | inputEnd : EnvironmentDid s .inputEnd s.inputFinish
  | sink (a : AgentTurn) (ready : Bool) : EnvironmentDid s a (s.setSink ready)

/-- The host's writes through its ports (R102). -/
inductive HostWrote (s : State) : State → Prop
  | program (a : Byte) (w : InstrWord) : HostWrote s (s.placeWord a w)
  | data (a v : Byte) : HostWrote s (s.writeData a v)

/-- What a step that answers a next state did, on the state whose turn is taken; tied to the machine by
`step_did`. -/
inductive StepDid (s t : State) : Prop
  | executed (i : Instr) (hrun : runsNow s = some i) (hexec : exec i s.turnTaken = .next t)
  | unmapped (e : DecodeError) (hrun : s.status = .running) (herr : decodeWith s.config s.fetch = .error e)
      (ht : t = s.turnTaken.takeUnmapped s.config s.fetch)
  | reset (hnext : resetNext s = true) (ht : t = s.turnTaken.applyReset)
  | released (input : List Byte) (ended : Bool) (hnext : releaseNext s = true) (hheld : s.inReset = true)
      (ht : t = s.turnTaken.release input ended)
  | passed (ht : t = s.turnTaken)
  | environment (hrun : s.status = .running) (hdid : EnvironmentDid s.turnTaken s.nextTurn t)
  | wrote (hrun : s.status ≠ .running) (hwrote : HostWrote s.turnTaken t)

/-- Everything a step can do. -/
theorem step_did {s t : State} (h : step s = .next t) : StepDid s t := by
  rcases takeTurn_next_cases (step_next_cases h).2 with
    ⟨hcore, hrun, hcycle⟩ | ⟨ha, ht⟩ | ⟨input, ended, ha, hheld, _, ht⟩ | ht | ⟨hrun, henv⟩ | ⟨hrun, hhost⟩
  · rw [State.turnTaken_status] at hrun
    rcases s.turnTaken.cycle_cases with ⟨i, hd, hc⟩ | ⟨e, hd, hc⟩ <;>
      rw [State.turnTaken_config, State.turnTaken_fetch] at hd <;> rw [hc] at hcycle
    · exact .executed i ((runsNow_eq_some_iff s i).mpr ⟨hrun, hcore, hd⟩) hcycle
    · cases hcycle
      exact .unmapped e hrun hd (by rw [State.turnTaken_config, State.turnTaken_fetch])
  · exact .reset ((resetNext_eq_true_iff s).mpr ha) ht
  · exact .released input ended ((releaseNext_eq_true_iff s).mpr ⟨input, ended, ha⟩)
      (s.turnTaken_inReset ▸ hheld) ht
  · exact .passed ht
  · rw [State.turnTaken_status] at hrun
    rcases henv with ⟨ha, rfl⟩ | ⟨b, ha, rfl⟩ | ⟨ha, rfl⟩ | ⟨ready, rfl⟩
    · exact .environment hrun (ha ▸ .irq)
    · exact .environment hrun (ha ▸ .inputByte b)
    · exact .environment hrun (ha ▸ .inputEnd)
    · exact .environment hrun (.sink s.nextTurn ready)
  · rw [State.turnTaken_status] at hrun
    rcases hhost with ⟨a, w, _, rfl⟩ | ⟨a, v, _, rfl⟩
    · exact .wrote hrun (.program a w)
    · exact .wrote hrun (.data a v)

/-- A host's reset does what it says in every state. -/
theorem step_of_resetNext {s t : State} (h : step s = .next t) (hr : resetNext s = true) :
    t = s.turnTaken.applyReset := by
  have ht := (step_next_cases h).2
  rw [(resetNext_eq_true_iff s).mp hr] at ht
  cases ht
  rfl

/-! ### What each of them leaves unchanged -/

/-- What the environment's agents do not touch: everything but the interrupt flag, the input and the sink. -/
structure EnvironmentKeeps (s t : State) : Prop where
  x : t.x = s.x
  pc : t.pc = s.pc
  halt : t.flag .halt = s.flag .halt
  stack : t.stack = s.stack
  fault : t.fault = s.fault
  pmemHead : t.pmemHead = s.pmemHead
  pmemOpnd : t.pmemOpnd = s.pmemOpnd
  dmem : t.dmem = s.dmem
  outStream : t.outStream = s.outStream
  inReset : t.inReset = s.inReset

theorem State.irqStep_halt (s : State) : s.irqStep.flag .halt = s.flag .halt :=
  getLsbD_setFlag_of_ne s.flags (k := .interrupt) (Flag.index_lt .halt) (by decide)

theorem EnvironmentDid.keeps {s t : State} {a : AgentTurn} (h : EnvironmentDid s a t) : EnvironmentKeeps s t := by
  cases h with
  | irq => exact ⟨rfl, rfl, s.irqStep_halt, rfl, rfl, rfl, rfl, rfl, rfl, rfl⟩
  | inputByte b =>
    rw [State.inputAppend_eq]
    exact ⟨rfl, rfl, rfl, rfl, rfl, rfl, rfl, rfl, rfl, rfl⟩
  | inputEnd => exact ⟨rfl, rfl, rfl, rfl, rfl, rfl, rfl, rfl, rfl, rfl⟩
  | sink a ready => exact ⟨rfl, rfl, rfl, rfl, rfl, rfl, rfl, rfl, rfl, rfl⟩

/-- What the host's writes do not touch: everything but the three memories. -/
theorem HostWrote.eq_memories {s t : State} (h : HostWrote s t) :
    t = { s with pmemHead := t.pmemHead, pmemOpnd := t.pmemOpnd, dmem := t.dmem } := by
  cases h <;> rfl

/-- The status reads the halt bit of `FLAGS` and no other. -/
theorem State.status_congr_halt {s t : State} (hr : t.inReset = s.inReset) (hf : t.flag .halt = s.flag .halt)
    (hl : t.fault = s.fault) : t.status = s.status := by
  unfold State.status
  rw [hr, hf, hl]

theorem HostWrote.status {s t : State} (h : HostWrote s t) : t.status = s.status := by
  rw [h.eq_memories]
  rfl

/-! ### What an instruction does to the halt bit, the streams and the latch -/

/-- Only STFL touches the halt bit (R18). -/
theorem exec_halt_cases {i : Instr} {s t : State} (h : exec i s = .next t) :
    t.flag .halt = s.flag .halt ∨ ∃ r, i = .stfl r ∧ t.flag .halt = (s.reg r).getLsbD 6 := by
  by_cases hi : ∃ r, i = .stfl r
  · obtain ⟨r, rfl⟩ := hi
    cases h
    exact .inr ⟨r, rfl, rfl⟩
  · have hbit : (~~~flagsWritten i).getLsbD 6 = true := by
      cases i
      case stfl r => exact absurd ⟨r, rfl⟩ hi
      all_goals simp [flagsWritten]
    exact .inl (getLsbD_eq_of_and_eq (flagsTouchedByTable i s t h) hbit)

@[simp] theorem State.takeUnmapped_flags (c : Config) (s : State) (w : InstrWord) :
    (s.takeUnmapped c w).flags = s.flags := by
  rw [State.takeUnmapped_eq]

@[simp] theorem State.takeUnmapped_inStream (c : Config) (s : State) (w : InstrWord) :
    (s.takeUnmapped c w).inStream = s.inStream := by
  rw [State.takeUnmapped_eq]

@[simp] theorem State.takeUnmapped_outStream (c : Config) (s : State) (w : InstrWord) :
    (s.takeUnmapped c w).outStream = s.outStream := by
  rw [State.takeUnmapped_eq]

/-- The rows of WR and RD are the only ones with a stream operation. -/
theorem eq_wr_or_rd_of_row {c : Config} {i : Instr} {k : Control} (hk : controlRow c i.mnemonic = some k) :
    (k.io = .wr → ∃ r, i = .wr r) ∧ (k.io = .rd → ∃ r, i = .rd r) := by
  cases i
  case ldpr => cases hk
  case wr r => cases hk; exact ⟨fun _ => ⟨r, rfl⟩, (nomatch ·)⟩
  case rd r => cases hk; exact ⟨(nomatch ·), fun _ => ⟨r, rfl⟩⟩
  case ldr r1 r2 =>
    cases hk
    cases c.ldrOrientation <;> exact ⟨(nomatch ·), (nomatch ·)⟩
  all_goals
    cases hk
    exact ⟨(nomatch ·), (nomatch ·)⟩

/-- Only WR touches `OUT`, and it appends its register's byte once the sink accepts (R90). -/
theorem exec_outStream_cases {i : Instr} {s t : State} (h : exec i s = .next t) :
    t.outStream = s.outStream ∨
      ∃ r, i = .wr r ∧ s.sinkReady = true ∧ t.outStream = s.outStream ++ [s.reg r] := by
  rcases exec_next_cases h with ⟨_, rfl⟩ | ⟨k, hk, ⟨_, rfl⟩ | ⟨he, rfl⟩⟩
  · exact .inl (State.takeUnmapped_outStream _ _ _)
  · exact .inl rfl
  · by_cases hio : k.io = .wr
    · obtain ⟨r, rfl⟩ := (eq_wr_or_rd_of_row hk).1 hio
      cases hk
      exact .inr ⟨r, rfl, he, rfl⟩
    · exact .inl (if_neg hio)

/-- Only RD touches `IN`, and it takes the first byte, if there is one, into its register (R91). -/
theorem exec_inStream_cases {i : Instr} {s t : State} (h : exec i s = .next t) :
    t.inStream = s.inStream ∨ ∃ r b, i = .rd r ∧ s.inStream = b :: t.inStream ∧ t.reg r = b := by
  rcases exec_next_cases h with ⟨_, rfl⟩ | ⟨k, hk, ⟨_, rfl⟩ | ⟨_, rfl⟩⟩
  · exact .inl (State.takeUnmapped_inStream _ _ _)
  · exact .inl rfl
  · by_cases hio : k.io = .rd
    · obtain ⟨r, rfl⟩ := (eq_wr_or_rd_of_row hk).2 hio
      cases hin : s.inStream with
      | nil => exact .inl ((if_pos hio).trans (by rw [hin]; rfl))
      | cons b rest =>
        obtain ⟨t', ht', hb, _, heq⟩ := (rdTakesOneByte.2 r s).1 b rest hin
        rw [h, Host.Outcome.next.injEq] at ht'
        rw [ht']
        exact .inr ⟨r, b, rfl, by rw [heq], hb⟩
    · exact .inl (if_neg hio)

/-- No instruction of the hardware touches the latch: LDPR alone raises (R86). -/
theorem exec_fault {i : Instr} {s t : State} (h : exec i s = .next t) (hl : i.mnemonic ≠ .ldpr) :
    t.fault = s.fault := by
  rcases exec_next_cases h with ⟨hk, _⟩ | ⟨_, _, ⟨_, rfl⟩ | ⟨_, rfl⟩⟩
  · obtain ⟨r, rfl⟩ := eq_ldpr_of_no_row hk
    exact absurd rfl hl
  · rfl
  · rfl

/-! ### What only one agent can do -/

/-- A step that is no reset changes the halt bit only by STFL. -/
theorem step_halt_cases {s t : State} (h : step s = .next t) (hr : resetNext s = false) :
    t.flag .halt = s.flag .halt ∨ ∃ r, runsNow s = some (.stfl r) ∧ t.flag .halt = (s.reg r).getLsbD 6 := by
  rw [← s.turnTaken_flag]
  cases step_did h with
  | executed i hrun hexec =>
    rcases exec_halt_cases hexec with hh | ⟨r, rfl, hh⟩
    · exact .inl hh
    · exact .inr ⟨r, hrun, s.turnTaken_reg r ▸ hh⟩
  | unmapped e hrun herr ht =>
    rw [ht, State.flag, State.takeUnmapped_flags]
    exact .inl rfl
  | reset hnext ht => rw [hr] at hnext; cases hnext
  | released input ended hnext hheld ht => exact .inl (ht ▸ rfl)
  | passed ht => exact .inl (ht ▸ rfl)
  | environment hrun hdid => exact .inl hdid.keeps.halt
  | wrote hrun hwrote => rw [hwrote.eq_memories]; exact .inl rfl

/-- Settles O35: the halt bit by `step_halt_cases`; a halted core is neither running nor held, so its step passed or
was a write of the host. -/
theorem haltBitRule : Obligations.HaltBitRule := by
  refine ⟨fun s t h hr hne => (step_halt_cases h hr).resolve_left hne, fun s t h hr hs => ?_, fun s hs hsch => ?_⟩
  · have hnot : s.status ≠ .running := by rw [hs]; decide
    have hfree := ((s.status_halted_iff).mp hs).1
    rw [SameRegs, SameStreams, ← s.turnTaken_pc, ← s.turnTaken_flags, ← s.turnTaken_stack, ← s.turnTaken_fault,
      ← s.turnTaken_inStream, ← s.turnTaken_inEnded, ← s.turnTaken_outStream]
    cases step_did h with
    | executed i hrun hexec => exact absurd ((runsNow_eq_some_iff s i).mp hrun).1 hnot
    | unmapped e hrun herr ht => exact absurd hrun hnot
    | reset hnext ht => rw [hr] at hnext; cases hnext
    | released input ended hnext hheld ht => rw [hfree] at hheld; cases hheld
    | passed ht => subst ht; exact ⟨s.turnTaken_reg, rfl, rfl, rfl, rfl, rfl, rfl, rfl⟩
    | environment hrun hdid => exact absurd hrun hnot
    | wrote hrun hwrote =>
      rw [hwrote.eq_memories]
      exact ⟨s.turnTaken_reg, rfl, rfl, rfl, rfl, rfl, rfl, rfl⟩
  · simp [step, State.stopReason, hsch, hs]

/-- Settles O46: a step that keeps the status passed, was the environment's, or was a write of the host; the core's own
steps start from a running core, and a reset and a release are the two exceptions. -/
theorem onlyResetLeavesTheEnd : Obligations.OnlyResetLeavesTheEnd := by
  intro s t h
  have hreset : s.turnTaken.applyReset.status = .inReset := rfl
  by_cases hr : resetNext s = true
  · rw [step_of_resetNext h hr]
    exact ⟨fun _ => by rw [if_pos hr]; exact hreset, fun _ hrun => by rw [hreset] at hrun; cases hrun⟩
  rw [if_neg hr]
  suffices hsuff : s.status = .running ∨ t.status = s.status ∨ (s.status = .inReset ∧ releaseNext s = true) by
    rcases hsuff with hs | hs | ⟨hs, hrel⟩
    · exact ⟨by simp [hs], fun hne => absurd hs hne⟩
    · exact ⟨fun _ => hs, fun hne hrun => absurd (hs ▸ hrun) hne⟩
    · exact ⟨by simp [hs], fun _ _ => ⟨hs, hrel⟩⟩
  cases step_did h with
  | executed i hrun hexec => exact .inl ((runsNow_eq_some_iff s i).mp hrun).1
  | unmapped e hrun herr ht => exact .inl hrun
  | reset hnext ht => exact absurd hnext hr
  | released input ended hnext hheld ht => exact .inr (.inr ⟨(s.status_inReset_iff).mpr hheld, hnext⟩)
  | passed ht => exact .inr (.inl (ht ▸ s.turnTaken_status))
  | environment hrun hdid => exact .inl hrun
  | wrote hrun hwrote => exact .inr (.inl (hwrote.status.trans s.turnTaken_status))

/-- Settles O47: of all a step can do, only WR's execution and the reset touch `OUT`. -/
theorem outputIsWhatWrEmitted : Obligations.OutputIsWhatWrEmitted := by
  intro s t h hr
  rw [← s.turnTaken_outStream, ← s.turnTaken_sinkReady]
  cases step_did h with
  | executed i hrun hexec =>
    rcases exec_outStream_cases hexec with ho | ⟨r, rfl, hsink, ho⟩
    · exact .inl ho
    · exact .inr ⟨r, hrun, hsink, s.turnTaken_reg r ▸ ho⟩
  | unmapped e hrun herr ht => exact .inl (ht ▸ State.takeUnmapped_outStream _ _ _)
  | reset hnext ht => rw [hr] at hnext; cases hnext
  | released input ended hnext hheld ht => exact .inl (ht ▸ rfl)
  | passed ht => exact .inl (ht ▸ rfl)
  | environment hrun hdid => exact .inl hdid.keeps.outStream
  | wrote hrun hwrote => rw [hwrote.eq_memories]; exact .inl rfl

/-- The input after an update of the environment: ended for good, and longer by the byte that arrived, if any. -/
theorem EnvironmentDid.input {s t : State} {a : AgentTurn} (h : EnvironmentDid s a t) :
    (s.inEnded = true → t.inEnded = true) ∧
      (t.inStream = s.inStream ∨ ∃ b, a = .inputByte b ∧ s.inEnded = false ∧ t.inStream = s.inStream ++ [b]) := by
  cases h with
  | irq => exact ⟨id, .inl rfl⟩
  | inputByte b =>
    rw [State.inputAppend_eq]
    refine ⟨id, ?_⟩
    cases he : s.inEnded
    · exact .inr ⟨b, rfl, rfl, rfl⟩
    · exact .inl rfl
  | inputEnd => exact ⟨fun _ => rfl, .inl rfl⟩
  | sink a ready => exact ⟨id, .inl rfl⟩

/-- Settles O48: of all a step can do, only RD's execution, the input agent and the release touch the input. -/
theorem inputIsConsumedInOrder : Obligations.InputIsConsumedInOrder := by
  intro s t h hr
  rw [← s.turnTaken_inStream, ← s.turnTaken_inEnded]
  cases step_did h with
  | executed i hrun hexec =>
    refine ⟨fun he => (exec_outOfReach hexec).inEnded.trans he, ?_⟩
    rcases exec_inStream_cases hexec with hin | ⟨r, b, rfl, hin⟩
    · exact .inl hin
    · exact .inr (.inl ⟨r, b, hrun, hin⟩)
  | unmapped e hrun herr ht =>
    rw [ht, State.takeUnmapped_eq]
    exact ⟨id, .inl rfl⟩
  | reset hnext ht => exact ht ▸ ⟨id, .inl rfl⟩
  | released input ended hnext hheld ht => rw [hr] at hnext; cases hnext
  | passed ht => exact ht ▸ ⟨id, .inl rfl⟩
  | environment hrun hdid =>
    obtain ⟨hend, hin⟩ := hdid.input
    exact ⟨hend, hin.imp_right .inr⟩
  | wrote hrun hwrote => rw [hwrote.eq_memories]; exact ⟨id, .inl rfl⟩

/-! ### The invariant -/

/-- The three memories are in canonical form. -/
structure MemoriesWf (s : State) : Prop where
  head : Memory.wf s.pmemHead
  opnd : Memory.wf s.pmemOpnd
  data : Memory.wf s.dmem

/-- A set latch names the pointer and an undecodable word, in a core that is not halted (R112). -/
def LatchPrecise (s : State) : Prop :=
  ∀ a w, s.fault = some (a, w) → s.pc = a ∧ (∃ e, decodeWith s.config w = .error e) ∧ s.flag .halt = false

theorem LatchPrecise.of_clear {s : State} (h : s.fault = none) : LatchPrecise s :=
  fun a w hf => by rw [h] at hf; cases hf

theorem HostWrote.memoriesWf {s t : State} (h : HostWrote s t) (hs : MemoriesWf s) : MemoriesWf t := by
  cases h with
  | program a w =>
    exact ⟨Memory.wf_writeAt _ hs.head (byte_lt_cells a), Memory.wf_writeAt _ hs.opnd (byte_lt_cells a), hs.data⟩
  | data a v => exact ⟨hs.head, hs.opnd, Memory.wf_writeAt _ hs.data (byte_lt_cells a)⟩

theorem exec_memoriesWf {i : Instr} {s t : State} (h : exec i s = .next t) (hs : MemoriesWf s) : MemoriesWf t := by
  have hreach := exec_outOfReach h
  refine ⟨hreach.pmemHead ▸ hs.head, hreach.pmemOpnd ▸ hs.opnd, ?_⟩
  rcases exec_dmem_cases h with hd | ⟨a, v, _, hd⟩ <;> rw [hd]
  · exact hs.data
  · exact Memory.wf_writeAt v hs.data (byte_lt_cells a)

theorem MemoriesWf.turnTaken {s : State} (h : MemoriesWf s) : MemoriesWf s.turnTaken := by
  rw [s.turnTaken_eq]
  exact ⟨h.head, h.opnd, h.data⟩

/-- Every step keeps the canonical form: what it writes it writes at an address of the memory. -/
theorem step_memoriesWf {s t : State} (h : step s = .next t) (hs : MemoriesWf s) : MemoriesWf t := by
  have hm := hs.turnTaken
  cases step_did h with
  | executed i hrun hexec => exact exec_memoriesWf hexec hm
  | unmapped e hrun herr ht =>
    rw [ht, State.takeUnmapped_eq]
    exact ⟨hm.head, hm.opnd, hm.data⟩
  | reset hnext ht => exact ht ▸ ⟨hm.head, hm.opnd, hm.data⟩
  | released input ended hnext hheld ht => exact ht ▸ ⟨hm.head, hm.opnd, hm.data⟩
  | passed ht => exact ht ▸ hm
  | environment hrun hdid =>
    have hk := hdid.keeps
    exact ⟨hk.pmemHead ▸ hm.head, hk.pmemOpnd ▸ hm.opnd, hk.dmem ▸ hm.data⟩
  | wrote hrun hwrote => exact hwrote.memoriesWf hm

/-- The latch an undecodable word leaves in a running core is precise. -/
theorem takeUnmapped_latchPrecise {s : State} {e : DecodeError} (hrun : s.status = .running)
    (herr : decodeWith s.config s.fetch = .error e) : LatchPrecise (s.takeUnmapped s.config s.fetch) := by
  obtain ⟨_, hhalt, hclear⟩ := (s.status_running_iff).mp hrun
  rw [State.takeUnmapped_eq]
  cases s.config.unmappedPolicy with
  | fault =>
    intro a w hf
    cases hf
    exact ⟨rfl, ⟨e, herr⟩, hhalt⟩
  | noop => exact LatchPrecise.of_clear hclear

/-- Every step keeps the latch precise: a running core's latch is clear and only an undecodable word sets it, and on a
core that is not running nothing but a reset touches pointer, halt bit and latch. -/
theorem step_latchPrecise {s t : State} (hc : s.config.valid = true) (hheld : s.inReset = true → s.fault = none)
    (h : step s = .next t) (hs : LatchPrecise s) : LatchPrecise t := by
  have hpass : LatchPrecise s.turnTaken := by rw [s.turnTaken_eq]; exact hs
  cases step_did h with
  | executed i hrun hexec =>
    obtain ⟨hrunning, _, hd⟩ := (runsNow_eq_some_iff s i).mp hrun
    obtain ⟨_, _, hclear⟩ := (s.status_running_iff).mp hrunning
    refine LatchPrecise.of_clear ((exec_fault hexec (decodeWith_mnemonic_ne_ldpr hc hd)).trans ?_)
    rw [s.turnTaken_fault, hclear]
  | unmapped e hrun herr ht =>
    rw [← s.turnTaken_status] at hrun
    rw [← s.turnTaken_config, ← s.turnTaken_fetch] at herr ht
    exact ht ▸ takeUnmapped_latchPrecise hrun herr
  | reset hnext ht => exact ht ▸ LatchPrecise.of_clear rfl
  | released input ended hnext hr ht => exact ht ▸ LatchPrecise.of_clear (s.turnTaken_fault.trans (hheld hr))
  | passed ht => exact ht ▸ hpass
  | environment hrun hdid =>
    obtain ⟨_, _, hclear⟩ := (s.status_running_iff).mp hrun
    exact LatchPrecise.of_clear (hdid.keeps.fault.trans (s.turnTaken_fault.trans hclear))
  | wrote hrun hwrote => rw [hwrote.eq_memories]; exact hpass

theorem atResetValues_applyReset (s : State) : AtResetValues s.applyReset :=
  ⟨fun r => by cases r <;> rfl, rfl, rfl, rfl, rfl, rfl⟩

/-- Every step keeps a held core at its reset values: the core has no step there, and the host's writes reach the
memories only. -/
theorem step_heldAtReset {s t : State} (h : step s = .next t) (hs : s.inReset = true → AtResetValues s) :
    t.inReset = true → AtResetValues t := by
  have hpass : s.turnTaken.inReset = true → AtResetValues s.turnTaken := by rw [s.turnTaken_eq]; exact hs
  have hfree : s.status = .running → s.turnTaken.inReset = false :=
    fun hrun => s.turnTaken_inReset.trans ((s.status_running_iff).mp hrun).1
  cases step_did h with
  | executed i hrun hexec =>
    have hr := (exec_outOfReach hexec).inReset.trans (hfree ((runsNow_eq_some_iff s i).mp hrun).1)
    exact fun ht => by rw [hr] at ht; cases ht
  | unmapped e hrun herr ht =>
    rw [ht, State.takeUnmapped_eq]
    exact fun hr => by rw [hfree hrun] at hr; cases hr
  | reset hnext ht => exact fun _ => ht ▸ atResetValues_applyReset _
  | released input ended hnext hr ht => rw [ht]; exact fun hr => nomatch hr
  | passed ht => exact ht ▸ hpass
  | environment hrun hdid =>
    have hr := hdid.keeps.inReset.trans (hfree hrun)
    exact fun ht => by rw [hr] at ht; cases ht
  | wrote hrun hwrote => rw [hwrote.eq_memories]; exact hpass

/-- Settles O55: the configuration is fixed, the stack's bound is O28's, and memories, latch and held core have a step
lemma each. -/
theorem everyStepKeepsTheInvariant : Obligations.EveryStepKeepsTheInvariant := by
  intro s t hs h
  have hc := step_config h
  have hdepth := ((Config.valid_iff _).mp hs.config).2.1
  have hm := step_memoriesWf h ⟨hs.head, hs.opnd, hs.data⟩
  have hclear : s.inReset = true → s.fault = none := fun hr => by
    obtain ⟨_, _, _, _, hfault, _⟩ := hs.held hr
    exact hfault
  exact {
    config := hc ▸ hs.config
    head := hm.head
    opnd := hm.opnd
    data := hm.data
    stack := (stackStaysBounded.2.2 s t hdepth hs.stack h).2
    latch := step_latchPrecise hs.config hclear h hs.latch
    held := step_heldAtReset h hs.held }

/-- Settles O56: the reset state holds the spec's configuration, empty memories and an empty stack. -/
theorem resetMeetsTheInvariant : Obligations.ResetMeetsTheInvariant where
  config := Config.spec_valid
  head := Memory.wf_nil
  opnd := Memory.wf_nil
  data := Memory.wf_nil
  stack := Nat.zero_le _
  latch := LatchPrecise.of_clear rfl
  held := fun h => nomatch h

end Sys2Proof.Machine

/-!
SUPPORT. Single turns, one by one (spec/50_execution_cycle.md R93 to R103, spec/60_exceptions.md,
spec/70_reset_and_hazards.md R126 to R130): the core's, running or not, those of the environment's agents and those of
the host.
-/

namespace Sys2Proof.Machine

open Sys2Proof.Safety

/-! ### The core's turn -/

theorem State.cycle_of_decoded {s : State} {i : Instr} (h : decodeWith s.config s.fetch = .ok i) :
    s.cycle = exec i s := by
  rw [State.cycle, h]

theorem State.cycle_of_undecodable {s : State} {e : DecodeError} (h : decodeWith s.config s.fetch = .error e) :
    s.cycle = .next (s.takeUnmapped s.config s.fetch) := by
  rw [State.cycle, h]

/-- At a core turn of a running core the step is `exec` of the decoded instruction (R95). -/
theorem step_of_decoded {s : State} {i : Instr} (hr : s.status = .running) (hn : s.nextTurn = .core)
    (hd : decodeWith s.config s.fetch = .ok i) : step s = exec i s.turnTaken := by
  rw [step_eq_cycle hr hn]
  rw [← s.turnTaken_config, ← s.turnTaken_fetch] at hd
  exact State.cycle_of_decoded hd

/-- At a core turn of a running core an undecodable word is taken as unmapped (R112). -/
theorem step_of_undecodable {s : State} {e : DecodeError} (hr : s.status = .running) (hn : s.nextTurn = .core)
    (hd : decodeWith s.config s.fetch = .error e) : step s = .next (s.turnTaken.takeUnmapped s.config s.fetch) := by
  rw [step_eq_cycle hr hn]
  rw [← s.turnTaken_config, ← s.turnTaken_fetch] at hd ⊢
  exact State.cycle_of_undecodable hd

/-- With a turn scheduled the step is that turn, whatever the status. -/
theorem step_of_schedule {s : State} {a : AgentTurn} {rest : List AgentTurn} (h : s.schedule = a :: rest) :
    step s = takeTurn a { s with schedule := rest } := by
  rw [step_eq_takeTurn (.inl (by simp [h])), State.nextTurn_of_schedule h, State.turnTaken_of_schedule h]

theorem State.nextTurn_of_closed {s : State} (hs : s.schedule = []) (hf : s.freeTurns = false) :
    s.nextTurn = .core := by
  simp [State.nextTurn, hs, hf]

theorem State.turnTaken_of_closed {s : State} (hs : s.schedule = []) (hf : s.freeTurns = false) :
    s.turnTaken = s := by
  simp [State.turnTaken, hs, hf]

/-- With nothing scheduled and free turns, the step of a running system is the turn the environment chooses. -/
theorem step_of_free {s : State} (hs : s.schedule = []) (hf : s.freeTurns = true) (hr : s.status = .running) :
    step s = takeTurn (turnOfFree (Config.environment s.turn)) { s with turn := s.turn + 1 } := by
  rw [step_eq_takeTurn (.inr hr)]
  simp [State.nextTurn, State.turnTaken, hs, hf]

/-- A decoded instruction is one the configuration has. -/
theorem decodeWith_wellFormed {c : Config} {w : InstrWord} {i : Instr} (h : decodeWith c w = .ok i) :
    i.wellFormed c = true := by
  obtain ⟨m, hm, rfl⟩ := decodeWith_ok h
  rw [Instr.wellFormed, Mnemonic.mnemonic_instr]
  exact (Config.mnemonicOf_some hm).1

/-- Settles O40: the core's turn, in a closed system, scheduled, and chosen by the environment. -/
theorem stepRunsTheDecodedInstruction : Obligations.StepRunsTheDecodedInstruction := by
  intro s i hr hd
  refine ⟨decodeWith_wellFormed hd, fun hs hf => ?_, fun rest hs => ?_, fun hs hf => ?_⟩
  · rw [step_of_decoded hr (State.nextTurn_of_closed hs hf) hd, State.turnTaken_of_closed hs hf]
  · rw [step_of_decoded hr (State.nextTurn_of_schedule hs) hd, State.turnTaken_of_schedule hs]
  · rw [step_of_free hs hf hr]
    split
    · rename_i henv
      rw [henv, turnOfFree, takeTurn, if_pos (show State.status { s with turn := s.turn + 1 } = .running from hr)]
      exact State.cycle_of_decoded (s := { s with turn := s.turn + 1 }) hd
    · rfl

/-- Settles O41: the placed word is the one fetched, and the next turn of the closed system is the core's. -/
theorem placedWordRunsNext : Obligations.PlacedWordRunsNext := by
  refine ⟨fun s nbits w i hr hd => ⟨?_, fun a ha => s.programWord_placeWord_of_ne (tableWord nbits w) ha⟩,
    fun nbits w i => ?_⟩
  · have hfetch : (s.withFetchWord nbits w).fetch = tableWord nbits w := s.programWord_placeWord_self s.pc _
    refine (stepRunsTheDecodedInstruction (s.withFetchWord nbits w) i hr ?_).2.1 rfl rfl
    rw [hfetch]
    exact hd
  · rw [decodeTableWord, decodeOption, decode]
    cases decodeWith Config.spec (tableWord nbits w) <;> simp

theorem step_of_stopReason {s : State} {r : Fault} (h : s.stopReason = some r) : step s = .fault r := by
  rw [step, h]

/-- With nothing scheduled a core that is not running makes no step, and the answer is the reason. -/
theorem step_of_halted {s : State} (hs : s.schedule = []) (hh : s.status = .halted) : step s = .fault .coreHalted :=
  step_of_stopReason (by simp [State.stopReason, hs, hh])

theorem step_of_faulted {s : State} (hs : s.schedule = []) (hh : s.status = .faulted) :
    step s = .fault .coreFaulted :=
  step_of_stopReason (by simp [State.stopReason, hs, hh])

theorem step_of_inReset {s : State} (hs : s.schedule = []) (hh : s.status = .inReset) :
    step s = .fault .coreInReset :=
  step_of_stopReason (by simp [State.stopReason, hs, hh])

theorem takeTurn_core_of_not_running {s : State} (h : s.status ≠ .running) : takeTurn .core s = .next s :=
  if_neg h

theorem State.takeUnmapped_of_fault {c : Config} (s : State) (w : InstrWord) (h : c.unmappedPolicy = .fault) :
    s.takeUnmapped c w = { s with fault := some (s.pc, w) } := by
  rw [State.takeUnmapped, h]
  rfl

theorem State.takeUnmapped_of_noop {c : Config} (s : State) (w : InstrWord) (h : c.unmappedPolicy = .noop) :
    s.takeUnmapped c w = { s with pc := s.pc + 1#8 } := by
  rw [State.takeUnmapped, h]
  exact s.advance_eq

/-- Settles O42: the latch is set in a core that was running, so it is faulted and not halted after it. -/
theorem undecodableWordFaults : Obligations.UndecodableWordFaults := by
  intro s e hn hr hd
  rw [step_of_undecodable hr hn hd]
  refine ⟨fun hpol => ?_, fun hpol => ?_⟩
  · have hlatch : s.turnTaken.takeUnmapped s.config s.fetch =
        { s.turnTaken with fault := some (s.pc, s.fetch) } := by
      simp only [State.takeUnmapped_of_fault _ _ hpol, s.turnTaken_pc]
    rw [hlatch]
    refine ⟨_, rfl, rfl, ?_⟩
    obtain ⟨hfree, hhalt, _⟩ := (s.status_running_iff).mp hr
    have hst : State.status { s.turnTaken with fault := some (s.pc, s.fetch) } = .faulted :=
      (State.status_faulted_iff _).mpr
        ⟨s.turnTaken_inReset.trans hfree, (s.turnTaken_flag .halt).trans hhalt, Option.some_ne_none _⟩
    exact ⟨takeTurn_core_of_not_running (by rw [hst]; decide), fun hs => step_of_faulted hs hst⟩
  · rw [State.takeUnmapped_of_noop _ _ hpol, s.turnTaken_pc]

/-- Settles O43: a running core's turn by `step_eq_cycle`, the others by the status they have. -/
theorem endedCoreHasNoStep : Obligations.EndedCoreHasNoStep := by
  refine ⟨fun s hr hn => ?_, fun s i hr hn hd hb => ?_, fun s hs hf hh => ?_, fun s hs hf hh hl => ?_,
    fun s hs hf => ?_, fun s rest hs hne => ?_⟩
  · rw [step_eq_cycle hr hn]
    exact s.turnTaken.cycle_next
  · obtain ⟨t, ht⟩ := exec_next i s.turnTaken
    rw [step_of_decoded hr hn hd, ht, exec_of_blocked ht (by rw [blocked_turnTaken, hb])]
  · exact step_of_halted hs ((s.status_halted_iff).mpr ⟨hf, hh⟩)
  · exact step_of_faulted hs ((s.status_faulted_iff).mpr ⟨hf, hh, hl⟩)
  · exact step_of_inReset hs ((s.status_inReset_iff).mpr hf)
  · rw [step_of_schedule hs]
    exact takeTurn_core_of_not_running (s := { s with schedule := rest }) hne

/-! ### The environment's turns -/

theorem State.whileRunning_of_running {s : State} (u : State) (h : s.status = .running) :
    s.whileRunning u = .next u := if_pos h

theorem State.whileRunning_of_not_running {s : State} (u : State) (h : s.status ≠ .running) :
    s.whileRunning u = .next s := if_neg h

/-- Settles O44: each turn of an environment's agent is its update on a running core and nothing on any other. -/
theorem environmentTurns : Obligations.EnvironmentTurns := by
  refine ⟨fun s rest hr hs => ?_, fun s rest b hr hs => ?_, fun s rest hr hs => ?_, fun s rest ready hr hs => ?_,
    fun s rest a hr hs ha => ?_, fun s hs hf hr => step_of_free hs hf hr⟩
  all_goals
    rw [step_of_schedule hs]
    have hstatus : State.status { s with schedule := rest } = s.status := rfl
    rw [← hstatus] at hr
  · exact State.whileRunning_of_running _ hr
  · rw [takeTurn, State.whileRunning_of_running _ hr, State.inputAppend_eq]
  · exact State.whileRunning_of_running _ hr
  · cases ready <;> exact State.whileRunning_of_running _ hr
  · rcases ha with rfl | ⟨b, rfl⟩ | rfl | rfl | rfl <;> exact State.whileRunning_of_not_running _ hr

/-! ### The host's turns -/

/-- Whether some program cell holds CALL or RET, over addresses as bytes. -/
theorem State.programUsesCallStack_iff (s : State) :
    s.programUsesCallStack = true ↔ ∃ a : Byte, opcodeField (s.programWord a) = s.config.opcodeOf .call ∨
      opcodeField (s.programWord a) = s.config.opcodeOf .ret := by
  simp only [State.programUsesCallStack, List.any_eq_true, List.mem_range, usesCallStack, Bool.or_eq_true, beq_iff_eq]
  refine ⟨fun ⟨n, _, h⟩ => ⟨_, h⟩, fun ⟨a, h⟩ => ⟨a.toNat, byte_lt_cells a, ?_⟩⟩
  rw [BitVec.ofNat_toNat, BitVec.setWidth_eq]
  exact h

theorem State.programUsesCallStack_eq_false_iff (s : State) :
    s.programUsesCallStack = false ↔ ∀ a : Byte, opcodeField (s.programWord a) ≠ s.config.opcodeOf .call ∧
      opcodeField (s.programWord a) ≠ s.config.opcodeOf .ret := by
  rw [← Bool.not_eq_true, s.programUsesCallStack_iff, not_exists]
  simp only [not_or, ne_eq]

theorem State.launchRefusal_of_invalid {s : State} (h : s.config.valid = false) :
    s.launchRefusal = some .badConfiguration := if_pos h

theorem State.launchRefusal_of_noCallStack {s : State} (hv : s.config.valid = true)
    (hc : s.config.hasCallStack = false) (hp : s.programUsesCallStack = true) :
    s.launchRefusal = some .noCallStack := by
  simp [State.launchRefusal, hv, hc, hp]

/-- The release of a held core, refused or done (R111, R130). -/
theorem State.hostRelease_of_refused {s : State} {r : Refusal} (input : List Byte) (ended : Bool)
    (hheld : s.inReset = true) (h : s.launchRefusal = some r) : s.hostRelease input ended = .refused r := by
  rw [State.hostRelease, if_pos hheld, h]

theorem State.hostRelease_of_allowed {s : State} (input : List Byte) (ended : Bool)
    (hheld : s.inReset = true) (h : s.launchRefusal = none) :
    s.hostRelease input ended = .next (s.release input ended) := by
  rw [State.hostRelease, if_pos hheld, h]

theorem State.status_release_of_atReset {s : State} (input : List Byte) (ended : Bool) (h : AtResetValues s) :
    (s.release input ended).status = .running := by
  obtain ⟨_, _, hflags, _, hfault, _⟩ := h
  refine (State.status_running_iff _).mpr ⟨rfl, ?_, hfault⟩
  rw [State.flag, State.release_flags, hflags]
  rfl

/-- The host's reset (R126, R128). -/
theorem step_of_hostReset {s : State} {rest : List AgentTurn} (h : s.schedule = .hostReset :: rest) :
    step s = .next (State.applyReset { s with schedule := rest }) := step_of_schedule h

theorem State.outsideRun_of_running {s : State} (u : State) (h : s.status = .running) :
    s.outsideRun u = .refused .hostWriteDuringRun := if_pos h

theorem State.outsideRun_of_not_running {s : State} (u : State) (h : s.status ≠ .running) :
    s.outsideRun u = .next u := if_neg h

/-- A write through a host port, during a run and outside one (R102). -/
theorem step_of_hostWrite {s u : State} {a : AgentTurn} {rest : List AgentTurn} (hs : s.schedule = a :: rest)
    (ha : takeTurn a { s with schedule := rest } = State.outsideRun { s with schedule := rest } u) :
    if s.status = .running then step s = .refused .hostWriteDuringRun else step s = .next u := by
  rw [step_of_schedule hs, ha]
  have hstatus : State.status { s with schedule := rest } = s.status := rfl
  split <;> rename_i hr <;> rw [← hstatus] at hr
  · exact State.outsideRun_of_running u hr
  · exact State.outsideRun_of_not_running u hr

/-- Settles O45: reset and the two writes by what they are; the release by the launch's refusal, which has three
cases. -/
theorem hostTurns : Obligations.HostTurns := by
  refine ⟨fun s rest hs => ?reset, fun s rest input ended hs => ?release, fun s rest a w hs => ?program,
    fun s rest a v hs => ?data⟩
  case reset =>
    exact ⟨_, step_of_hostReset hs, atResetValues_applyReset _, rfl, fun _ => rfl, fun _ => rfl, rfl⟩
  case release =>
    rw [step_of_schedule hs, takeTurn]
    let u : State := { s with schedule := rest }
    refine ⟨fun hf => if_neg (Bool.eq_false_iff.mp hf), fun hh hv => ?_, fun hh hv hc hp => ?_, fun hh hv hp => ?_⟩
    · exact State.hostRelease_of_refused (s := u) input ended hh (State.launchRefusal_of_invalid hv)
    · exact State.hostRelease_of_refused (s := u) input ended hh
        (State.launchRefusal_of_noCallStack hv hc ((u.programUsesCallStack_iff).mpr hp))
    · have hnone : u.launchRefusal = none :=
        (u.launchRefusal_eq_none_iff).mpr ⟨hv, hp.imp_right (u.programUsesCallStack_eq_false_iff).mpr⟩
      exact ⟨_, State.hostRelease_of_allowed (s := u) input ended hh hnone, rfl,
        State.status_release_of_atReset (s := u) input ended⟩
  case program =>
    have h := step_of_hostWrite hs rfl
    split at h <;> rename_i hr
    · rwa [if_pos hr]
    · rw [if_neg hr]
      exact ⟨_, h, State.programWord_placeWord_self _ a w, fun _ hb => State.programWord_placeWord_of_ne _ w hb, rfl⟩
  case data =>
    have h := step_of_hostWrite hs rfl
    split at h <;> rename_i hr
    · rwa [if_pos hr]
    · rw [if_neg hr]
      exact ⟨_, h, State.readData_writeData_self _ a v, fun _ hb => State.readData_writeData_of_ne _ v hb, rfl⟩

end Sys2Proof.Machine

/-!
SUPPORT. The memories as lists and the launch (spec/20_memory.md R31, R32, spec/70_reset_and_hazards.md R130 to R132):
canonical memories are determined by their bytes, what loading an image gives, image files, and the launch against the
host's turns.
-/

namespace Sys2Proof.Machine

open Sys2Proof.Safety

/-! ### Canonical memories -/

theorem Memory.readAt_of_mem {m : Memory} {a : Nat} {v : Byte}
    (hp : List.Pairwise (fun c d : Host.Cell => c.1 < d.1) m) (h : (a, v) ∈ m) : Memory.readAt m a = v := by
  induction m with
  | nil => cases h
  | cons c rest ih =>
    rw [List.pairwise_cons] at hp
    rcases List.mem_cons.mp h with rfl | hr
    · exact if_pos rfl
    · exact (if_neg (Nat.ne_of_lt (hp.1 _ hr))).trans (ih hp.2 hr)

theorem Memory.mem_of_readAt {m : Memory} {a : Nat} {v : Byte} (h : Memory.readAt m a = v) (hv : v ≠ blankByte) :
    (a, v) ∈ m := by
  induction m with
  | nil => exact absurd h.symm hv
  | cons c rest ih =>
    obtain ⟨k, u⟩ := c
    rw [Memory.readAt] at h
    split at h
    · rename_i hk
      rw [hk, h]
      exact List.mem_cons_self
    · exact List.mem_cons_of_mem _ (ih h)

/-- The entries of a canonical memory are its addresses with a byte that is not blank. -/
theorem Memory.wf.mem_iff {m : Memory} (hm : Memory.wf m) (c : Host.Cell) :
    c ∈ m ↔ c.1 < DMEM_CELLS ∧ c.2 ≠ blankByte ∧ Memory.readAt m c.1 = c.2 :=
  ⟨fun h => ⟨(hm.2 c h).1, (hm.2 c h).2, Memory.readAt_of_mem hm.1 h⟩, fun ⟨_, hv, h⟩ => Memory.mem_of_readAt h hv⟩

/-- Canonical memories with the same bytes have the same entries, and both list them by rising address. -/
theorem Memory.eq_of_readAt {m m' : Memory} (hm : Memory.wf m) (hm' : Memory.wf m')
    (h : ∀ a, a < DMEM_CELLS → Memory.readAt m a = Memory.readAt m' a) : m = m' := by
  have hmem : ∀ c, c ∈ m ↔ c ∈ m' := fun c => by
    rw [hm.mem_iff, hm'.mem_iff]
    exact and_congr_right fun hc => by rw [h c.1 hc]
  have hnodup : ∀ {l : Memory}, Memory.wf l → l.Nodup := fun hl => hl.1.imp fun hlt he => by
    rw [he] at hlt
    exact Nat.lt_irrefl _ hlt
  exact ((List.perm_ext_iff_of_nodup (hnodup hm) (hnodup hm')).mpr hmem).eq_of_pairwise
    (fun c d _ _ hcd hdc => absurd hcd (Nat.lt_asymm hdc)) hm.1 hm'.1

theorem toNat_ofNat_of_lt_cells {a : Nat} (h : a < DMEM_CELLS) : (BitVec.ofNat 8 a).toNat = a :=
  (BitVec.toNat_ofNat a 8).trans (Nat.mod_eq_of_lt h)

/-- Settles O53: every address is a byte. -/
theorem canonicalMemoriesAreEqual : Obligations.CanonicalMemoriesAreEqual := by
  intro m m' hm hm' h
  refine Memory.eq_of_readAt hm hm' fun a ha => ?_
  have hb := h (BitVec.ofNat 8 a)
  rwa [toNat_ofNat_of_lt_cells ha] at hb

/-! ### Loading an image -/

/-- The bytes of a list stored from an address on; tied to the machine by `State.loadProgram_eq` and
`State.loadData_eq`. -/
def Memory.storeFrom (m : Memory) (a : Nat) : List Byte → Memory
  | [] => m
  | v :: rest => Memory.storeFrom (Memory.writeAt m (BitVec.ofNat 8 a).toNat v) (a + 1) rest

theorem State.loadData_eq (s : State) (a : Nat) (data : List Byte) :
    s.loadData a data = { s with dmem := Memory.storeFrom s.dmem a data } := by
  induction data generalizing s a with
  | nil => rfl
  | cons v rest ih =>
    rw [State.loadData, ih]
    rfl

theorem State.loadProgram_eq (s : State) (a : Nat) (program : List InstrWord) :
    s.loadProgram a program = { s with
      pmemHead := Memory.storeFrom s.pmemHead a (program.map headByte)
      pmemOpnd := Memory.storeFrom s.pmemOpnd a (program.map operandField) } := by
  induction program generalizing s a with
  | nil => rfl
  | cons w rest ih =>
    rw [State.loadProgram, ih]
    rfl

theorem Memory.wf_storeFrom {m : Memory} (hm : Memory.wf m) (a : Nat) (vs : List Byte) :
    Memory.wf (Memory.storeFrom m a vs) := by
  induction vs generalizing m a with
  | nil => exact hm
  | cons v rest ih => exact ih (Memory.wf_writeAt v hm (byte_lt_cells _)) (a + 1)

/-- What is read after bytes are stored from an address on, as long as they fit. -/
theorem Memory.readAt_storeFrom (m : Memory) {a : Nat} {vs : List Byte} (h : a + vs.length ≤ DMEM_CELLS) (b : Nat) :
    Memory.readAt (Memory.storeFrom m a vs) b =
      if a ≤ b then vs.getD (b - a) (Memory.readAt m b) else Memory.readAt m b := by
  induction vs generalizing m a with
  | nil => simp [Memory.storeFrom]
  | cons v rest ih =>
    rw [List.length_cons] at h
    rw [Memory.storeFrom, ih _ (by omega), toNat_ofNat_of_lt_cells (by omega)]
    rcases Nat.lt_trichotomy b a with hlt | rfl | hgt
    · rw [if_neg (by omega), if_neg (by omega), Memory.readAt_writeAt_of_ne m v (by omega)]
    · simp
    · rw [if_pos (by omega), if_pos (by omega), Memory.readAt_writeAt_of_ne m v (by omega),
        show b - a = (b - (a + 1)) + 1 by omega, List.getD_cons_succ]

theorem Memory.readAt_storeFrom_zero (m : Memory) {vs : List Byte} (h : vs.length ≤ DMEM_CELLS) (b : Nat) :
    Memory.readAt (Memory.storeFrom m 0 vs) b = vs.getD b (Memory.readAt m b) := by
  rw [Memory.readAt_storeFrom m (by omega), if_pos (Nat.zero_le b), Nat.sub_zero]

/-- A list of bytes continued with 0 over all cells, as the host writes it. -/
def fillCells (vs : List Byte) : List Byte := (List.range' 0 DMEM_CELLS).map fun k => vs.getD k blankByte

theorem fillCells_getD {vs : List Byte} {k : Nat} (hk : k < DMEM_CELLS) (d : Byte) :
    (fillCells vs).getD k d = vs.getD k blankByte := by
  simp [fillCells, List.getD_eq_getElem?_getD, hk]

/-- Writing all cells of a canonical memory leaves nothing of it: the result is that of an empty one. -/
theorem Memory.storeFrom_fillCells {m : Memory} (hm : Memory.wf m) {vs : List Byte} (h : vs.length ≤ DMEM_CELLS) :
    Memory.storeFrom m 0 (fillCells vs) = Memory.storeFrom [] 0 vs := by
  have hfull : (fillCells vs).length ≤ DMEM_CELLS := by simp [fillCells]
  refine Memory.eq_of_readAt (Memory.wf_storeFrom hm _ _) (Memory.wf_storeFrom Memory.wf_nil _ _) fun a ha => ?_
  rw [Memory.readAt_storeFrom_zero m hfull, Memory.readAt_storeFrom_zero [] h, fillCells_getD ha]
  rfl

/-! ### The launch -/

/-- The core held in reset with both images loaded, before the release; tied to the machine by `launch_of_fit`. -/
def loadedState (c : Config) (program : List InstrWord) (data : List Byte) (sink : Bool) : State where
  x := ⟨0#8, 0#8, 0#8, 0#8⟩
  pc := 0#8
  flags := 0#8
  stack := []
  fault := none
  pmemHead := Memory.storeFrom [] 0 (program.map headByte)
  pmemOpnd := Memory.storeFrom [] 0 (program.map operandField)
  dmem := Memory.storeFrom [] 0 data
  inStream := []
  inEnded := true
  outStream := []
  inReset := true
  config := c
  sinkReady := sink
  schedule := []
  freeTurns := true
  turn := 0

/-- A launch of images that fit releases the loaded state, unless that is refused. -/
theorem launch_of_fit {c : Config} {program : List InstrWord} {data : List Byte} (hv : c.valid = true)
    (hfit : ImagesFit program data) (input : List Byte) (ended sink : Bool) :
    launch c program data input ended sink =
      match (loadedState c program data sink).launchRefusal with
      | some r => .error r
      | none => .ok ((loadedState c program data sink).release input ended) := by
  rw [launch, if_neg (by simp [hv]), if_neg (not_not_intro hfit)]
  simp only [State.loadData_eq, State.loadProgram_eq]
  rfl

theorem launch_of_invalid {c : Config} (hv : c.valid = false) (program : List InstrWord) (data input : List Byte)
    (ended sink : Bool) : launch c program data input ended sink = .error .badConfiguration := if_pos hv

theorem launch_of_too_large {c : Config} {program : List InstrWord} {data : List Byte} (hv : c.valid = true)
    (hfit : ¬ ImagesFit program data) (input : List Byte) (ended sink : Bool) :
    launch c program data input ended sink = .error .imageTooLarge := by
  rw [launch, if_neg (by simp [hv]), if_pos hfit]

/-- The launch reads back the program, 0 where the image has no word (R132). -/
theorem programWord_loadedState (c : Config) {program : List InstrWord} (data : List Byte) (sink : Bool)
    (h : program.length ≤ DMEM_CELLS) (a : Byte) :
    (loadedState c program data sink).programWord a = program.getD a.toNat 0#16 := by
  have hhead : (program.map headByte).getD a.toNat blankByte = headByte (program.getD a.toNat 0#16) :=
    List.getD_map (f := headByte) (d := 0#16) ..
  have hopnd : (program.map operandField).getD a.toNat blankByte = operandField (program.getD a.toNat 0#16) :=
    List.getD_map (f := operandField) (d := 0#16) ..
  rw [State.programWord, loadedState, Memory.readAt_storeFrom_zero [] (by simpa using h),
    Memory.readAt_storeFrom_zero [] (by simpa using h), Memory.readAt_nil, hhead, hopnd,
    wordOfBytes_headByte_operandField]

theorem readData_loadedState (c : Config) (program : List InstrWord) {data : List Byte} (sink : Bool)
    (h : data.length ≤ DMEM_CELLS) (a : Byte) :
    (loadedState c program data sink).readData a = data.getD a.toNat 0#8 := by
  rw [State.readData, loadedState, Memory.readAt_storeFrom_zero [] h, Memory.readAt_nil]
  rfl

/-- Settles O50: the loaded state holds the images, and its release is refused exactly where the launch is. -/
theorem launchHoldsTheImages : Obligations.LaunchHoldsTheImages := by
  intro c program data input ended sink
  refine ⟨fun hv hp hd hc => ?_, fun hv hlarge => ?_, fun hv hp hd hc huse => ?_,
    fun hv => launch_of_invalid hv program data input ended sink⟩
  · rw [launch_of_fit hv ⟨hp, hd⟩]
    have hnone : (loadedState c program data sink).launchRefusal = none := by
      refine (State.launchRefusal_eq_none_iff _).mpr ⟨hv, hc.imp_right fun hfree => ?_⟩
      refine (State.programUsesCallStack_eq_false_iff _).mpr fun a => ?_
      rw [programWord_loadedState c data sink hp]
      exact hfree a
    rw [hnone]
    exact ⟨_, rfl, programWord_loadedState c data sink hp, readData_loadedState c program sink hd, rfl⟩
  · refine launch_of_too_large hv (fun hfit => ?_) input ended sink
    rcases hlarge with h | h
    · exact absurd hfit.1 (Nat.not_le_of_lt h)
    · exact absurd hfit.2 (Nat.not_le_of_lt h)
  · rw [launch_of_fit hv ⟨hp, hd⟩]
    have hrefused : (loadedState c program data sink).launchRefusal = some .noCallStack := by
      refine State.launchRefusal_of_noCallStack hv hc ((State.programUsesCallStack_iff _).mpr ?_)
      obtain ⟨a, ha⟩ := huse
      exact ⟨a, by rw [programWord_loadedState c data sink hp]; exact ha⟩
    rw [hrefused]

/-! ### The same load as turns of the host -/

/-- A step at a scheduled turn that answers a next state is one step of the run. -/
theorem run_of_schedule {s t : State} {a : AgentTurn} {rest : List AgentTurn} (n : Nat) (hs : s.schedule = a :: rest)
    (ht : takeTurn a { s with schedule := rest } = .next t) :
    Sys2Proof.core.run (n + 1) s = Sys2Proof.core.run n t :=
  run_succ_of_next n ((step_of_schedule hs).trans ht)

/-- The state with other turns scheduled. -/
def State.scheduled (s : State) (turns : List AgentTurn) : State := { s with schedule := turns }

/-- A list of the host's writes, scheduled on a core that is not running, is those writes one after the other. -/
theorem run_hostWrites {turn : Nat → AgentTurn} {write : Nat → State → State}
    (hturn : ∀ b u, takeTurn (turn b) u = u.outsideRun (write b u))
    (hstatus : ∀ b u, (write b u).status = u.status)
    (hscheduled : ∀ b u q, write b (u.scheduled q) = (write b u).scheduled q)
    (cells : List Nat) (n : Nat) {s : State} {rest : List AgentTurn} (hr : s.status ≠ .running)
    (hs : s.schedule = cells.map turn ++ rest) :
    Sys2Proof.core.run (cells.length + n) s =
      Sys2Proof.core.run n (cells.foldl (fun u b => write b u) (s.scheduled rest)) := by
  induction cells generalizing s with
  | nil =>
    have hself : s.scheduled rest = s := by rw [← show s.schedule = rest from hs]; rfl
    rw [List.length_nil, Nat.zero_add]
    exact congrArg (Sys2Proof.core.run n) hself.symm
  | cons b cells ih =>
    let u : State := write b (s.scheduled (cells.map turn ++ rest))
    have hstep : takeTurn (turn b) (s.scheduled (cells.map turn ++ rest)) = .next u :=
      (hturn b _).trans (State.outsideRun_of_not_running u hr)
    have hu : u.status ≠ .running := (hstatus b (s.scheduled _)).trans_ne hr
    have hsch : u.schedule = cells.map turn ++ rest := congrArg State.schedule (hscheduled b s _)
    have hrest : u.scheduled rest = write b (s.scheduled rest) := (hscheduled b _ rest).symm
    calc
      Sys2Proof.core.run ((b :: cells).length + n) s = Sys2Proof.core.run (cells.length + n) u := by
        rw [List.length_cons, Nat.succ_add]
        exact run_of_schedule _ hs hstep
      _ = Sys2Proof.core.run n (cells.foldl (fun u b => write b u) (u.scheduled rest)) := ih hu hsch
      _ = Sys2Proof.core.run n ((b :: cells).foldl (fun u b => write b u) (s.scheduled rest)) :=
        congrArg (fun v => Sys2Proof.core.run n (cells.foldl (fun u b => write b u) v)) hrest

/-- Loading a list of words is placing them one after the other. -/
theorem State.loadProgram_map_range' (s : State) (word : Nat → InstrWord) (a k : Nat) :
    s.loadProgram a ((List.range' a k).map word) =
      (List.range' a k).foldl (fun u b => u.placeWord (BitVec.ofNat 8 b) (word b)) s := by
  induction k generalizing s a with
  | zero => rfl
  | succ k ih =>
    rw [List.range'_succ, List.map_cons, State.loadProgram, ih]
    rfl

theorem State.loadData_map_range' (s : State) (byte : Nat → Byte) (a k : Nat) :
    s.loadData a ((List.range' a k).map byte) =
      (List.range' a k).foldl (fun u b => u.writeData (BitVec.ofNat 8 b) (byte b)) s := by
  induction k generalizing s a with
  | zero => rfl
  | succ k ih =>
    rw [List.range'_succ, List.map_cons, State.loadData, ih]
    rfl

theorem map_getD_range' (f : InstrWord → Byte) (program : List InstrWord) (hf : f 0#16 = blankByte) :
    ((List.range' 0 PMEM_CELLS).map fun b => program.getD b 0#16).map f = fillCells (program.map f) := by
  rw [List.map_map, fillCells]
  refine List.map_congr_left fun b _ => ?_
  rw [Function.comp_apply, ← hf]
  exact (List.getD_map ..).symm

/-- The host's writes of all program cells, on a core that is not running: program memory holds the image, whatever it
held before. -/
theorem run_programTurns {s : State} {program : List InstrWord} {rest : List AgentTurn} (hr : s.status ≠ .running)
    (hs : s.schedule = programTurns program ++ rest) (hm : MemoriesWf s) (hfit : program.length ≤ PMEM_CELLS)
    (n : Nat) :
    Sys2Proof.core.run (PMEM_CELLS + n) s = Sys2Proof.core.run n { s with
      schedule := rest
      pmemHead := Memory.storeFrom [] 0 (program.map headByte)
      pmemOpnd := Memory.storeFrom [] 0 (program.map operandField) } := by
  have hload : (List.range PMEM_CELLS).foldl (fun u b => u.placeWord (BitVec.ofNat 8 b) (program.getD b 0#16))
      (s.scheduled rest) = { s with
        schedule := rest
        pmemHead := Memory.storeFrom [] 0 (program.map headByte)
        pmemOpnd := Memory.storeFrom [] 0 (program.map operandField) } := by
    rw [List.range_eq_range', ← State.loadProgram_map_range' _ (fun b => program.getD b 0#16), State.loadProgram_eq,
      map_getD_range' headByte program rfl, map_getD_range' operandField program rfl, State.scheduled,
      Memory.storeFrom_fillCells hm.head ((List.length_map _).trans_le hfit),
      Memory.storeFrom_fillCells hm.opnd ((List.length_map _).trans_le hfit)]
  have hrun := run_hostWrites (write := fun b u => u.placeWord (BitVec.ofNat 8 b) (program.getD b 0#16))
    (fun _ _ => rfl) (fun _ _ => rfl) (fun _ _ _ => rfl) (List.range PMEM_CELLS) n hr hs
  rw [List.length_range] at hrun
  exact hrun.trans (congrArg (Sys2Proof.core.run n) hload)

/-- The host's writes of all data cells, likewise. -/
theorem run_dataTurns {s : State} {data : List Byte} {rest : List AgentTurn} (hr : s.status ≠ .running)
    (hs : s.schedule = dataTurns data ++ rest) (hm : MemoriesWf s) (hfit : data.length ≤ DMEM_CELLS) (n : Nat) :
    Sys2Proof.core.run (DMEM_CELLS + n) s =
      Sys2Proof.core.run n { s with schedule := rest, dmem := Memory.storeFrom [] 0 data } := by
  have hload : (List.range DMEM_CELLS).foldl (fun u b => u.writeData (BitVec.ofNat 8 b) (data.getD b 0#8))
      (s.scheduled rest) = { s with schedule := rest, dmem := Memory.storeFrom [] 0 data } := by
    have hfill : (List.range' 0 DMEM_CELLS).map (fun b => data.getD b 0#8) = fillCells data := rfl
    rw [List.range_eq_range', ← State.loadData_map_range' _ (fun b => data.getD b 0#8), hfill, State.loadData_eq,
      State.scheduled, Memory.storeFrom_fillCells hm.data hfit]
  have hrun := run_hostWrites (write := fun b u => u.writeData (BitVec.ofNat 8 b) (data.getD b 0#8))
    (fun _ _ => rfl) (fun _ _ => rfl) (fun _ _ _ => rfl) (List.range DMEM_CELLS) n hr hs
  rw [List.length_range] at hrun
  exact hrun.trans (congrArg (Sys2Proof.core.run n) hload)

/-- The state the host's turns up to the release leave: the loaded state, with the fields outside the launch's reach as
they were. -/
def hostLoaded (s : State) (program : List InstrWord) (data : List Byte) (rest : List AgentTurn) : State :=
  { loadedState s.config program data s.sinkReady with
    inStream := s.inStream, inEnded := s.inEnded, schedule := rest, freeTurns := s.freeTurns, turn := s.turn }

/-- Reset, then a write of every cell of both memories: whatever the memories held, they hold the images. -/
theorem run_loadTurns {s : State} {program : List InstrWord} {data : List Byte} (hm : MemoriesWf s)
    (hfit : ImagesFit program data) {rest : List AgentTurn}
    (hs : s.schedule = .hostReset :: (programTurns program ++ (dataTurns data ++ rest))) (n : Nat) :
    Sys2Proof.core.run (PMEM_CELLS + (DMEM_CELLS + n) + 1) s =
      Sys2Proof.core.run n (hostLoaded s program data rest) := by
  have hheld : ∀ u : State, u.inReset = true → u.status ≠ .running := fun u hu => by
    rw [(u.status_inReset_iff).mpr hu]
    decide
  let u : State := State.applyReset { s with schedule := programTurns program ++ (dataTurns data ++ rest) }
  let v : State := { u with
    schedule := dataTurns data ++ rest
    pmemHead := Memory.storeFrom [] 0 (program.map headByte)
    pmemOpnd := Memory.storeFrom [] 0 (program.map operandField) }
  have hu : MemoriesWf u := ⟨hm.head, hm.opnd, hm.data⟩
  have hv : MemoriesWf v := ⟨Memory.wf_storeFrom Memory.wf_nil _ _, Memory.wf_storeFrom Memory.wf_nil _ _, hm.data⟩
  calc
    Sys2Proof.core.run (PMEM_CELLS + (DMEM_CELLS + n) + 1) s = Sys2Proof.core.run (PMEM_CELLS + (DMEM_CELLS + n)) u :=
      run_of_schedule _ hs rfl
    _ = Sys2Proof.core.run (DMEM_CELLS + n) v := run_programTurns (hheld u rfl) rfl hu hfit.1 _
    _ = Sys2Proof.core.run n (hostLoaded s program data rest) := run_dataTurns (hheld v rfl) rfl hv hfit.2 n

theorem run_one_of_next {s t : State} (h : step s = .next t) : Sys2Proof.core.run 1 s = .next t :=
  (run_succ_of_next 0 h).trans (run_zero t)

/-- Settles O51: both ways hold the core with the loaded images, and the release is refused for the same reason. -/
theorem hostLoadGivesTheLaunch : Obligations.HostLoadGivesTheLaunch := by
  intro program data input ended
  refine ⟨fun hp hd => ?_, fun hlarge => ?_⟩
  · refine ⟨_, if_pos ⟨hp, hd⟩, by simp [programTurns, dataTurns, PMEM_CELLS, DMEM_CELLS], fun s rest hs hsch => ?_⟩
    have hrun := run_loadTurns (rest := .hostRelease input ended :: rest) ⟨hs.head, hs.opnd, hs.data⟩ ⟨hp, hd⟩
      (by simpa using hsch) 1
    have hstep : step (hostLoaded s program data (.hostRelease input ended :: rest)) =
        (hostLoaded s program data rest).hostRelease input ended :=
      step_of_schedule (s := hostLoaded s program data (.hostRelease input ended :: rest)) rfl
    have hrefusal : (hostLoaded s program data rest).launchRefusal =
        (loadedState s.config program data s.sinkReady).launchRefusal := rfl
    rw [launch_of_fit hs.config ⟨hp, hd⟩]
    cases hl : (loadedState s.config program data s.sinkReady).launchRefusal with
    | some r =>
      rw [State.hostRelease_of_refused input ended rfl (hrefusal.trans hl)] at hstep
      exact hrun.trans (run_succ_of_refused 0 hstep)
    | none =>
      rw [State.hostRelease_of_allowed input ended rfl (hrefusal.trans hl)] at hstep
      exact hrun.trans (run_one_of_next hstep)
  · have hnot : ¬ ImagesFit program data := fun hfit => by
      rcases hlarge with h | h
      · exact absurd hfit.1 (Nat.not_le_of_lt h)
      · exact absurd hfit.2 (Nat.not_le_of_lt h)
    exact ⟨if_neg hnot, fun s hs => launch_of_too_large hs.config hnot input ended s.sinkReady⟩

/-! ### Image files -/

/-- The two bytes of each word, head byte first (spec/92_eei_decisions.md D15). -/
def imageBytes (ws : List InstrWord) : List Byte := ws.flatMap fun w => [headByte w, operandField w]

theorem imageBytes_cons (w : InstrWord) (ws : List InstrWord) :
    imageBytes (w :: ws) = headByte w :: operandField w :: imageBytes ws := rfl

theorem length_imageBytes (ws : List InstrWord) : (imageBytes ws).length = 2 * ws.length := by
  induction ws with
  | nil => rfl
  | cons w ws ih =>
    rw [imageBytes_cons, List.length_cons, List.length_cons, ih, List.length_cons]
    omega

theorem wordsOfBytes_imageBytes (ws : List InstrWord) : wordsOfBytes (imageBytes ws) = some ws := by
  induction ws with
  | nil => rfl
  | cons w ws ih =>
    rw [imageBytes_cons, wordsOfBytes, ih, Option.map_some, wordOfBytes_headByte_operandField]

theorem eq_imageBytes_of_wordsOfBytes {image : List Byte} {ws : List InstrWord} (h : wordsOfBytes image = some ws) :
    image = imageBytes ws := by
  induction image using wordsOfBytes.induct generalizing ws with
  | case1 => cases h; rfl
  | case2 => cases h
  | case3 head operand rest ih =>
    rw [wordsOfBytes, Option.map_eq_some_iff] at h
    obtain ⟨vs, hvs, rfl⟩ := h
    rw [imageBytes_cons, headByte_wordOfBytes, operandField_wordOfBytes, ← ih hvs]

/-- A byte list that stops inside a cell spells no words. -/
theorem wordsOfBytes_of_odd {image : List Byte} (h : image.length % 2 = 1) : wordsOfBytes image = none := by
  refine Option.eq_none_iff_forall_ne_some.mpr fun ws hws => ?_
  rw [eq_imageBytes_of_wordsOfBytes hws, length_imageBytes] at h
  omega

theorem wordsOfImage_of_fit {image : List Byte} (h : image.length ≤ 512) :
    wordsOfImage image =
      match wordsOfBytes image with
      | some ws => .ok ws
      | none => .error .imageIncomplete :=
  if_neg (Nat.not_lt_of_le h)

theorem wordsOfImage_imageBytes {ws : List InstrWord} (h : ws.length ≤ 256) :
    wordsOfImage (imageBytes ws) = .ok ws := by
  rw [wordsOfImage_of_fit (by rw [length_imageBytes]; omega), wordsOfBytes_imageBytes]

theorem splitImage_imageBytes {ws : List InstrWord} {data : List Byte} (hw : ws.length = 256)
    (hd : data.length = 256) : splitImage (imageBytes ws ++ data) = .ok (ws, data) := by
  have hlen : (imageBytes ws).length = 2 * PMEM_CELLS := by rw [length_imageBytes, hw]; rfl
  have htotal : (imageBytes ws ++ data).length = 2 * PMEM_CELLS + DMEM_CELLS := by
    rw [List.length_append, hlen, hd]
    rfl
  rw [splitImage, htotal, if_neg (Nat.lt_irrefl _), if_neg (Nat.lt_irrefl _), List.take_left' hlen,
    List.drop_left' hlen, wordsOfImage_imageBytes hw.le]
  rfl

/-- Settles O52: reading is the inverse of writing out, and a length that no list of words has fails. -/
theorem imageBytesGiveTheWords : Obligations.ImageBytesGiveTheWords := by
  refine ⟨fun ws h => wordsOfImage_imageBytes h, fun ws data hw hd => splitImage_imageBytes hw hd, fun image => ?_⟩
  refine ⟨fun h => if_pos h, fun h hodd => ?_, fun ws h => ?_, fun h => if_pos h, fun h => ?_⟩
  · rw [wordsOfImage_of_fit h, wordsOfBytes_of_odd hodd]
  · unfold wordsOfImage at h
    split at h
    · cases h
    · split at h
      · rename_i vs hvs
        cases h
        exact eq_imageBytes_of_wordsOfBytes hvs
      · cases h
  · exact (if_neg (Nat.not_lt_of_lt h)).trans (if_pos h)

/-! ### Reset and the parameters -/

/-- Settles O49: the fields of the reset state, and the empty data memory. -/
theorem resetValues : Obligations.ResetValues :=
  ⟨fun r => by cases r <;> rfl, rfl, rfl, rfl, rfl, rfl, rfl, fun _ => rfl⟩

/-- Settles O54: the parameter table by evaluation, the other values by the frames of the operations they steer. -/
theorem alternativeParameters : Obligations.AlternativeParameters := by
  refine ⟨⟨Config.spec_valid, rfl⟩, fun c s r1 r2 b w =>
    ⟨fun hu => ⟨?_, ?_⟩, fun ho => ?_, fun hp => ?_, fun hin => ?_⟩⟩
  · obtain ⟨_, _, hcarry⟩ := addInto_frame c s r1 b
    rw [hcarry, hu, Bool.or_comm]
    rfl
  · obtain ⟨_, _, hsign⟩ := subInto_frame c s r1 b
    rw [hsign, hu, Bool.or_comm]
    rfl
  · rw [State.loadIndirect_eq_loadReg, ho]
    have h := writesReg_loadReg s r1 (s.readData (s.reg r2))
    exact ⟨h.reg, h.others⟩
  · exact State.takeUnmapped_of_noop s w hp
  · rw [State.inputByte, hin]

end Sys2Proof.Machine

/-!
SUPPORT. Runs along streams of turns (spec/50_execution_cycle.md R99, R109): no turn looks at the fields that say whose
turn it is, so a run along a stream is the machine's run under the schedule of that stream's turns.
-/

namespace Sys2Proof.Machine

open Sys2Proof.Safety

/-! ### Turns do not see the schedule -/

/-- The state with other fields for whose turn it is (the model's own, notes/assumptions/5.md). -/
def State.withTurns (s : State) (schedule : List AgentTurn) (free : Bool) (turn : Nat) : State :=
  { s with schedule := schedule, freeTurns := free, turn := turn }

@[simp] theorem State.withTurns_self (s : State) : s.withTurns s.schedule s.freeTurns s.turn = s := rfl

/-- An outcome with every next state changed. -/
def mapNext (g : State → State) : Outcome → Outcome
  | .next t => .next (g t)
  | .fault r => .fault r
  | .refused r => .refused r

theorem State.takeUnmapped_withTurns (c : Config) (s : State) (w : InstrWord) (q : List AgentTurn) (f : Bool)
    (k : Nat) : (s.withTurns q f k).takeUnmapped c w = (s.takeUnmapped c w).withTurns q f k := by
  unfold State.takeUnmapped
  cases c.unmappedPolicy <;> rfl

theorem exec_withTurns (i : Instr) (s : State) (q : List AgentTurn) (f : Bool) (k : Nat) :
    exec i (s.withTurns q f k) = mapNext (·.withTurns q f k) (exec i s) := by
  rw [controlBundleAgreesWithRules, controlBundleAgreesWithRules, execByControl, execByControl]
  have hconfig : (s.withTurns q f k).config = s.config := rfl
  rw [hconfig]
  cases controlRow s.config i.mnemonic with
  | none => exact congrArg Host.Outcome.next (s.takeUnmapped_withTurns _ _ q f k)
  | some row =>
    have hen : row.enabled (s.withTurns q f k) = row.enabled s := rfl
    simp only [hen]
    split <;> rfl

theorem State.cycle_withTurns (s : State) (q : List AgentTurn) (f : Bool) (k : Nat) :
    (s.withTurns q f k).cycle = mapNext (·.withTurns q f k) s.cycle := by
  have hd : decodeWith (s.withTurns q f k).config (s.withTurns q f k).fetch = decodeWith s.config s.fetch := rfl
  rw [State.cycle, State.cycle, hd]
  cases decodeWith s.config s.fetch with
  | ok i => exact exec_withTurns i s q f k
  | error e => exact congrArg Host.Outcome.next (s.takeUnmapped_withTurns _ _ q f k)

theorem State.whileRunning_withTurns (s u : State) (q : List AgentTurn) (f : Bool) (k : Nat) :
    (s.withTurns q f k).whileRunning (u.withTurns q f k) = mapNext (·.withTurns q f k) (s.whileRunning u) := by
  by_cases hr : s.status = .running
  · rw [s.whileRunning_of_running u hr]
    exact State.whileRunning_of_running _ hr
  · rw [s.whileRunning_of_not_running u hr]
    exact State.whileRunning_of_not_running _ hr

theorem State.outsideRun_withTurns (s u : State) (q : List AgentTurn) (f : Bool) (k : Nat) :
    (s.withTurns q f k).outsideRun (u.withTurns q f k) = mapNext (·.withTurns q f k) (s.outsideRun u) := by
  by_cases hr : s.status = .running
  · rw [s.outsideRun_of_running u hr]
    exact State.outsideRun_of_running _ hr
  · rw [s.outsideRun_of_not_running u hr]
    exact State.outsideRun_of_not_running _ hr

/-- No turn reads or writes the fields that say whose turn it is. -/
theorem takeTurn_withTurns (a : AgentTurn) (s : State) (q : List AgentTurn) (f : Bool) (k : Nat) :
    takeTurn a (s.withTurns q f k) = mapNext (·.withTurns q f k) (takeTurn a s) := by
  cases a with
  | core =>
    by_cases hr : s.status = .running
    · rw [takeTurn, takeTurn, if_pos hr, ← s.cycle_withTurns]
      exact if_pos hr
    · rw [takeTurn_core_of_not_running hr]
      exact takeTurn_core_of_not_running (s := s.withTurns q f k) hr
  | irq => exact s.whileRunning_withTurns s.irqStep q f k
  | inputByte b =>
    have happend : (s.withTurns q f k).inputAppend b = (s.inputAppend b).withTurns q f k := by
      rw [State.inputAppend_eq, State.inputAppend_eq]
      rfl
    rw [takeTurn, happend]
    exact s.whileRunning_withTurns (s.inputAppend b) q f k
  | inputEnd => exact s.whileRunning_withTurns s.inputFinish q f k
  | sinkAccept => exact s.whileRunning_withTurns (s.setSink true) q f k
  | sinkStall => exact s.whileRunning_withTurns (s.setSink false) q f k
  | hostReset => rfl
  | hostRelease input ended =>
    have hheld : (s.withTurns q f k).inReset = s.inReset := rfl
    have hrefusal : (s.withTurns q f k).launchRefusal = s.launchRefusal := rfl
    simp only [takeTurn, State.hostRelease, hheld, hrefusal]
    split
    · cases s.launchRefusal <;> rfl
    · rfl
  | hostWriteProgram b w => exact s.outsideRun_withTurns (s.placeWord b w) q f k
  | hostWriteData b v => exact s.outsideRun_withTurns (s.writeData b v) q f k

theorem takeTurn_withTurns_next {a : AgentTurn} {s t : State} (h : takeTurn a s = .next t) (q : List AgentTurn)
    (f : Bool) (k : Nat) : takeTurn a (s.withTurns q f k) = .next (t.withTurns q f k) := by
  rw [takeTurn_withTurns, h]
  rfl

/-! ### Runs along a stream -/

/-- The state after a turn, or the same where there is none. -/
def afterTurn (a : AgentTurn) (s : State) : State :=
  match takeTurn a s with
  | .next t => t
  | .fault _ => s
  | .refused _ => s

/-- The states along a stream of turns. -/
def statesAlong (turns : Nat → AgentTurn) (s : State) : Nat → State
  | 0 => s
  | n + 1 => afterTurn (turns n) (statesAlong turns s n)

theorem isRun_statesAlong (choices : Nat → FreeTurn) (s : State) :
    IsRun (freeStream choices) (statesAlong (freeStream choices) s) := by
  intro n
  obtain ⟨t, ht⟩ := takeTurn_free_next (choices n) (statesAlong (freeStream choices) s n)
  rw [statesAlong, afterTurn, freeStream, ht]

/-- Each state of a run is determined by the one before. -/
theorem IsRun.unique {turns : Nat → AgentTurn} {states states' : Nat → State} (h : IsRun turns states)
    (h' : IsRun turns states') (h0 : states 0 = states' 0) : states = states' := by
  funext n
  induction n with
  | zero => exact h0
  | succ n ih =>
    have hn := h n
    rw [ih, h' n, Host.Outcome.next.injEq] at hn
    exact hn.symm

/-- A run without its first state is the run of the stream without its first turn. -/
theorem IsRun.tail {turns : Nat → AgentTurn} {states : Nat → State} (h : IsRun turns states) :
    IsRun (fun n => turns (n + 1)) (fun n => states (n + 1)) := fun n => h (n + 1)

/-- The fields that say whose turn it is are the same in every state of a run. -/
theorem IsRun.turns {turns : Nat → AgentTurn} {states : Nat → State} (h : IsRun turns states) (n : Nat) :
    (states n).withTurns (states 0).schedule (states 0).freeTurns (states 0).turn = states n := by
  induction n with
  | zero => rfl
  | succ n ih =>
    have hn := takeTurn_withTurns_next (h n) (states 0).schedule (states 0).freeTurns (states 0).turn
    rw [ih, h n, Host.Outcome.next.injEq] at hn
    exact hn.symm

theorem firstTurns_succ (turns : Nat → AgentTurn) (n : Nat) :
    firstTurns turns (n + 1) = turns 0 :: firstTurns (fun k => turns (k + 1)) n := by
  rw [firstTurns, List.range_succ_eq_map, List.map_cons, List.map_map]
  rfl

/-- With the first turns of a stream scheduled, the machine goes through the run along it. -/
theorem run_firstTurns {turns : Nat → AgentTurn} {states : Nat → State} (h : IsRun turns states) (n : Nat)
    (q : List AgentTurn) (f : Bool) (k : Nat) :
    Sys2Proof.core.run n ((states 0).withTurns (firstTurns turns n ++ q) f k) =
      .next ((states n).withTurns q f k) := by
  induction n generalizing turns states with
  | zero => exact run_zero _
  | succ n ih =>
    rw [firstTurns_succ, List.cons_append]
    exact (run_of_schedule n rfl (takeTurn_withTurns_next (h 0) _ f k)).trans (ih h.tail)

/-- Left to the environment's choices, a running machine goes through the run along their stream. -/
theorem run_environment {states : Nat → State} {k : Nat}
    (h : IsRun (freeStream fun j => Config.environment (k + j)) states) (n : Nat)
    (hr : ∀ j, j < n → (states j).status = .running) :
    Sys2Proof.core.run n ((states 0).withTurns [] true k) = .next ((states n).withTurns [] true (k + n)) := by
  induction n generalizing states k with
  | zero => exact run_zero _
  | succ n ih =>
    have hstep : step ((states 0).withTurns [] true k) = .next ((states 1).withTurns [] true (k + 1)) :=
      (step_of_free (s := (states 0).withTurns [] true k) rfl rfl (hr 0 n.succ_pos)).trans
        (takeTurn_withTurns_next (h 0) [] true (k + 1))
    have htail : IsRun (freeStream fun j => Config.environment (k + 1 + j)) (fun j => states (j + 1)) := by
      have hshift : (freeStream fun j => Config.environment (k + 1 + j)) =
          fun j => freeStream (fun j => Config.environment (k + j)) (j + 1) := by
        funext j
        rw [freeStream, freeStream, Nat.add_assoc, Nat.add_comm 1 j]
      rw [hshift]
      exact h.tail
    rw [run_succ_of_next n hstep, ih htail fun j hj => hr (j + 1) (Nat.succ_lt_succ hj), Nat.add_assoc,
      Nat.add_comm 1 n]

/-- Settles O58: the run is built turn by turn and unique by induction; no turn sees the schedule, so the machine takes
the same turns. -/
theorem everyInterleavingIsARun : Obligations.EveryInterleavingIsARun := by
  refine ⟨fun choices s => ?_, fun choices states n h => ?_, fun states n hs hf h hr => ?_⟩
  · exact ⟨_, ⟨rfl, isRun_statesAlong choices s⟩,
      fun states h => h.2.unique (isRun_statesAlong choices s) h.1⟩
  · have hrun := run_firstTurns h n (states 0).schedule (states 0).freeTurns (states 0).turn
    rwa [h.turns n] at hrun
  · have hrun := run_environment h n hr
    have hstart : (states 0).withTurns [] true (states 0).turn = states 0 := by
      rw [← hs, ← hf, State.withTurns_self]
    have hend : (states n).withTurns [] true ((states 0).turn + n) =
        { states n with turn := (states 0).turn + n } := by
      rw [← h.turns n, hs, hf]
      rfl
    rwa [hstart, hend] at hrun

end Sys2Proof.Machine

/-!
SUPPORT. The interrupt flag along a run (spec/10_state.md R16, spec/50_execution_cycle.md R109): two states that
agree but for it are kept in step by every turn that runs no instruction that reads it, and a halt makes them equal.
-/

namespace Sys2Proof.Machine

open Sys2Proof.Safety

/-! ### Two machines in step -/

/-- Two outcomes of the same kind: the same reason, or next states in a relation. -/
inductive InStep (R : State → State → Prop) : Outcome → Outcome → Prop
  | next {t t' : State} (h : R t t') : InStep R (.next t) (.next t')
  | fault (r : Fault) : InStep R (.fault r) (.fault r)
  | refused (r : Refusal) : InStep R (.refused r) (.refused r)

theorem InStep.of_next {R : State → State → Prop} {t : State} {o : Outcome} (h : InStep R (.next t) o) :
    ∃ t', o = .next t' ∧ R t t' := by
  cases h with
  | next h => exact ⟨_, rfl, h⟩

theorem InStep.of_fault {R : State → State → Prop} {r : Fault} {o : Outcome} (h : InStep R (.fault r) o) :
    o = .fault r := by
  cases h
  rfl

theorem InStep.of_refused {R : State → State → Prop} {r : Refusal} {o : Outcome} (h : InStep R (.refused r) o) :
    o = .refused r := by
  cases h
  rfl

/-- The induction over two runs: a relation that every step keeps, from states with a property that the first run's
states have, relates the two runs' outcomes. -/
theorem run_inStep {R : State → State → Prop} {P : State → Prop}
    (hstep : ∀ s s', R s s' → P s → InStep R (step s) (step s')) {n : Nat} {s s' : State} (h : R s s')
    (hP : ∀ k, k < n → ∀ u, Sys2Proof.core.run k s = .next u → P u) :
    InStep R (Sys2Proof.core.run n s) (Sys2Proof.core.run n s') := by
  induction n generalizing s s' with
  | zero =>
    rw [run_zero, run_zero]
    exact .next h
  | succ n ih =>
    have hs := hstep s s' h (hP 0 n.succ_pos s (run_zero s))
    generalize ho : step s = o at hs
    generalize ho' : step s' = o' at hs
    cases hs with
    | next ht =>
      rw [run_succ_of_next n ho, run_succ_of_next n ho']
      exact ih ht fun k hk u hu => hP (k + 1) (Nat.succ_lt_succ hk) u ((run_succ_of_next k ho).trans hu)
    | fault r =>
      rw [run_succ_of_fault n ho, run_succ_of_fault n ho']
      exact .fault r
    | refused r =>
      rw [run_succ_of_refused n ho, run_succ_of_refused n ho']
      exact .refused r

/-! ### States that agree but for the interrupt flag -/

/-- Two such states, the second as the first with another flags byte. -/
theorem sameButFlagBits_iff (m : Byte) (s s' : State) :
    SameButFlagBits m s s' ↔ ∃ f, f &&& ~~~m = s.flags &&& ~~~m ∧ s' = s.setFlags f :=
  ⟨fun h => ⟨s'.flags, h.1, h.2⟩, fun ⟨_, hf, he⟩ => he ▸ ⟨hf, rfl⟩⟩

/-- An update that neither reads nor writes `FLAGS` keeps the agreement. -/
theorem sameButFlagBits_update {m : Byte} {s : State} {f : Byte} {g : State → State}
    (hf : f &&& ~~~m = s.flags &&& ~~~m) (hg : g (s.setFlags f) = (g s).setFlags f) (hflags : (g s).flags = s.flags) :
    SameButFlagBits m (g s) (g (s.setFlags f)) :=
  (sameButFlagBits_iff _ _ _).mpr ⟨f, hflags ▸ hf, hg⟩

/-- The status reads no bit of `FLAGS` but the halt bit. -/
theorem status_setFlags {s : State} {f : Byte} (hf : f &&& ~~~interruptBits = s.flags &&& ~~~interruptBits) :
    (s.setFlags f).status = s.status :=
  State.status_congr_halt rfl (getLsbD_eq_of_and_eq (i := 6) hf rfl) rfl

theorem turnTaken_setFlags (s : State) (f : Byte) : (s.setFlags f).turnTaken = s.turnTaken.setFlags f := by
  rw [State.turnTaken_eq, State.turnTaken_eq]
  rfl

/-- Under another interrupt flag, the core runs what it runs. -/
theorem runsNow_setFlags {s : State} {f : Byte} (hf : f &&& ~~~interruptBits = s.flags &&& ~~~interruptBits) :
    runsNow (s.setFlags f) = runsNow s := by
  unfold runsNow
  rw [status_setFlags hf]
  rfl

/-! ### A turn under another interrupt flag -/

section

variable {s : State} {f : Byte}

theorem whileRunning_inStep {u u' : State} (hf : f &&& ~~~interruptBits = s.flags &&& ~~~interruptBits)
    (hu : SameButFlagBits interruptBits u u') :
    InStep (SameButFlagBits interruptBits) (s.whileRunning u) ((s.setFlags f).whileRunning u') := by
  rw [State.whileRunning, State.whileRunning, status_setFlags hf]
  split
  · exact .next hu
  · exact .next ⟨hf, rfl⟩

theorem outsideRun_inStep {u u' : State} (hf : f &&& ~~~interruptBits = s.flags &&& ~~~interruptBits)
    (hu : SameButFlagBits interruptBits u u') :
    InStep (SameButFlagBits interruptBits) (s.outsideRun u) ((s.setFlags f).outsideRun u') := by
  rw [State.outsideRun, State.outsideRun, status_setFlags hf]
  split
  · exact .refused _
  · exact .next hu

/-- The core's cycle, where the decoded instruction does not read the interrupt flag. -/
theorem cycle_inStep (hf : f &&& ~~~interruptBits = s.flags &&& ~~~interruptBits)
    (hread : ∀ i, decodeWith s.config s.fetch = .ok i → readsInterrupt i = false) :
    InStep (SameButFlagBits interruptBits) s.cycle (s.setFlags f).cycle := by
  cases hd : decodeWith s.config s.fetch with
  | ok i =>
    obtain ⟨t, ht⟩ := exec_next i s
    obtain ⟨t', ht', hsame⟩ := interruptFlagReachesThreeInstructions i s (s.setFlags f) t ⟨hf, rfl⟩ (hread i hd) ht
    rw [State.cycle_of_decoded hd, State.cycle_of_decoded (s := s.setFlags f) hd, ht, ht']
    exact .next hsame
  | error e =>
    rw [State.cycle_of_undecodable hd, State.cycle_of_undecodable (s := s.setFlags f) hd]
    exact .next (sameButFlagBits_update (g := fun u => u.takeUnmapped s.config s.fetch) hf
      (s.takeUnmapped_setFlags s.config f s.fetch) (State.takeUnmapped_flags _ _ _))

/-- Every turn, where the instruction the core's turn runs does not read the interrupt flag. -/
theorem takeTurn_inStep (a : AgentTurn) (hf : f &&& ~~~interruptBits = s.flags &&& ~~~interruptBits)
    (hread : a = .core → s.status = .running →
      ∀ i, decodeWith s.config s.fetch = .ok i → readsInterrupt i = false) :
    InStep (SameButFlagBits interruptBits) (takeTurn a s) (takeTurn a (s.setFlags f)) := by
  cases a with
  | core =>
    rw [takeTurn, takeTurn, status_setFlags hf]
    split
    · rename_i hr
      exact cycle_inStep hf (hread rfl hr)
    · exact .next ⟨hf, rfl⟩
  | irq => exact whileRunning_inStep hf ⟨setFlag_and_congr .interrupt hf, rfl⟩
  | inputByte b =>
    refine whileRunning_inStep hf (sameButFlagBits_update (g := (·.inputAppend b)) hf ?_ ?_)
    · simp only [State.inputAppend_eq]
      rfl
    · simp only [State.inputAppend_eq]
  | inputEnd => exact whileRunning_inStep hf ⟨hf, rfl⟩
  | sinkAccept => exact whileRunning_inStep hf ⟨hf, rfl⟩
  | sinkStall => exact whileRunning_inStep hf ⟨hf, rfl⟩
  | hostReset => exact .next ⟨rfl, rfl⟩
  | hostRelease input ended =>
    have hrefusal : (s.setFlags f).launchRefusal = s.launchRefusal := rfl
    rw [takeTurn, takeTurn, State.hostRelease, State.hostRelease, hrefusal, State.setFlags_inReset]
    split
    · cases s.launchRefusal with
      | some r => exact .refused r
      | none => exact .next ⟨hf, rfl⟩
    · exact .next ⟨hf, rfl⟩
  | hostWriteProgram b w => exact outsideRun_inStep hf ⟨hf, rfl⟩
  | hostWriteData b v => exact outsideRun_inStep hf ⟨hf, rfl⟩

end

/-! ### Steps and runs -/

/-- No instruction run from this state reads the interrupt flag. -/
def IgnoresInterrupt (s : State) : Prop := ∀ i, runsNow s = some i → readsInterrupt i = false

/-- A step under another interrupt flag: the same turn is taken, or none for the same reason. -/
theorem step_inStep {s s' : State} (h : SameButFlagBits interruptBits s s') (hread : IgnoresInterrupt s) :
    InStep (SameButFlagBits interruptBits) (step s) (step s') := by
  obtain ⟨f, hf, rfl⟩ := (sameButFlagBits_iff _ _ _).mp h
  have hstop : (s.setFlags f).stopReason = s.stopReason := by
    rw [State.stopReason, State.stopReason, status_setFlags hf]
    rfl
  have hnext : (s.setFlags f).nextTurn = s.nextTurn := rfl
  rw [step, step, hstop]
  cases s.stopReason with
  | some r => exact .fault r
  | none =>
    rw [hnext, turnTaken_setFlags]
    refine takeTurn_inStep _ (s.turnTaken_flags ▸ hf) fun ha hr i hd => hread i ?_
    rw [State.turnTaken_status] at hr
    rw [State.turnTaken_config, State.turnTaken_fetch] at hd
    exact (runsNow_eq_some_iff s i).mpr ⟨hr, ha, hd⟩

/-- Two states that agree but for the interrupt flag, and wholly if they are halted. -/
def AgreeAtHalt (s s' : State) : Prop := SameButFlagBits interruptBits s s' ∧ (s.flag .halt = true → s' = s)

/-- The step that halts a core overwrites the whole flags byte, so it leaves no difference. -/
theorem step_eq_of_halt {s s' t t' : State} (h : AgreeAtHalt s s') (ht : step s = .next t) (ht' : step s' = .next t')
    (hhalt : t.flag .halt = true) : t' = t := by
  by_cases hs : s.flag .halt = true
  · rw [h.2 hs, ht, Host.Outcome.next.injEq] at ht'
    exact ht'.symm
  have hreset : resetNext s = false := Bool.eq_false_iff.mpr fun hr => by
    have hclear : s.turnTaken.applyReset.flag .halt = false := by rw [State.flag, State.applyReset_flags]; rfl
    rw [step_of_resetNext ht hr, hclear] at hhalt
    cases hhalt
  obtain ⟨r, hrun, _⟩ := (step_halt_cases ht hreset).resolve_left fun he => hs (he ▸ hhalt)
  obtain ⟨f, hf, rfl⟩ := (sameButFlagBits_iff _ _ _).mp h.1
  obtain ⟨hr, hn, hd⟩ := (runsNow_eq_some_iff _ _).mp hrun
  obtain ⟨hr', hn', hd'⟩ := (runsNow_eq_some_iff _ _).mp ((runsNow_setFlags hf).trans hrun)
  rw [step_of_decoded hr hn hd, exec_stfl] at ht
  rw [step_of_decoded hr' hn' hd', turnTaken_setFlags, exec_stfl] at ht'
  cases ht
  cases ht'
  rfl

theorem step_inStep_atHalt {s s' : State} (h : AgreeAtHalt s s') (hread : IgnoresInterrupt s) :
    InStep AgreeAtHalt (step s) (step s') := by
  have hs := step_inStep h.1 hread
  generalize ho : step s = o at hs
  generalize ho' : step s' = o' at hs
  cases hs with
  | next ht => exact .next ⟨ht, step_eq_of_halt h ho ho'⟩
  | fault r => exact .fault r
  | refused r => exact .refused r

/-- Settles O59: the two runs are kept in step, and a run that started running and is halted passed through the step
that leaves no difference. -/
theorem runsIgnoreTheInterruptFlag : Obligations.RunsIgnoreTheInterruptFlag := by
  intro n s s' h hread
  have hignores : ∀ k, k < n → ∀ u, Sys2Proof.core.run k s = .next u → IgnoresInterrupt u :=
    fun k hk u hu i => hread k hk u i hu
  have hsame := run_inStep (fun _ _ => step_inStep) h hignores
  refine ⟨fun r hr => InStep.of_fault (hr ▸ hsame), fun r hr => InStep.of_refused (hr ▸ hsame), fun t ht => ?_⟩
  rw [ht] at hsame
  obtain ⟨t', ht', hagree⟩ := hsame.of_next
  refine ⟨t', ht', hagree, fun hrun hhalt => ?_⟩
  obtain ⟨_, hnot, _⟩ := (s.status_running_iff).mp hrun
  have hstart : AgreeAtHalt s s' := ⟨h, fun hs => by rw [hnot] at hs; cases hs⟩
  have hhalted := run_inStep (fun _ _ => step_inStep_atHalt) hstart hignores
  rw [ht, ht'] at hhalted
  obtain ⟨_, heq, hboth⟩ := hhalted.of_next
  cases heq
  exact hboth.2 hhalt

end Sys2Proof.Machine
